-- ==== Sys2Proof/Word.lean ====
section
/-! DEFINITION. The word types of LCB: the widths that `00_scope.md` rules R6, R8, R12 and `10_state.md` rule R20 fix. -/

namespace Sys2Proof

/-- A data register, an index, a hash value, a storage word of a bitmap: `XLEN = WORDBITS = 64` (R6, R8). -/
abbrev Word := BitVec 64

/-- A 32-bit lane or the operand of the 32-bit finalizer (R140, R150). -/
abbrev Word32 := BitVec 32

/-- One byte of a dump image (R52) or of a hash input (R53). -/
abbrev Byte := BitVec 8

/-- A command word: `CMDW = 128` (R12, R80). -/
abbrev Cmd := BitVec 128

/-- The digest register `DG` (R33). -/
abbrev Digest := BitVec 128

/-- A response word: `RSPW = 72` (R12, R91). -/
abbrev RspWord := BitVec 72

end Sys2Proof
end

