-- ==== Sys2Proof/Config.lean ====
section
/-! DEFINITION. What an implementation of LCB fixes: the two open parameters of `92_eei_decisions.md` (D4, D5) and
the constants that `00_scope.md` rules R6 to R12 fix. -/

namespace Sys2Proof

namespace Config

/-- The two OPEN parameters of the model, named arguments with a default (`00_scope.md` R9, R10; U15). They are held
unchanged in `State.cfg`, because the host's type of `step` leaves them no other place (DESIGN CHOICE, log entry 1). -/
structure Params where
  /-- `NBANK`: the number of bitmap banks (R9). -/
  nbank : Nat
  /-- `MAXBITS`: the capacity of one bank in bits (R10). -/
  maxBits : Nat
deriving DecidableEq, Repr

/-- `GRAN`: the granule of bitmap length in bits (R7). -/
def gran : Nat := 8192

/-- `HSEED`: the value `HINIT` puts in every hash lane (R11). -/
def hseed : Word32 := 0

/-- The default parameters: `NBANK = 4` (R9) and `MAXBITS = 2^23` (R10). -/
def default : Params := ⟨4, 8388608⟩

/-- The ranges rules R9 and R10 give the parameters: `2 <= NBANK <= 16`, `MAXBITS` a positive multiple of `GRAN`. -/
abbrev Params.Legal (p : Params) : Prop :=
  2 ≤ p.nbank ∧ p.nbank ≤ 16 ∧ 0 < p.maxBits ∧ p.maxBits % gran = 0

end Config

end Sys2Proof
end

