-- ==== Sys2Proof/Syntax.lean ====
section
/-! DEFINITION. The command set of LCB, version 1.0 (`30_encoding.md` rules R80, R84, R92): one constructor of `Instr`
for each of the eighteen rows of `opcode_table.json`. -/

namespace Sys2Proof

/-- The number of a data register `x0..x15` (R21): every value of a register field is legal (R82). -/
abbrev RegNo := Fin 16

/-- The number in a bank field (R80): four bits, of which a command may use only values below `NBANK` (R88). -/
abbrev BankNo := Fin 16

/-- The number of bytes an `HPUT` feeds: 0 to 8 (R87). -/
abbrev ByteCount := Fin 9

/-- The three constructions of the block-hash unit, the values 0, 1, 2 of `HVAR` and of `HINIT`'s `n` (R29, R87, R150).
Value 3 is never taken (U12). -/
inductive Variant where
  | x86_32
  | x86_128
  | x64_128
deriving DecidableEq, Repr

/-- What `HDIG` reads, the values 0, 1, 2 of its `n` (R87, R162): the low half, the high half, or their exclusive OR. -/
inductive DigestSel where
  | lo
  | hi
  | fold
deriving DecidableEq, Repr

/-- The eighteen commands with their operands in the assembler's order, destination first (R84, R92). -/
inductive Instr where
  /-- `LDI xd, imm` (R110) -/
  | ldi (rd : RegNo) (imm : Word)
  /-- `RDR xs` (R111) -/
  | rdr (rs1 : RegNo)
  /-- `BCREATE ba, xs` (R120) -/
  | bcreate (ba : BankNo) (rs1 : RegNo)
  /-- `BGET xd, ba, xs` (R121) -/
  | bget (rd : RegNo) (ba : BankNo) (rs1 : RegNo)
  /-- `BSET ba, xs` (R122) -/
  | bset (ba : BankNo) (rs1 : RegNo)
  /-- `BPOP xd, ba` (R123) -/
  | bpop (rd : RegNo) (ba : BankNo)
  /-- `BOR ba, bb` (R124) -/
  | bor (ba bb : BankNo)
  /-- `BORW ba, xs, xt` (R125) -/
  | borw (ba : BankNo) (rs1 rs2 : RegNo)
  /-- `BRDW xd, ba, xs` (R126) -/
  | brdw (rd : RegNo) (ba : BankNo) (rs1 : RegNo)
  /-- `FMIX32 xd, xs` (R142) -/
  | fmix32 (rd rs1 : RegNo)
  /-- `FMIX64 xd, xs` (R143) -/
  | fmix64 (rd rs1 : RegNo)
  /-- `HINIT v` (R152) -/
  | hinit (v : Variant)
  /-- `HPUT xs, k` (R153) -/
  | hput (rs1 : RegNo) (k : ByteCount)
  /-- `HFIN` (R157) -/
  | hfin
  /-- `HDIG xd, sel` (R162) -/
  | hdig (rd : RegNo) (sel : DigestSel)
  /-- `BPUT ba, xs` (R180) -/
  | bput (ba : BankNo) (rs1 : RegNo)
  /-- `BCNT xd, ba` (R181) -/
  | bcnt (rd : RegNo) (ba : BankNo)
  /-- `BSIZE xd, ba` (R182) -/
  | bsize (rd : RegNo) (ba : BankNo)
deriving DecidableEq, Repr

/-- The eighteen defined opcodes (R84). -/
inductive Opcode where
  | ldi | rdr | bcreate | bget | bset | bpop | bor | borw | brdw | fmix32 | fmix64
  | hinit | hput | hfin | hdig | bput | bcnt | bsize
deriving DecidableEq, Repr

/-- The operand fields of a command word (R80), all but `op` and the reserved `zero`. -/
inductive CmdField where
  | rd | rs1 | rs2 | ba | bb | n | imm
deriving DecidableEq, Repr

/-- The data register a command writes through its field `rd`, if it has one (R21). -/
def Instr.dest : Instr → Option RegNo
  | .ldi rd _ => some rd
  | .rdr _ => none
  | .bcreate _ _ => none
  | .bget rd _ _ => some rd
  | .bset _ _ => none
  | .bpop rd _ => some rd
  | .bor _ _ => none
  | .borw _ _ _ => none
  | .brdw rd _ _ => some rd
  | .fmix32 rd _ => some rd
  | .fmix64 rd _ => some rd
  | .hinit _ => none
  | .hput _ _ => none
  | .hfin => none
  | .hdig rd _ => some rd
  | .bput _ _ => none
  | .bcnt rd _ => some rd
  | .bsize rd _ => some rd

/-- The bank a command names in its field `ba` (R84). -/
def Instr.bankA : Instr → Option BankNo
  | .ldi _ _ => none
  | .rdr _ => none
  | .bcreate ba _ => some ba
  | .bget _ ba _ => some ba
  | .bset ba _ => some ba
  | .bpop _ ba => some ba
  | .bor ba _ => some ba
  | .borw ba _ _ => some ba
  | .brdw _ ba _ => some ba
  | .fmix32 _ _ => none
  | .fmix64 _ _ => none
  | .hinit _ => none
  | .hput _ _ => none
  | .hfin => none
  | .hdig _ _ => none
  | .bput ba _ => some ba
  | .bcnt _ ba => some ba
  | .bsize _ ba => some ba

/-- The bank a command names in its field `bb`: only `BOR` has one (R27, R84). -/
def Instr.bankB : Instr → Option BankNo
  | .bor _ bb => some bb
  | .ldi _ _ => none
  | .rdr _ => none
  | .bcreate _ _ => none
  | .bget _ _ _ => none
  | .bset _ _ => none
  | .bpop _ _ => none
  | .borw _ _ _ => none
  | .brdw _ _ _ => none
  | .fmix32 _ _ => none
  | .fmix64 _ _ => none
  | .hinit _ => none
  | .hput _ _ => none
  | .hfin => none
  | .hdig _ _ => none
  | .bput _ _ => none
  | .bcnt _ _ => none
  | .bsize _ _ => none

end Sys2Proof
end

