-- ==== Sys2Proof/WellFormed.lean ====
section
/-! DEFINITION. When a command of `Syntax.lean` is legal: every bank field it uses is below `NBANK`
(`30_encoding.md` rule R88). The legal ranges of `n` (R87) and of the register fields (R82) are the operand types. -/

namespace Sys2Proof

/-- A used bank field is below `NBANK` (R88); a field the command does not use is no constraint. -/
def bankBelow (nbank : Nat) : Option BankNo → Bool
  | none => true
  | some b => decide (b.val < nbank)

/-- The command is legal in a block of `nbank` banks (R88): its bank fields `ba` and `bb` pass. -/
def Instr.wellFormed (nbank : Nat) (i : Instr) : Bool :=
  bankBelow nbank i.bankA && bankBelow nbank i.bankB

end Sys2Proof
end

