-- ==== Sys2Proof/Decode.lean ====
section
/-! DEFINITION. The command word: its fields, the opcode map, the decoder and the encoder
(`30_encoding.md` rules R80 to R90; byte order R54, R81). -/

namespace Sys2Proof

/-! ### The fields of a command word (R80) -/

/-- Field `op`, bits 7:0. -/
def opOf (c : Cmd) : BitVec 8 := c.extractLsb' 0 8
/-- Field `rd`, bits 11:8. -/
def rdOf (c : Cmd) : BitVec 4 := c.extractLsb' 8 4
/-- Field `rs1`, bits 15:12. -/
def rs1Of (c : Cmd) : BitVec 4 := c.extractLsb' 12 4
/-- Field `rs2`, bits 19:16. -/
def rs2Of (c : Cmd) : BitVec 4 := c.extractLsb' 16 4
/-- Field `ba`, bits 23:20. -/
def baOf (c : Cmd) : BitVec 4 := c.extractLsb' 20 4
/-- Field `bb`, bits 27:24. -/
def bbOf (c : Cmd) : BitVec 4 := c.extractLsb' 24 4
/-- Field `n`, bits 31:28. -/
def nOf (c : Cmd) : BitVec 4 := c.extractLsb' 28 4
/-- The reserved field `zero`, bits 63:32. -/
def zeroOf (c : Cmd) : BitVec 32 := c.extractLsb' 32 32
/-- Field `imm`, bits 127:64, an unsigned 64-bit value with no extension (R82). -/
def immOf (c : Cmd) : Word := c.extractLsb' 64 64

/-- Whether an operand field of the word holds 0. -/
def fieldIsZero (c : Cmd) : CmdField → Bool
  | .rd => rdOf c == 0
  | .rs1 => rs1Of c == 0
  | .rs2 => rs2Of c == 0
  | .ba => baOf c == 0
  | .bb => bbOf c == 0
  | .n => nOf c == 0
  | .imm => immOf c == 0

/-- Every operand field (R80). -/
def operandFields : List CmdField := [.rd, .rs1, .rs2, .ba, .bb, .n, .imm]

/-! ### The opcode map (R84) and the match/mask form (R85) -/

/-- The value of `op` (R84). -/
def Opcode.code : Opcode → BitVec 8
  | .ldi => 0x01
  | .rdr => 0x02
  | .bcreate => 0x10
  | .bget => 0x11
  | .bset => 0x12
  | .bpop => 0x13
  | .bor => 0x14
  | .borw => 0x15
  | .brdw => 0x16
  | .fmix32 => 0x20
  | .fmix64 => 0x21
  | .hinit => 0x30
  | .hput => 0x31
  | .hfin => 0x32
  | .hdig => 0x33
  | .bput => 0x40
  | .bcnt => 0x41
  | .bsize => 0x42

/-- Every defined opcode, in the order of the table of R84. -/
def allOpcodes : List Opcode :=
  [.ldi, .rdr, .bcreate, .bget, .bset, .bpop, .bor, .borw, .brdw, .fmix32, .fmix64,
   .hinit, .hput, .hfin, .hdig, .bput, .bcnt, .bsize]

/-- Look up an `op` value in the table of R84; the other 238 values are reserved (R86). -/
def Opcode.ofCode (v : BitVec 8) : Option Opcode := allOpcodes.find? (fun o => o.code == v)

/-- The column "fields used" of the table of R84. -/
def Opcode.uses : Opcode → List CmdField
  | .ldi => [.rd, .imm]
  | .rdr => [.rs1]
  | .bcreate => [.ba, .rs1]
  | .bget => [.rd, .ba, .rs1]
  | .bset => [.ba, .rs1]
  | .bpop => [.rd, .ba]
  | .bor => [.ba, .bb]
  | .borw => [.ba, .rs1, .rs2]
  | .brdw => [.rd, .ba, .rs1]
  | .fmix32 => [.rd, .rs1]
  | .fmix64 => [.rd, .rs1]
  | .hinit => [.n]
  | .hput => [.rs1, .n]
  | .hfin => []
  | .hdig => [.rd, .n]
  | .bput => [.ba, .rs1]
  | .bcnt => [.rd, .ba]
  | .bsize => [.rd, .ba]

/-- The mask column of the table of R85, letter for letter. The decoder does not use it: it is the spec's second account
of which words select an opcode, and a statement compares the two. -/
def Opcode.mask : Opcode → Cmd
  | .ldi => 0x0000000000000000fffffffffffff0ff
  | .rdr => 0xffffffffffffffffffffffffffff0fff
  | .bcreate => 0xffffffffffffffffffffffffff0f0fff
  | .bget => 0xffffffffffffffffffffffffff0f00ff
  | .bset => 0xffffffffffffffffffffffffff0f0fff
  | .bpop => 0xffffffffffffffffffffffffff0ff0ff
  | .bor => 0xfffffffffffffffffffffffff00fffff
  | .borw => 0xffffffffffffffffffffffffff000fff
  | .brdw => 0xffffffffffffffffffffffffff0f00ff
  | .fmix32 => 0xffffffffffffffffffffffffffff00ff
  | .fmix64 => 0xffffffffffffffffffffffffffff00ff
  | .hinit => 0xffffffffffffffffffffffff0fffffff
  | .hput => 0xffffffffffffffffffffffff0fff0fff
  | .hfin => 0xffffffffffffffffffffffffffffffff
  | .hdig => 0xffffffffffffffffffffffff0ffff0ff
  | .bput => 0xffffffffffffffffffffffffff0f0fff
  | .bcnt => 0xffffffffffffffffffffffffff0ff0ff
  | .bsize => 0xffffffffffffffffffffffffff0ff0ff

/-- The match column of the table of R85: the opcode value in `op` and 0 elsewhere. -/
def Opcode.matchWord (o : Opcode) : Cmd := o.code.setWidth 128

/-! ### The small number `n` (R87) -/

/-- The variant `HINIT` names: 0, 1 or 2; 3 to 15 are illegal (R87). -/
def variantOfN (n : BitVec 4) : Option Variant :=
  match n.toNat with
  | 0 => some .x86_32
  | 1 => some .x86_128
  | 2 => some .x64_128
  | _ => none

/-- The byte count of `HPUT`: 0 to 8; 9 to 15 are illegal (R87). -/
def countOfN (n : BitVec 4) : Option ByteCount :=
  if h : n.toNat < 9 then some ⟨n.toNat, h⟩ else none

/-- The selector of `HDIG`: 0, 1 or 2; 3 to 15 are illegal (R87). -/
def selOfN (n : BitVec 4) : Option DigestSel :=
  match n.toNat with
  | 0 => some .lo
  | 1 => some .hi
  | 2 => some .fold
  | _ => none

/-- The value of `n` that names a variant (R29, R92). -/
def Variant.code : Variant → BitVec 4
  | .x86_32 => 0
  | .x86_128 => 1
  | .x64_128 => 2

/-- The value of `n` that names a digest selector (R92, R162). -/
def DigestSel.code : DigestSel → BitVec 4
  | .lo => 0
  | .hi => 1
  | .fold => 2

/-! ### The decoder (R86, R89) -/

/-- Why a command word is illegal, or why bytes are no command word. All but the last are the cases (a) to (e) of R86,
and all of them raise the one error `IllegalCommand`. -/
inductive DecodeError where
  /-- Bits 63:32 are not all zero (R86 b). -/
  | reservedBits
  /-- `op` is not one of the eighteen values of R84 (R86 a). -/
  | unknownOpcode (op : BitVec 8)
  /-- A field the opcode does not use is not zero (R86 c). -/
  | unusedField
  /-- `n` is outside the opcode's range (R86 d). -/
  | nOutOfRange
  /-- A used bank field holds `NBANK` or more (R86 e). -/
  | bankOutOfRange
  /-- The bytes are not exactly the sixteen of one command word (R80, R81, R90). -/
  | notSixteenBytes
deriving DecidableEq, Repr

/-- A four-bit field as a register or bank number; the fields are used as they stand (R82). -/
def numOf (f : BitVec 4) : Fin 16 := ⟨f.toNat, f.isLt⟩

/-- The command an opcode selects with the word's fields as operands; none where `n` is out of range (R82, R87, R89). -/
def assembleOperands (c : Cmd) : Opcode → Option Instr
  | .ldi => some (.ldi (numOf (rdOf c)) (immOf c))
  | .rdr => some (.rdr (numOf (rs1Of c)))
  | .bcreate => some (.bcreate (numOf (baOf c)) (numOf (rs1Of c)))
  | .bget => some (.bget (numOf (rdOf c)) (numOf (baOf c)) (numOf (rs1Of c)))
  | .bset => some (.bset (numOf (baOf c)) (numOf (rs1Of c)))
  | .bpop => some (.bpop (numOf (rdOf c)) (numOf (baOf c)))
  | .bor => some (.bor (numOf (baOf c)) (numOf (bbOf c)))
  | .borw => some (.borw (numOf (baOf c)) (numOf (rs1Of c)) (numOf (rs2Of c)))
  | .brdw => some (.brdw (numOf (rdOf c)) (numOf (baOf c)) (numOf (rs1Of c)))
  | .fmix32 => some (.fmix32 (numOf (rdOf c)) (numOf (rs1Of c)))
  | .fmix64 => some (.fmix64 (numOf (rdOf c)) (numOf (rs1Of c)))
  | .hinit => (variantOfN (nOf c)).map .hinit
  | .hput => (countOfN (nOf c)).map (.hput (numOf (rs1Of c)))
  | .hfin => some .hfin
  | .hdig => (selOfN (nOf c)).map (.hdig (numOf (rdOf c)))
  | .bput => some (.bput (numOf (baOf c)) (numOf (rs1Of c)))
  | .bcnt => some (.bcnt (numOf (rdOf c)) (numOf (baOf c)))
  | .bsize => some (.bsize (numOf (rdOf c)) (numOf (baOf c)))

/-- The decode procedure of R89 on a command word, its five checks in the order written there. It is total and reads no
state: only the word and `NBANK`. -/
def decodeWord (nbank : Nat) (c : Cmd) : Except DecodeError Instr :=
  if zeroOf c ≠ 0 then .error .reservedBits
  else match Opcode.ofCode (opOf c) with
    | none => .error (.unknownOpcode (opOf c))
    | some o =>
      if operandFields.any (fun f => !o.uses.contains f && !fieldIsZero c f) then .error .unusedField
      else match assembleOperands c o with
        | none => .error .nOutOfRange
        | some i => if i.wellFormed nbank then .ok i else .error .bankOutOfRange

/-- The little-endian number a byte sequence carries, byte 0 least significant (R81). -/
def littleEndian : List Byte → Nat
  | [] => 0
  | b :: bs => b.toNat + 256 * littleEndian bs

/-- A command word carried as sixteen bytes: byte `k` is `C[8*k+7 : 8*k]` (R54, R81). -/
def cmdBytes (c : Cmd) : List Byte := (List.range 16).map (fun k => c.extractLsb' (8 * k) 8)

/-- The decoder on bytes: exactly sixteen bytes, little-endian, are one command word (R54, R80, R81, R90). -/
def decode (nbank : Nat) (bytes : List Byte) : Except DecodeError Instr :=
  if bytes.length = 16 then decodeWord nbank (BitVec.ofNat 128 (littleEndian bytes)) else .error .notSixteenBytes

/-- The instruction the decoder reads from a table row's word: the word laid out as sixteen bytes, in a block with the
default parameters. Bits at and above `nbits` are 0. -/
def decodeTableWord (nbits w : Nat) : Option Instr :=
  match decode Config.default.nbank (cmdBytes (BitVec.ofNat 128 (w % 2 ^ nbits))) with
  | .ok i => some i
  | .error _ => none

/-! ### The encoder (R80, R84, R92) -/

/-- A command word from its fields (R80); `zero` is 0. -/
def cmdOf (o : Opcode) (rd rs1 rs2 ba bb n : BitVec 4) (imm : Word) : Cmd :=
  imm ++ (0 : BitVec 32) ++ n ++ bb ++ ba ++ rs2 ++ rs1 ++ rd ++ o.code

/-- A register or bank number as a four-bit field. -/
def nibble (r : Fin 16) : BitVec 4 := BitVec.ofNat 4 r.val

/-- The opcode of a command (R84). -/
def Instr.opcode : Instr → Opcode
  | .ldi _ _ => .ldi
  | .rdr _ => .rdr
  | .bcreate _ _ => .bcreate
  | .bget _ _ _ => .bget
  | .bset _ _ => .bset
  | .bpop _ _ => .bpop
  | .bor _ _ => .bor
  | .borw _ _ _ => .borw
  | .brdw _ _ _ => .brdw
  | .fmix32 _ _ => .fmix32
  | .fmix64 _ _ => .fmix64
  | .hinit _ => .hinit
  | .hput _ _ => .hput
  | .hfin => .hfin
  | .hdig _ _ => .hdig
  | .bput _ _ => .bput
  | .bcnt _ _ => .bcnt
  | .bsize _ _ => .bsize

/-- The command word of a command (R80, R84, R92): each operand in its field, 0 in every other. -/
def encode : Instr → Cmd
  | .ldi rd imm => cmdOf .ldi (nibble rd) 0 0 0 0 0 imm
  | .rdr rs1 => cmdOf .rdr 0 (nibble rs1) 0 0 0 0 0
  | .bcreate ba rs1 => cmdOf .bcreate 0 (nibble rs1) 0 (nibble ba) 0 0 0
  | .bget rd ba rs1 => cmdOf .bget (nibble rd) (nibble rs1) 0 (nibble ba) 0 0 0
  | .bset ba rs1 => cmdOf .bset 0 (nibble rs1) 0 (nibble ba) 0 0 0
  | .bpop rd ba => cmdOf .bpop (nibble rd) 0 0 (nibble ba) 0 0 0
  | .bor ba bb => cmdOf .bor 0 0 0 (nibble ba) (nibble bb) 0 0
  | .borw ba rs1 rs2 => cmdOf .borw 0 (nibble rs1) (nibble rs2) (nibble ba) 0 0 0
  | .brdw rd ba rs1 => cmdOf .brdw (nibble rd) (nibble rs1) 0 (nibble ba) 0 0 0
  | .fmix32 rd rs1 => cmdOf .fmix32 (nibble rd) (nibble rs1) 0 0 0 0 0
  | .fmix64 rd rs1 => cmdOf .fmix64 (nibble rd) (nibble rs1) 0 0 0 0 0
  | .hinit v => cmdOf .hinit 0 0 0 0 0 v.code 0
  | .hput rs1 k => cmdOf .hput 0 (nibble rs1) 0 0 0 (BitVec.ofNat 4 k.val) 0
  | .hfin => cmdOf .hfin 0 0 0 0 0 0 0
  | .hdig rd sel => cmdOf .hdig (nibble rd) 0 0 0 0 sel.code 0
  | .bput ba rs1 => cmdOf .bput 0 (nibble rs1) 0 (nibble ba) 0 0 0
  | .bcnt rd ba => cmdOf .bcnt (nibble rd) 0 0 (nibble ba) 0 0 0
  | .bsize rd ba => cmdOf .bsize (nibble rd) 0 0 (nibble ba) 0 0 0

/-- A command as the sixteen bytes the host's link carries (R81). -/
def encodeBytes (i : Instr) : List Byte := cmdBytes (encode i)

end Sys2Proof
end

