-- ==== Sys2Proof/Machine/State.lean ====
section
/-! DEFINITION. The architectural state of LCB (`10_state.md` rule R20), the two channels of its interface
(`30_encoding.md` R94, R95, R97), and the state after reset (R36, R240, R241). Plain data throughout. -/

namespace Sys2Proof.Machine

/-- The eight errors of the table of `60_exceptions.md` R201. -/
inductive LcbError where
  /-- 0x01 (R202): raised by `BCREATE`. -/
  | sizeError
  /-- 0x02 (R203): raised by `BOR`. -/
  | sizeMismatchError
  /-- 0x03 (R204): for host software; no command raises it. -/
  | emptyInputError
  /-- 0x10 (R205): raised by a word that is no legal command. -/
  | illegalCommand
  /-- 0x11 (R206): raised by every bitmap and counter command but `BCREATE`. -/
  | bankInvalid
  /-- 0x12 (R207): raised by `BGET`, `BSET`, `BORW`, `BRDW`. -/
  | rangeError
  /-- 0x13 (R208): raised by `HPUT`, `HFIN`, `HDIG`. -/
  | hashStateError
  /-- 0x14 (R209): raised by `BCREATE`. -/
  | capacityError
deriving DecidableEq, Repr

/-- The status of a response: `OK`, or the error the command raised (R91, R200, R201). -/
inductive Status where
  | ok
  | error (e : LcbError)
deriving DecidableEq, Repr

/-- A response: a status and 64 bits of data (R91). `Response.word` in `Ops.lean` gives its 72 bits. -/
structure Response where
  status : Status
  data : Word
deriving DecidableEq, Repr

/-- The bits of a bitmap: its dump image (R52) as the list of its non-zero bytes, each with its byte offset, the offsets
strictly rising (`Memory.wf` in `Memory.lean`). An unlisted byte reads as `Memory.unlisted`. -/
abbrev Memory := List Host.Cell

/-- One bank: `BLEN` (R24), `SCNT` (R25) and the bit storage `BM` (R26). `BLEN = 0` means the bank is invalid. -/
structure Bank where
  blen : Word
  scnt : Word
  bm : Memory
deriving DecidableEq, Repr

/-- The status register `HST` of the hash unit (R28): its values 0, 1, 2; 3 is never taken (U12). -/
inductive HashStatus where
  | idle
  | active
  | final
deriving DecidableEq, Repr

/-- The four hash lanes `H[0..3]` (R30). -/
abbrev Lanes := Vector Word 4

/-- The residual buffer `RBUF[0..15]` (R31). -/
abbrev Residual := Vector Byte 16

/-- The registers of the block-hash unit (R28 to R33). -/
structure HashUnit where
  hst : HashStatus
  hvar : Variant
  h : Lanes
  rbuf : Residual
  rlen : Fin 16
  tlen : Word
  dg : Digest
deriving DecidableEq, Repr

/-- The state of the block. `x`, `banks` and `hash` are the tuple of R20. `cfg` is the parameters the block was built
with, which no command changes (R35; DESIGN CHOICE, log entry 1). `cmds`, `rsp` and `trace` are the interface: the command words the host
has still to present, the response held on the response channel until the host takes it, and the responses taken so far,
oldest first (R94 to R97; DESIGN CHOICE, log entry 5). -/
structure State where
  x : Vector Word 16
  banks : Vector Bank 16
  hash : HashUnit
  cfg : Config.Params
  cmds : List Cmd
  rsp : Option Response
  trace : List Response
deriving DecidableEq, Repr

/-- The faults of a step: none. Every command ends in a response (R200, R246) and no behaviour of the block is left
undefined (R86, U1 to U15), so nobody raises a fault (DEDUCED, log entry 12). -/
inductive Fault where
deriving DecidableEq, Repr

/-- The refusals of a step. -/
inductive Refusal where
  /-- Raised by an arm of `exec` for a command that has no meaning yet (safe). No arm raises it: all eighteen have one. -/
  | notModelled (mnemonic : String)
deriving DecidableEq, Repr

/-- What one step answers. -/
abbrev Result := Host.Outcome State Fault Refusal

/-- A bank that holds no bitmap (R24, R36): `BLEN = 0`, `SCNT = 0`; its cells are unspecified and not represented
(U8; DESIGN CHOICE, log entry 3). -/
def Bank.invalid : Bank := ⟨0, 0, []⟩

/-- The hash unit after reset (R36). The bytes of `RBUF` are unspecified and unobservable there; the model names 0
(DESIGN CHOICE, log entry 4). -/
def HashUnit.reset : HashUnit :=
  ⟨.idle, .x86_32, Vector.replicate 4 0, Vector.replicate 16 0, 0, 0, 0⟩

/-- The state after reset of a block built with the parameters `p` (R36, R240, R241): every data register 0, every bank
invalid, the hash unit idle; no command presented, no response waiting, none taken. -/
def State.resetWith (p : Config.Params) : State :=
  ⟨Vector.replicate 16 0, Vector.replicate 16 Bank.invalid, HashUnit.reset, p, [], none, []⟩

/-- The state after reset with the default parameters (R9, R10, R36). -/
def State.reset : State := State.resetWith Config.default

end Sys2Proof.Machine
end

