-- ==== Sys2Proof/Machine/Memory.lean ====
section
/-! DEFINITION. The bit storage of a bank (`20_memory.md` rules R50 to R52, R56; `10_state.md` R26): bytes, bits, 64-bit
words, the bulk OR and the population count, all over one canonical list of the non-zero bytes of the dump image. -/

namespace Sys2Proof.Machine

/-- What a byte that the list does not name reads as: 0, which is what `BCREATE` writes to every cell it exposes
(R120; DESIGN CHOICE, log entry 3). -/
def Memory.unlisted : Byte := 0

/-- The byte `D[a]` of the dump image (R52). -/
def Memory.read : Memory → Nat → Byte
  | [], _ => Memory.unlisted
  | (b, w) :: m, a => if a = b then w else Memory.read m a

/-- Write the byte `D[a]`, keeping the offsets rising and listing no byte that an unlisted offset reads as. -/
def Memory.write : Memory → Nat → Byte → Memory
  | [], a, v => if v = Memory.unlisted then [] else [(a, v)]
  | (b, w) :: m, a, v =>
    if a < b then
      if v = Memory.unlisted then (b, w) :: m else (a, v) :: (b, w) :: m
    else if a = b then
      if v = Memory.unlisted then m else (a, v) :: m
    else (b, w) :: Memory.write m a v

/-- The canonical form: offsets strictly rising, no byte listed that an unlisted offset reads as. -/
def Memory.wf : Memory → Bool
  | [] => true
  | (a, v) :: m => decide (v ≠ Memory.unlisted) && m.all (fun c => decide (a < c.1)) && Memory.wf m

/-- Every listed byte lies below byte offset `n`. -/
def Memory.below (m : Memory) (n : Nat) : Bool := m.all (fun c => decide (c.1 < n))

/-- `Bit(b, i)`: bit `i mod 8` of byte `i div 8` of the dump image (R26, R52). -/
def Memory.bit (m : Memory) (i : Nat) : Bool := (Memory.read m (i / 8)).getLsbD (i % 8)

/-- `Bit(b, i) <- 1` (R15, R26). -/
def Memory.setBit (m : Memory) (i : Nat) : Memory :=
  Memory.write m (i / 8) (Memory.read m (i / 8) ||| BitVec.twoPow 8 (i % 8))

/-- `Word(b, w)`: the eight bytes `D[8w..8w+7]`, little-endian (R51, R52). -/
def Memory.word (m : Memory) (w : Nat) : Word :=
  Memory.read m (8 * w + 7) ++ Memory.read m (8 * w + 6) ++ Memory.read m (8 * w + 5) ++ Memory.read m (8 * w + 4)
    ++ Memory.read m (8 * w + 3) ++ Memory.read m (8 * w + 2) ++ Memory.read m (8 * w + 1) ++ Memory.read m (8 * w)

/-- OR a byte into byte `a` of the dump image. -/
def Memory.orByte (m : Memory) (a : Nat) (v : Byte) : Memory := Memory.write m a (Memory.read m a ||| v)

/-- `Word(b, w) <- Word(b, w) | v`: byte `k` of `v` goes to `D[8w + k]` (R52, R125). -/
def Memory.orWord (m : Memory) (w : Nat) (v : Word) : Memory :=
  (List.range 8).foldl (fun m k => Memory.orByte m (8 * w + k) (v.extractLsb' (8 * k) 8)) m

/-- OR every byte of `src` that lies below byte offset `n` into `m`: the bulk OR of R124 on an image of `n` bytes. -/
def Memory.orImage (n : Nat) (m : Memory) : Memory → Memory
  | [] => m
  | (a, v) :: src => Memory.orImage n (if a < n then Memory.orByte m a v else m) src

/-- `popcount(v)`: the number of bits of `v` that are 1 (R14). -/
def popcount {w : Nat} (v : BitVec w) : Nat := (List.range w).countP (fun j => v.getLsbD j)

/-- The number of 1 bits in the bytes of the dump image below byte offset `n` (R128): the bytes not listed hold none. -/
def Memory.popImage (n : Nat) : Memory → Nat
  | [] => 0
  | (a, v) :: m => (if a < n then popcount v else 0) + Memory.popImage n m

/-- The number of cells among `0..len-1` that are 1, cell by cell: `PopBank` as R128 writes it. The machine computes the
same number by `Memory.popImage`. -/
def Memory.countBits (m : Memory) (len : Nat) : Nat := (List.range len).countP (fun i => Memory.bit m i)

/-- The dump image as the byte sequence `D[0..n-1]` (R52, R130). -/
def Memory.image (m : Memory) (n : Nat) : List Byte := (List.range n).map (Memory.read m)

/-- `MemRead(b, a, n)`: the `n`-byte little-endian number at byte offset `a` of the dump image (R15, R52). -/
def Memory.memRead (m : Memory) (a : Nat) : Nat → Nat
  | 0 => 0
  | n + 1 => (Memory.read m a).toNat + 256 * Memory.memRead m (a + 1) n

/-- `MemWrite(b, a, n, v)`: its inverse (R15, R52). -/
def Memory.memWrite (m : Memory) (a : Nat) : Nat → Nat → Memory
  | 0, _ => m
  | n + 1, v => Memory.memWrite (Memory.write m a (BitVec.ofNat 8 v)) (a + 1) n (v / 256)

end Sys2Proof.Machine
end

