-- ==== Sys2Proof/Machine/Ops.lean ====
section
/-! DEFINITION. The named operations over registers, banks and the interface, and the ONE operation that raises an error
(`60_exceptions.md` rules R200, R201, R213, R214). -/

namespace Sys2Proof.Machine

/-! ### Data registers (R15, R21) -/

/-- `x[i]`. -/
def State.reg (s : State) (r : RegNo) : Word := s.x[r]

/-- `x[i] <- v`. No register is hard-wired (R21). -/
def State.setReg (s : State) (r : RegNo) (v : Word) : State := { s with x := s.x.set r v }

/-! ### Banks (R24 to R27) -/

/-- The bank a bank field names (R82). -/
def State.bank (s : State) (b : BankNo) : Bank := s.banks[b]

/-- Replace the bank `b`; every other bank stays (R27). -/
def State.setBank (s : State) (b : BankNo) (k : Bank) : State := { s with banks := s.banks.set b k }

/-- The length of the bank's bitmap in bits (R24). -/
def Bank.bits (k : Bank) : Nat := k.blen.toNat

/-- The length of the bank's dump image in bytes, `BLEN / 8` (R52). -/
def Bank.bytes (k : Bank) : Nat := k.blen.toNat / 8

/-- A bank is valid when `BLEN` is not 0 (R24). -/
abbrev Bank.Valid (k : Bank) : Prop := k.blen ≠ 0

/-- A fresh bitmap of `len` bits, all zero, with its count 0 (R120). The old bitmap is dropped whole. -/
def Bank.create (len : Word) : Bank := ⟨len, 0, []⟩

/-- `PopBank(b)` (R128) over the whole bytes of the bitmap (DEDUCED, log entry 9); it fits 64 bits with no wrap. -/
def Bank.pop (k : Bank) : Word := BitVec.ofNat 64 (Memory.popImage k.bytes k.bm)

/-- `SCNT <- PopBank(b)` (R124, R125). -/
def Bank.recount (k : Bank) : Bank := { k with scnt := k.pop }

/-- Set cell `i` if it is 0 and count it; a cell that is 1 stays, and nothing changes (R122, R180). -/
def Bank.insert (k : Bank) (i : Nat) : Bank :=
  if Memory.bit k.bm i then k else { k with bm := Memory.setBit k.bm i, scnt := k.scnt + 1 }

/-- OR the word `v` into storage word `w`, then recount (R125). -/
def Bank.orWord (k : Bank) (w : Nat) (v : Word) : Bank :=
  Bank.recount { k with bm := Memory.orWord k.bm w v }

/-- OR the bitmap of `src` into `k`, then recount (R124). -/
def Bank.orFrom (k src : Bank) : Bank :=
  Bank.recount { k with bm := Memory.orImage k.bytes k.bm src.bm }

/-- Several bitmaps ORed into one target, one after another (R131 e, R188 step 4). -/
def Bank.orAll (k : Bank) (sources : List Bank) : Bank := sources.foldl Bank.orFrom k

/-! ### The hash unit -/

/-- Replace the hash unit's registers. -/
def State.setHash (s : State) (u : HashUnit) : State := { s with hash := u }

/-! ### The response word (R91, R201) -/

/-- The status code of an error (R201). -/
def LcbError.code : LcbError → BitVec 8
  | .sizeError => 0x01
  | .sizeMismatchError => 0x02
  | .emptyInputError => 0x03
  | .illegalCommand => 0x10
  | .bankInvalid => 0x11
  | .rangeError => 0x12
  | .hashStateError => 0x13
  | .capacityError => 0x14

/-- The status code (R201). -/
def Status.code : Status → BitVec 8
  | .ok => 0x00
  | .error e => e.code

/-- The 72 bits of a response: `status = rsp[7:0]`, `data = rsp[71:8]` (R91). -/
def Response.word (r : Response) : RspWord := r.data ++ r.status.code

/-! ### The end of a command (R15, R200, R213) -/

/-- Hold a response on the response channel: `rsp_valid = 1` until the host takes it (R91, R95 b). -/
def State.respond (s : State) (r : Response) : State := { s with rsp := some r }

/-- A command that completes with no data: response `(OK, 0)` (R15). -/
def complete (s : State) : Result := .next (s.respond ⟨.ok, 0⟩)

/-- A command that completes with data: `respond(OK, d)` (R15, R111). -/
def completeWith (d : Word) (s : State) : Result := .next (s.respond ⟨.ok, d⟩)

/-- Raising an error, the one form of exception LCB has (R200, R213): the response is `(code, 0)`, and nothing else
changes. Nothing is saved, no mode or mask changes, and control goes nowhere (R210, R213 c, d). -/
def raise (e : LcbError) (s : State) : Result := .next (s.respond ⟨.error e, 0⟩)

/-! ### The two channels (R94 to R97) -/

/-- `cmd_ready`: no response is waiting to be taken (R95 a). Between steps no command is in execution (R5). -/
def State.cmdReady (s : State) : Bool := s.rsp.isNone

/-- `rsp_valid`: a response is held (R95 b). -/
def State.rspValid (s : State) : Bool := s.rsp.isSome

/-- The host takes the waiting response, which joins the trace in command order; there is nothing else to return from
after an error (R95 c, R214). -/
def State.takeRsp (s : State) : State := { s with rsp := none, trace := s.trace ++ s.rsp.toList }

/-- The next command word the host presents and the state in which it is executed; none when the host presents nothing
(R95, R97). -/
def State.present (s : State) : Option (Cmd × State) :=
  match s.cmds with
  | [] => none
  | c :: rest => some (c, { s with cmds := rest })

/-- The event `rst` (R240): every piece of state takes its value of R36, whatever was in execution is abandoned, a waiting
response is discarded and what the host had presented is gone. It is no step of a run: it begins one (R97; DEDUCED,
log entry 14). -/
def State.assertReset (s : State) : State := State.resetWith s.cfg

/-- Put a command word at the head of what the host presents, with the response channel free: a response that was
waiting is taken first, as R95 (a) demands. -/
def State.offer (s : State) (c : Cmd) : State := { s.takeRsp with cmds := c :: s.cmds }

end Sys2Proof.Machine
end

