-- ==== Sys2Proof/Machine/Operands.lean ====
section
/-! DEFINITION. The operand forms of the commands (`30_encoding.md` R82; `20_memory.md` R50, R53, R55, R58; `10_state.md`
R21). LCB has no flags and no condition codes (R23), so there is no file of flag computations. -/

namespace Sys2Proof.Machine

/-- A register as an index, a length or a value to reduce: a plain 64-bit unsigned number, all 64 bits taking part
(R50). -/
def State.index (s : State) (r : RegNo) : Nat := (s.reg r).toNat

/-- Bits 31:0 of a register; bits 63:32 are ignored (R142). -/
def State.low32 (s : State) (r : RegNo) : Word32 := (s.reg r).setWidth 32

/-- Byte `k` of a hash chunk: `x[rs1][8*k+7 : 8*k]` (R53, R153). -/
def chunkByte (v : Word) (k : Nat) : Byte := v.extractLsb' (8 * k) 8

/-- The `n` bytes an `HPUT` feeds, least significant first (R53, R153). -/
def chunk (v : Word) (n : Nat) : List Byte := (List.range n).map (chunkByte v)

/-- Whether the requested length is zero or no multiple of `GRAN` (R120, R202). -/
def badSize (len : Nat) : Bool := len == 0 || len % Config.gran != 0

/-- `value mod BLEN`, the index reduction of the counter: a true unsigned remainder, not a mask (R180). -/
def Bank.reduce (k : Bank) (v : Nat) : Nat := v % k.bits

/-- The number of 64-bit storage words of the bitmap, `BLEN div 64` (R50, R125, R126). -/
def Bank.words (k : Bank) : Nat := k.bits / 64

/-- The size of the bitmap in KiB, `BLEN div 8192` (R182). -/
def Bank.kib (k : Bank) : Word := k.blen / 8192

/-- A one-bit result, zero-extended to 64 bits (R21, R121). -/
def bitWord (b : Bool) : Word := (BitVec.ofBool b).setWidth 64

end Sys2Proof.Machine
end

