-- ==== Sys2Proof/Machine/Bitmap.lean ====
section
/-! DEFINITION. The bitmap unit's commands `BCREATE`, `BGET`, `BSET`, `BPOP`, `BOR`, `BORW`, `BRDW` (`41_bitset.md`). The
order of the checks is R212's: the bank's validity (R127) before the command's own. -/

namespace Sys2Proof.Machine

/-- `BCREATE ba, xs`: a fresh all-zero bitmap of `x[rs1]` bits; `SizeError` is tested before `CapacityError` (R120). -/
def execBcreate (ba : BankNo) (rs1 : RegNo) (s : State) : Result :=
  if badSize (s.index rs1) then raise .sizeError s
  else if s.index rs1 > s.cfg.maxBits then raise .capacityError s
  else complete (s.setBank ba (Bank.create (s.reg rs1)))

/-- `BGET xd, ba, xs`: test a bit (R121). -/
def execBget (rd : RegNo) (ba : BankNo) (rs1 : RegNo) (s : State) : Result :=
  if (s.bank ba).blen = 0 then raise .bankInvalid s
  else if s.index rs1 ≥ (s.bank ba).bits then raise .rangeError s
  else complete (s.setReg rd (bitWord (Memory.bit (s.bank ba).bm (s.index rs1))))

/-- `BSET ba, xs`: set a bit and keep the count (R122). -/
def execBset (ba : BankNo) (rs1 : RegNo) (s : State) : Result :=
  if (s.bank ba).blen = 0 then raise .bankInvalid s
  else if s.index rs1 ≥ (s.bank ba).bits then raise .rangeError s
  else complete (s.setBank ba ((s.bank ba).insert (s.index rs1)))

/-- `BPOP xd, ba`: the population count of the whole bitmap, from the cells and not from `SCNT` (R123, R128). -/
def execBpop (rd : RegNo) (ba : BankNo) (s : State) : Result :=
  if (s.bank ba).blen = 0 then raise .bankInvalid s
  else complete (s.setReg rd (s.bank ba).pop)

/-- `BOR ba, bb`: OR bank `bb` into bank `ba` of the same length and recount (R124). -/
def execBor (ba bb : BankNo) (s : State) : Result :=
  if (s.bank ba).blen = 0 ∨ (s.bank bb).blen = 0 then raise .bankInvalid s
  else if (s.bank ba).blen ≠ (s.bank bb).blen then raise .sizeMismatchError s
  else complete (s.setBank ba ((s.bank ba).orFrom (s.bank bb)))

/-- `BORW ba, xs, xt`: OR one 64-bit word into the bitmap and recount (R125). -/
def execBorw (ba : BankNo) (rs1 rs2 : RegNo) (s : State) : Result :=
  if (s.bank ba).blen = 0 then raise .bankInvalid s
  else if s.index rs1 ≥ (s.bank ba).words then raise .rangeError s
  else complete (s.setBank ba ((s.bank ba).orWord (s.index rs1) (s.reg rs2)))

/-- `BRDW xd, ba, xs`: read one 64-bit word of the bitmap (R126). -/
def execBrdw (rd : RegNo) (ba : BankNo) (rs1 : RegNo) (s : State) : Result :=
  if (s.bank ba).blen = 0 then raise .bankInvalid s
  else if s.index rs1 ≥ (s.bank ba).words then raise .rangeError s
  else complete (s.setReg rd (Memory.word (s.bank ba).bm (s.index rs1)))

end Sys2Proof.Machine
end

