-- ==== Sys2Proof/Machine/Mix.lean ====
section
/-! DEFINITION. The finalizer unit's two functions (`42_fmix.md` R140, R141) and the mixing and finalizing functions of
the block-hash unit (`43_blockhash.md` R150, R151, R154 to R161). The round constants are the spec's, which marks them as
supplied from general knowledge (UNVERIFIED, log entry 8). -/

namespace Sys2Proof.Machine

/-- `rotl_N(a, r) = ((a << r) | (a >> (N - r)))` kept to `N` bits (R14). -/
def rotl {n : Nat} (a : BitVec n) (r : Nat) : BitVec n := (a <<< r) ||| (a >>> (n - r))

/-- `h ^ (h >> s)` (R140, R141). -/
def xorShift {n : Nat} (h : BitVec n) (s : Nat) : BitVec n := h ^^^ (h >>> s)

/-- The 32-bit avalanche finalizer (R140). -/
def fmix32 (h : Word32) : Word32 :=
  let h := xorShift h 16
  let h := h * 0x85ebca6b
  let h := xorShift h 13
  let h := h * 0xc2b2ae35
  xorShift h 16

/-- The 64-bit avalanche finalizer (R141). -/
def fmix64 (k : Word) : Word :=
  let k := xorShift k 33
  let k := k * 0xff51afd7ed558ccd
  let k := xorShift k 33
  let k := k * 0xc4ceb9fe1a85ec53
  xorShift k 33

/-! ### Blocks and words (R150, R151) -/

/-- `BLK`: the bytes one mixing round consumes (R150). -/
def blk : Variant → Nat
  | .x86_32 => 4
  | .x86_128 => 16
  | .x64_128 => 16

/-- Byte `i` of a block of which `len` bytes are held; a missing byte counts as 0 (R151). -/
def heldByte (buf : Residual) (len i : Nat) : Byte := if i < len then buf[i]?.getD 0 else 0

/-- Word `k_i` of variants 0 and 1: four bytes, little-endian, full or partial (R151). -/
def blockWord32 (buf : Residual) (len i : Nat) : Word32 :=
  heldByte buf len (4 * i + 3) ++ heldByte buf len (4 * i + 2) ++ heldByte buf len (4 * i + 1) ++ heldByte buf len (4 * i)

/-- Word `k_i` of variant 2: eight bytes, little-endian, full or partial (R151). -/
def blockWord64 (buf : Residual) (len i : Nat) : Word :=
  heldByte buf len (8 * i + 7) ++ heldByte buf len (8 * i + 6) ++ heldByte buf len (8 * i + 5) ++ heldByte buf len (8 * i + 4)
    ++ heldByte buf len (8 * i + 3) ++ heldByte buf len (8 * i + 2) ++ heldByte buf len (8 * i + 1) ++ heldByte buf len (8 * i)

/-! ### Lanes (R30) -/

/-- A lane of variants 0 and 1: bits 31:0 of its register. -/
def Lanes.lane32 (h : Lanes) (i : Fin 4) : Word32 := h[i].setWidth 32

/-- The register of a 32-bit lane: the lane in bits 31:0, bits 63:32 zero (R30; DEDUCED, log entry 10). -/
def laneWord (v : Word32) : Word := v.setWidth 64

/-- All four lanes at one value each. -/
def lanesOf (a b c d : Word) : Lanes := #v[a, b, c, d]

/-! ### Variant 0, x86_32 (R154, R158) -/

/-- The word mix of variant 0 (R154). -/
def mixk0 (k : Word32) : Word32 := rotl (k * 0xcc9e2d51) 15 * 0x1b873593

/-- One mixing round of variant 0: lanes 1 to 3 are not touched (R154). -/
def round0 (h : Lanes) (k0 : Word32) : Lanes :=
  let h0 := h.lane32 0 ^^^ mixk0 k0
  let h0 := rotl h0 13
  let h0 := h0 * 5 + 0xe6546b64
  h.set 0 (laneWord h0)

/-- `Final0`: the residual bytes as one partial word, the length, the finalizer (R158). -/
def final0 (h : Lanes) (buf : Residual) (rlen : Nat) (tlen : Word) : Lanes :=
  let h0 := h.lane32 0
  let h0 := if rlen > 0 then h0 ^^^ mixk0 (blockWord32 buf rlen 0) else h0
  let h0 := h0 ^^^ tlen.setWidth 32
  h.set 0 (laneWord (fmix32 h0))

/-! ### Variant 1, x86_128 (R155, R159) -/

/-- The word mix of lane 0 of variant 1 (R155). -/
def mixk1_0 (k : Word32) : Word32 := rotl (k * 0x239b961b) 15 * 0xab0e9789
/-- The word mix of lane 1 of variant 1 (R155). -/
def mixk1_1 (k : Word32) : Word32 := rotl (k * 0xab0e9789) 16 * 0x38b34ae5
/-- The word mix of lane 2 of variant 1 (R155). -/
def mixk1_2 (k : Word32) : Word32 := rotl (k * 0x38b34ae5) 17 * 0xa1e38b93
/-- The word mix of lane 3 of variant 1 (R155). -/
def mixk1_3 (k : Word32) : Word32 := rotl (k * 0xa1e38b93) 18 * 0x239b961b

/-- One lane step of variant 1: `m` is the mixed word, `sister` the current value of the sister lane (R155). -/
def laneStep1 (h m sister : Word32) (r : Nat) (c : Word32) : Word32 := (rotl (h ^^^ m) r + sister) * 5 + c

/-- One mixing round of variant 1: four lane steps in order, each using the current value of its sister lane (R155). -/
def round1 (h : Lanes) (k0 k1 k2 k3 : Word32) : Lanes :=
  let h0 := laneStep1 (h.lane32 0) (mixk1_0 k0) (h.lane32 1) 19 0x561ccd1b
  let h1 := laneStep1 (h.lane32 1) (mixk1_1 k1) (h.lane32 2) 17 0x0bcaa747
  let h2 := laneStep1 (h.lane32 2) (mixk1_2 k2) (h.lane32 3) 15 0x96cd1c35
  let h3 := laneStep1 (h.lane32 3) (mixk1_3 k3) h0 13 0x32ac3b17
  lanesOf (laneWord h0) (laneWord h1) (laneWord h2) (laneWord h3)

/-- The cross-mix of four 32-bit lanes: lane 0 takes the sum of all, then each other lane adds lane 0 (R159). -/
def cross1 (h : Word32 × Word32 × Word32 × Word32) : Word32 × Word32 × Word32 × Word32 :=
  let h0 := h.1 + h.2.1 + h.2.2.1 + h.2.2.2
  (h0, h.2.1 + h0, h.2.2.1 + h0, h.2.2.2 + h0)

/-- `Final1`: residual bytes lane by lane, length into every lane, cross-mix, finalizer, cross-mix (R159). -/
def final1 (h : Lanes) (buf : Residual) (rlen : Nat) (tlen : Word) : Lanes :=
  let len := tlen.setWidth 32
  let h3 := if rlen > 12 then h.lane32 3 ^^^ mixk1_3 (blockWord32 buf rlen 3) else h.lane32 3
  let h2 := if rlen > 8 then h.lane32 2 ^^^ mixk1_2 (blockWord32 buf rlen 2) else h.lane32 2
  let h1 := if rlen > 4 then h.lane32 1 ^^^ mixk1_1 (blockWord32 buf rlen 1) else h.lane32 1
  let h0 := if rlen > 0 then h.lane32 0 ^^^ mixk1_0 (blockWord32 buf rlen 0) else h.lane32 0
  let a := cross1 (h0 ^^^ len, h1 ^^^ len, h2 ^^^ len, h3 ^^^ len)
  let b := cross1 (fmix32 a.1, fmix32 a.2.1, fmix32 a.2.2.1, fmix32 a.2.2.2)
  lanesOf (laneWord b.1) (laneWord b.2.1) (laneWord b.2.2.1) (laneWord b.2.2.2)

/-! ### Variant 2, x64_128 (R156, R160) -/

/-- The word mix of lane 0 of variant 2 (R156). -/
def mixk2_0 (k : Word) : Word := rotl (k * 0x87c37b91114253d5) 31 * 0x4cf5ad432745937f
/-- The word mix of lane 1 of variant 2 (R156). -/
def mixk2_1 (k : Word) : Word := rotl (k * 0x4cf5ad432745937f) 33 * 0x87c37b91114253d5

/-- One mixing round of variant 2: the second lane step uses the lane 0 the first just wrote; lanes 2 and 3 are not
touched (R156). -/
def round2 (h : Lanes) (k0 k1 : Word) : Lanes :=
  let h0 := (rotl (h[0] ^^^ mixk2_0 k0) 27 + h[1]) * 5 + 0x52dce729
  let h1 := (rotl (h[1] ^^^ mixk2_1 k1) 31 + h0) * 5 + 0x38495ab5
  (h.set 0 h0).set 1 h1

/-- The cross-mix of two 64-bit lanes (R160). -/
def cross2 (h : Word × Word) : Word × Word :=
  let h0 := h.1 + h.2
  (h0, h.2 + h0)

/-- `Final2`: residual bytes, length into both lanes, cross-mix, finalizer, cross-mix (R160). -/
def final2 (h : Lanes) (buf : Residual) (rlen : Nat) (tlen : Word) : Lanes :=
  let h1 := if rlen > 8 then h[1] ^^^ mixk2_1 (blockWord64 buf rlen 1) else h[1]
  let h0 := if rlen > 0 then h[0] ^^^ mixk2_0 (blockWord64 buf rlen 0) else h[0]
  let a := cross2 (h0 ^^^ tlen, h1 ^^^ tlen)
  let b := cross2 (fmix64 a.1, fmix64 a.2)
  (h.set 0 b.1).set 1 b.2

/-! ### The unit (R152, R153, R157, R161) -/

/-- One mixing round on the full block in `RBUF` (R151, R153). -/
def roundOf (v : Variant) (h : Lanes) (buf : Residual) : Lanes :=
  match v with
  | .x86_32 => round0 h (blockWord32 buf 4 0)
  | .x86_128 => round1 h (blockWord32 buf 16 0) (blockWord32 buf 16 1) (blockWord32 buf 16 2) (blockWord32 buf 16 3)
  | .x64_128 => round2 h (blockWord64 buf 16 0) (blockWord64 buf 16 1)

/-- `Final<HVAR>` (R157). -/
def finalOf (v : Variant) (h : Lanes) (buf : Residual) (rlen : Nat) (tlen : Word) : Lanes :=
  match v with
  | .x86_32 => final0 h buf rlen tlen
  | .x86_128 => final1 h buf rlen tlen
  | .x64_128 => final2 h buf rlen tlen

/-- The digest of the lanes (R161). -/
def digestOf (v : Variant) (h : Lanes) : Digest :=
  match v with
  | .x86_32 => (h.lane32 0).setWidth 128
  | .x86_128 => h.lane32 3 ++ h.lane32 2 ++ h.lane32 1 ++ h.lane32 0
  | .x64_128 => h[1] ++ h[0]

/-- The length of the digest as a byte string: 4 for variant 0, 16 for variants 1 and 2 (R53, R161). -/
def digestLen : Variant → Nat
  | .x86_32 => 4
  | .x86_128 => 16
  | .x64_128 => 16

/-- The digest as a byte string: `DG`, least significant byte first (R53, R161). -/
def digestBytes (v : Variant) (dg : Digest) : List Byte :=
  (List.range (digestLen v)).map (fun k => dg.extractLsb' (8 * k) 8)

/-- The unit after `HINIT v`: every lane at `HSEED`, nothing fed, status `ACTIVE` (R152). The bytes of `RBUF` stay: none
is held. -/
def HashUnit.start (u : HashUnit) (v : Variant) : HashUnit :=
  { u with hvar := v, h := Vector.replicate 4 (Config.hseed.setWidth 64), rlen := 0, tlen := 0, dg := 0, hst := .active }

/-- Feed one byte: store it at `RLEN`, count it, and run a round when the block is full (R153). `RLEN` is a four-bit
register (R31; DEDUCED, log entry 7). -/
def HashUnit.feedByte (u : HashUnit) (b : Byte) : HashUnit :=
  let buf := u.rbuf.set u.rlen b
  let tlen := u.tlen + 1
  if u.rlen.val + 1 = blk u.hvar then
    { u with rbuf := buf, tlen := tlen, h := roundOf u.hvar u.h buf, rlen := 0 }
  else
    { u with rbuf := buf, tlen := tlen, rlen := u.rlen + 1 }

/-- Feed bytes one at a time, in order (R153, R163). -/
def HashUnit.feed (u : HashUnit) : List Byte → HashUnit
  | [] => u
  | b :: bs => HashUnit.feed (HashUnit.feedByte u b) bs

/-- The unit after `HFIN`: the lanes finalized, the digest taken from them, nothing held, status `FINAL` (R157, R161). -/
def HashUnit.finish (u : HashUnit) : HashUnit :=
  let h := finalOf u.hvar u.h u.rbuf u.rlen.val u.tlen
  { u with h := h, dg := digestOf u.hvar h, rlen := 0, hst := .final }

/-- The 64 bits `HDIG` reads (R162). -/
def digestHalf (dg : Digest) : DigestSel → Word
  | .lo => dg.extractLsb' 0 64
  | .hi => dg.extractLsb' 64 64
  | .fold => dg.extractLsb' 0 64 ^^^ dg.extractLsb' 64 64

end Sys2Proof.Machine
end

