-- ==== Sys2Proof/Machine/BlockHash.lean ====
section
/-! DEFINITION. The block-hash unit's commands `HINIT`, `HPUT`, `HFIN`, `HDIG` (`43_blockhash.md`); their life cycle is
R164. -/

namespace Sys2Proof.Machine

/-- `HINIT v`: start a fresh hash computation, legal in every status (R152). -/
def execHinit (v : Variant) (s : State) : Result := complete (s.setHash (s.hash.start v))

/-- `HPUT xs, k`: feed the `k` low bytes of `x[rs1]`, least significant first (R153). -/
def execHput (rs1 : RegNo) (k : ByteCount) (s : State) : Result :=
  if s.hash.hst ≠ .active then raise .hashStateError s
  else complete (s.setHash (s.hash.feed (chunk (s.reg rs1) k.val)))

/-- `HFIN`: finalize (R157). -/
def execHfin (s : State) : Result :=
  if s.hash.hst ≠ .active then raise .hashStateError s
  else complete (s.setHash s.hash.finish)

/-- `HDIG xd, sel`: read the digest; the hash unit does not change (R162). -/
def execHdig (rd : RegNo) (sel : DigestSel) (s : State) : Result :=
  if s.hash.hst ≠ .final then raise .hashStateError s
  else complete (s.setReg rd (digestHalf s.hash.dg sel))

end Sys2Proof.Machine
end

