-- ==== Sys2Proof/Machine/Counter.lean ====
section
/-! DEFINITION. The counter commands `BPUT`, `BCNT`, `BSIZE` (`44_lpcounter_merge.md`, section 1). -/

namespace Sys2Proof.Machine

/-- `BPUT ba, xs`: insert a hash value at `x[rs1] mod BLEN`; it cannot be out of range (R180). -/
def execBput (ba : BankNo) (rs1 : RegNo) (s : State) : Result :=
  if (s.bank ba).blen = 0 then raise .bankInvalid s
  else complete (s.setBank ba ((s.bank ba).insert ((s.bank ba).reduce (s.index rs1))))

/-- `BCNT xd, ba`: read the cached count (R181). -/
def execBcnt (rd : RegNo) (ba : BankNo) (s : State) : Result :=
  if (s.bank ba).blen = 0 then raise .bankInvalid s
  else complete (s.setReg rd (s.bank ba).scnt)

/-- `BSIZE xd, ba`: the size in KiB (R182). -/
def execBsize (rd : RegNo) (ba : BankNo) (s : State) : Result :=
  if (s.bank ba).blen = 0 then raise .bankInvalid s
  else complete (s.setReg rd (s.bank ba).kib)

end Sys2Proof.Machine
end

