-- ==== Sys2Proof/Machine/DataRegs.lean ====
section
/-! DEFINITION. The data-register commands `LDI` and `RDR` (`40_data_registers.md`). -/

namespace Sys2Proof.Machine

/-- `LDI xd, imm`: `x[rd] <- imm`, all 64 bits (R110). -/
def execLdi (rd : RegNo) (imm : Word) (s : State) : Result := complete (s.setReg rd imm)

/-- `RDR xs`: `respond(OK, x[rs1])`, the only response that carries data (R91, R111). -/
def execRdr (rs1 : RegNo) (s : State) : Result := completeWith (s.reg rs1) s

end Sys2Proof.Machine
end

