-- ==== Sys2Proof/Machine/Finalizer.lean ====
section
/-! DEFINITION. The finalizer unit's commands `FMIX32` and `FMIX64` (`42_fmix.md`). -/

namespace Sys2Proof.Machine

/-- `FMIX32 xd, xs`: `x[rd] <- zext_64(fmix32(x[rs1][31:0]))` (R142). -/
def execFmix32 (rd rs1 : RegNo) (s : State) : Result :=
  complete (s.setReg rd ((fmix32 (s.low32 rs1)).setWidth 64))

/-- `FMIX64 xd, xs`: `x[rd] <- fmix64(x[rs1])` (R143). -/
def execFmix64 (rd rs1 : RegNo) (s : State) : Result := complete (s.setReg rd (fmix64 (s.reg rs1)))

end Sys2Proof.Machine
end

