-- ==== Sys2Proof/Machine/Dispatch.lean ====
section
/-! DEFINITION. Which meaning each command has: one arm per row of the opcode table (`30_encoding.md` R84). -/

namespace Sys2Proof.Machine

def exec (i : Instr) (s : State) : Host.Outcome State Fault Refusal :=
  match i with
  | .ldi rd imm => Sys2Proof.Machine.execLdi rd imm s
  | .rdr rs1 => Sys2Proof.Machine.execRdr rs1 s
  | .bcreate ba rs1 => Sys2Proof.Machine.execBcreate ba rs1 s
  | .bget rd ba rs1 => Sys2Proof.Machine.execBget rd ba rs1 s
  | .bset ba rs1 => Sys2Proof.Machine.execBset ba rs1 s
  | .bpop rd ba => Sys2Proof.Machine.execBpop rd ba s
  | .bor ba bb => Sys2Proof.Machine.execBor ba bb s
  | .borw ba rs1 rs2 => Sys2Proof.Machine.execBorw ba rs1 rs2 s
  | .brdw rd ba rs1 => Sys2Proof.Machine.execBrdw rd ba rs1 s
  | .fmix32 rd rs1 => Sys2Proof.Machine.execFmix32 rd rs1 s
  | .fmix64 rd rs1 => Sys2Proof.Machine.execFmix64 rd rs1 s
  | .hinit v => Sys2Proof.Machine.execHinit v s
  | .hput rs1 k => Sys2Proof.Machine.execHput rs1 k s
  | .hfin => Sys2Proof.Machine.execHfin s
  | .hdig rd sel => Sys2Proof.Machine.execHdig rd sel s
  | .bput ba rs1 => Sys2Proof.Machine.execBput ba rs1 s
  | .bcnt rd ba => Sys2Proof.Machine.execBcnt rd ba s
  | .bsize rd ba => Sys2Proof.Machine.execBsize rd ba s

end Sys2Proof.Machine
end

