-- ==== Sys2Proof/Machine/Step.lean ====
section
/-! DEFINITION. One step of the block and its host (`30_encoding.md` R94 to R97, `00_scope.md` R5): the host takes the
response that is waiting; otherwise it presents the next command word, which is decoded and executed to completion;
otherwise the block waits and nothing changes. -/

namespace Sys2Proof.Machine

/-- One step (DESIGN CHOICE, log entries 5 and 6). A word that is no legal command raises `IllegalCommand` (R86, R205). -/
def step (s : State) : Host.Outcome State Fault Refusal :=
  match s.rsp with
  | some _ => .next s.takeRsp
  | none =>
    match s.present with
    | none => .next s
    | some (c, s') =>
      match decodeWord s.cfg.nbank c with
      | .ok i => exec i s'
      | .error _ => raise .illegalCommand s'

/-- The state in which the next word the host presents is the command whose low `nbits` bits are `w`, the response
channel free, so that `step` executes it. -/
def State.withFetchWord (s : State) (nbits w : Nat) : State := s.offer (BitVec.ofNat 128 (w % 2 ^ nbits))

end Sys2Proof.Machine
end

