-- ==== Sys2Proof/Machine/Assembler.lean ====
section
/-! DEFINITION. The assembler syntax and the four pseudo-instructions (`30_encoding.md` rules R92, R93). It is no part of
a step. What R92 leaves open is a DESIGN CHOICE, log entry 13: white space, digit case, leading zeros, numbers that fit no
field and numbers out of an operand's range. -/

namespace Sys2Proof.Machine

/-! ### Pseudo-instructions (R93) -/

/-- The four pseudo-instructions; the scratch register `xt` is an explicit operand. There are no others (R93). -/
inductive Pseudo where
  /-- `PUT32 ba, xt, xs` -/
  | put32 (ba : BankNo) (xt xs : RegNo)
  /-- `PUT64 ba, xt, xs` -/
  | put64 (ba : BankNo) (xt xs : RegNo)
  /-- `PUTH ba, xt` -/
  | puth (ba : BankNo) (xt : RegNo)
  /-- `MERGE ba, bb` -/
  | merge (ba bb : BankNo)
deriving DecidableEq, Repr

/-- The commands a pseudo-instruction stands for, in order (R93). -/
def Pseudo.expand : Pseudo → List Instr
  | .put32 ba xt xs => [.fmix32 xt xs, .bput ba xt]
  | .put64 ba xt xs => [.fmix64 xt xs, .bput ba xt]
  | .puth ba xt => [.hfin, .hdig xt .fold, .bput ba xt]
  | .merge ba bb => [.bor ba bb]

/-! ### Numbers and operands -/

/-- The value of a digit in base 10 or 16. -/
def digitValue (base : Nat) (c : Char) : Option Nat :=
  let v :=
    if '0'.toNat ≤ c.toNat ∧ c.toNat ≤ '9'.toNat then c.toNat - '0'.toNat
    else if 'a'.toNat ≤ c.toNat ∧ c.toNat ≤ 'f'.toNat then c.toNat - 'a'.toNat + 10
    else if 'A'.toNat ≤ c.toNat ∧ c.toNat ≤ 'F'.toNat then c.toNat - 'A'.toNat + 10
    else base
  if v < base then some v else none

/-- The number a digit string denotes, continuing from `acc`. -/
def digitsValue (base acc : Nat) : List Char → Option Nat
  | [] => some acc
  | c :: cs => (digitValue base c).bind (fun v => digitsValue base (base * acc + v) cs)

/-- An unsigned number in decimal or `0x` hexadecimal (R92). Leading zeros are accepted and `0X` is not a prefix, on which
R92 is silent (DESIGN CHOICE, log entry 13). -/
def parseNumber : List Char → Option Nat
  | [] => none
  | '0' :: 'x' :: c :: cs => digitsValue 16 0 (c :: cs)
  | cs => digitsValue 10 0 cs

/-- A decimal number below 16 after the letter `letter`: `x0..x15` or `b0..b15` (R92). Leading zeros (`x007`, `b00`) are
accepted, on which R92 is silent (DESIGN CHOICE, log entry 13). -/
def parseNumbered (letter : Char) : List Char → Option (Fin 16)
  | [] => none
  | [_] => none
  | l :: c :: cs =>
    if l = letter then
      (digitsValue 10 0 (c :: cs)).bind (fun v => if h : v < 16 then some ⟨v, h⟩ else none)
    else none

/-- A data register (R92). -/
def parseReg (cs : List Char) : Option RegNo := parseNumbered 'x' cs

/-- A bank, `b0..b15` whatever `NBANK` is (R92): a name at or above `NBANK` assembles to a word that R88 makes illegal. -/
def parseBank (cs : List Char) : Option BankNo := parseNumbered 'b' cs

/-- A number that fits the four bits of the field `n`; a larger one is refused, on which R92 is silent (DESIGN CHOICE, log
entry 13). -/
def parseNibble (cs : List Char) : Option (BitVec 4) :=
  (parseNumber cs).bind (fun v => if v < 16 then some (BitVec.ofNat 4 v) else none)

/-- The variant operand of `HINIT`, a number or one of the three names (R92). A number that fits four bits and is
outside R87's range (`HINIT 3`) is refused with its line, not assembled to an illegal word; R92 does not say which
(DESIGN CHOICE, log entry 13). -/
def parseVariant (cs : List Char) : Option Variant :=
  if cs = "X86_32".toList then some .x86_32
  else if cs = "X86_128".toList then some .x86_128
  else if cs = "X64_128".toList then some .x64_128
  else (parseNibble cs).bind variantOfN

/-- The selector operand of `HDIG`, a number or one of the three names (R92). A number that fits four bits and is
outside R87's range (`HDIG x1, 3`) is refused with its line, not assembled to an illegal word; R92 does not say which
(DESIGN CHOICE, log entry 13). -/
def parseSel (cs : List Char) : Option DigestSel :=
  if cs = "LO".toList then some .lo
  else if cs = "HI".toList then some .hi
  else if cs = "FOLD".toList then some .fold
  else (parseNibble cs).bind selOfN

/-- The byte-count operand of `HPUT` (R92). A number that fits four bits and is
outside R87's range (`HPUT x1, 9`) is refused with its line, not assembled to an illegal word; R92 does not say which
(DESIGN CHOICE, log entry 13). -/
def parseCount (cs : List Char) : Option ByteCount := (parseNibble cs).bind countOfN

/-- The immediate of `LDI`: any number of 64 bits (R82, R92); a larger one is refused (DESIGN CHOICE, log entry 13). -/
def parseImm (cs : List Char) : Option Word :=
  (parseNumber cs).bind (fun v => if v < 2 ^ 64 then some (BitVec.ofNat 64 v) else none)

/-! ### Lines -/

/-- White space between the parts of a line. -/
def isBlankChar (c : Char) : Bool := c == ' ' || c == '\t' || c == '\r' || c == '\n'

/-- Leave out white space at both ends. -/
def trimChars (cs : List Char) : List Char :=
  ((cs.dropWhile isBlankChar).reverse.dropWhile isBlankChar).reverse

/-- The operands of a line, separated by commas (R92). -/
def splitCommas : List Char → List (List Char)
  | [] => [[]]
  | c :: cs =>
    if c = ',' then [] :: splitCommas cs
    else match splitCommas cs with
      | [] => [[c]]
      | w :: ws => (c :: w) :: ws

/-- The command or the expansion that a mnemonic and its operands name (R92, R93). -/
def parseCommand (mnemonic : String) (ops : List (List Char)) : Option (List Instr) :=
  match mnemonic, ops with
  | "LDI", [d, i] => (parseReg d).bind fun rd => (parseImm i).map fun imm => [.ldi rd imm]
  | "RDR", [s] => (parseReg s).map fun rs => [.rdr rs]
  | "BCREATE", [a, s] => (parseBank a).bind fun ba => (parseReg s).map fun rs => [.bcreate ba rs]
  | "BGET", [d, a, s] =>
    (parseReg d).bind fun rd => (parseBank a).bind fun ba => (parseReg s).map fun rs => [.bget rd ba rs]
  | "BSET", [a, s] => (parseBank a).bind fun ba => (parseReg s).map fun rs => [.bset ba rs]
  | "BPOP", [d, a] => (parseReg d).bind fun rd => (parseBank a).map fun ba => [.bpop rd ba]
  | "BOR", [a, b] => (parseBank a).bind fun ba => (parseBank b).map fun bb => [.bor ba bb]
  | "BORW", [a, s, t] =>
    (parseBank a).bind fun ba => (parseReg s).bind fun rs => (parseReg t).map fun rt => [.borw ba rs rt]
  | "BRDW", [d, a, s] =>
    (parseReg d).bind fun rd => (parseBank a).bind fun ba => (parseReg s).map fun rs => [.brdw rd ba rs]
  | "FMIX32", [d, s] => (parseReg d).bind fun rd => (parseReg s).map fun rs => [.fmix32 rd rs]
  | "FMIX64", [d, s] => (parseReg d).bind fun rd => (parseReg s).map fun rs => [.fmix64 rd rs]
  | "HINIT", [v] => (parseVariant v).map fun v => [.hinit v]
  | "HPUT", [s, k] => (parseReg s).bind fun rs => (parseCount k).map fun k => [.hput rs k]
  | "HFIN", [] => some [.hfin]
  | "HDIG", [d, l] => (parseReg d).bind fun rd => (parseSel l).map fun sel => [.hdig rd sel]
  | "BPUT", [a, s] => (parseBank a).bind fun ba => (parseReg s).map fun rs => [.bput ba rs]
  | "BCNT", [d, a] => (parseReg d).bind fun rd => (parseBank a).map fun ba => [.bcnt rd ba]
  | "BSIZE", [d, a] => (parseReg d).bind fun rd => (parseBank a).map fun ba => [.bsize rd ba]
  | "PUT32", [a, t, s] =>
    (parseBank a).bind fun ba => (parseReg t).bind fun xt => (parseReg s).map fun xs => (Pseudo.put32 ba xt xs).expand
  | "PUT64", [a, t, s] =>
    (parseBank a).bind fun ba => (parseReg t).bind fun xt => (parseReg s).map fun xs => (Pseudo.put64 ba xt xs).expand
  | "PUTH", [a, t] => (parseBank a).bind fun ba => (parseReg t).map fun xt => (Pseudo.puth ba xt).expand
  | "MERGE", [a, b] => (parseBank a).bind fun ba => (parseBank b).map fun bb => (Pseudo.merge ba bb).expand
  | _, _ => none

/-- The commands of one line; text after `#` is a comment, and an empty line holds none (R92). -/
def parseLine (line : String) : Option (List Instr) :=
  let text := trimChars (line.toList.takeWhile (fun c => c != '#'))
  let mnemonic := text.takeWhile (fun c => !isBlankChar c)
  let rest := trimChars (text.dropWhile (fun c => !isBlankChar c))
  if text.isEmpty then some []
  else parseCommand (String.ofList mnemonic) (if rest.isEmpty then [] else (splitCommas rest).map trimChars)

/-- The command words of a program text, one command or pseudo-instruction a line (R92, R97). -/
def assembleText : List String → Option (List Cmd)
  | [] => some []
  | l :: ls => (parseLine l).bind fun is => (assembleText ls).map fun ws => is.map encode ++ ws

/-! ### Printing -/

/-- A register as the assembler writes it (R92). -/
def regName (r : RegNo) : String := "x" ++ toString r.val

/-- A bank as the assembler writes it (R92). -/
def bankName (b : BankNo) : String := "b" ++ toString b.val

/-- A command in the assembler's syntax, destination first (R92). -/
def asmOf : Instr → String
  | .ldi rd imm => "LDI " ++ regName rd ++ ", " ++ toString imm.toNat
  | .rdr rs1 => "RDR " ++ regName rs1
  | .bcreate ba rs1 => "BCREATE " ++ bankName ba ++ ", " ++ regName rs1
  | .bget rd ba rs1 => "BGET " ++ regName rd ++ ", " ++ bankName ba ++ ", " ++ regName rs1
  | .bset ba rs1 => "BSET " ++ bankName ba ++ ", " ++ regName rs1
  | .bpop rd ba => "BPOP " ++ regName rd ++ ", " ++ bankName ba
  | .bor ba bb => "BOR " ++ bankName ba ++ ", " ++ bankName bb
  | .borw ba rs1 rs2 => "BORW " ++ bankName ba ++ ", " ++ regName rs1 ++ ", " ++ regName rs2
  | .brdw rd ba rs1 => "BRDW " ++ regName rd ++ ", " ++ bankName ba ++ ", " ++ regName rs1
  | .fmix32 rd rs1 => "FMIX32 " ++ regName rd ++ ", " ++ regName rs1
  | .fmix64 rd rs1 => "FMIX64 " ++ regName rd ++ ", " ++ regName rs1
  | .hinit v => "HINIT " ++ toString v.code.toNat
  | .hput rs1 k => "HPUT " ++ regName rs1 ++ ", " ++ toString k.val
  | .hfin => "HFIN"
  | .hdig rd sel => "HDIG " ++ regName rd ++ ", " ++ toString sel.code.toNat
  | .bput ba rs1 => "BPUT " ++ bankName ba ++ ", " ++ regName rs1
  | .bcnt rd ba => "BCNT " ++ regName rd ++ ", " ++ bankName ba
  | .bsize rd ba => "BSIZE " ++ regName rd ++ ", " ++ bankName ba

end Sys2Proof.Machine
end

