-- ==== Sys2Proof/Machine/HostSide.lean ====
section
/-! DEFINITION. The host's side: a session with the block, in which the host issues commands one at a time and may look at
each response before it goes on (`30_encoding.md` R95, R96), and the counter contracts as such sessions (`41_bitset.md`
R129, R130; `44_lpcounter_merge.md` R183 to R192), with the estimator the host evaluates (R186). These are no commands and
no state of the block (`00_scope.md` R4): nothing in `step` uses them (DESIGN CHOICE, log entries 11, 15 and 16). -/

namespace Sys2Proof.Machine

/-! ### Sessions (R95, R96, R213, R214) -/

/-- What a host does with the block: it ends with an answer of its own, or issues a command and goes on as the response
says (R96). -/
inductive Session (α : Type) where
  /-- The host is done, with the answer `a`. -/
  | done (a : α)
  /-- The host issues the command `i`, takes its response and goes on. -/
  | issue (i : Instr) (next : Response → Session α)

/-- One transaction: the command's word is presented and executed, and its response taken (R95 a to c). None only where
the step answers no response, which no command does (R91). -/
def State.answer (s : State) (i : Instr) : Option (Response × State) :=
  match step (s.offer (encode i)) with
  | .next t => t.rsp.map (fun r => (r, t.takeRsp))
  | .fault _ => none
  | .refused _ => none

/-- Run a session: the host's answer, and the state of the block afterwards. -/
def Session.run {α : Type} : Session α → State → Option (α × State)
  | .done a, s => some (a, s)
  | .issue i next, s => (s.answer i).bind (fun p => Session.run (next p.1) p.2)

/-- One session, then another that its answer selects. -/
def Session.bind {α β : Type} : Session α → (α → Session β) → Session β
  | .done a, f => f a
  | .issue i next, f => .issue i (fun r => Session.bind (next r) f)

/-- A counter operation: it answers a value or one of the errors of the numbering of R201 (R204). -/
abbrev HostOp (α : Type) := Session (Except LcbError α)

/-- The operation succeeds with `a` and issues nothing more. -/
def HostOp.ok {α : Type} (a : α) : HostOp α := .done (.ok a)

/-- The operation fails with `e` and issues nothing more. -/
def HostOp.fail {α : Type} (e : LcbError) : HostOp α := .done (.error e)

/-- Go on after success; an error ends the whole operation (R184; DESIGN CHOICE for the other operations, log
entry 16). -/
def HostOp.andThen {α β : Type} (p : HostOp α) (f : α → HostOp β) : HostOp β :=
  Session.bind p (fun a =>
    match a with
    | .ok a => f a
    | .error e => HostOp.fail e)

/-- What a response tells the host: its data, or the error its status names (R91, R201). -/
def Response.result (r : Response) : Except LcbError Word :=
  match r.status with
  | .ok => .ok r.data
  | .error e => .error e

/-- Issue one command and look at its response. -/
def send (i : Instr) : HostOp Word := .issue i (fun r => .done r.result)

/-- Issue commands in order, up to the first error. -/
def sendAll : List Instr → HostOp Unit
  | [] => HostOp.ok ()
  | i :: is => HostOp.andThen (send i) (fun _ => sendAll is)

/-! ### Create and size (R183, R187) -/

/-- Load a length in bits and issue `BCREATE` (R120, R183). A length of 2^64 bits or more fits no register, so the host
reports the error itself and issues nothing: the length is above every capacity `BLEN` can express (R24; DEDUCED, log
entry 15), and `SizeError` is tested first (R209). -/
def createBits (ba : BankNo) (xl : RegNo) (bits : Nat) : HostOp Unit :=
  if bits < 2 ^ 64 then sendAll [.ldi xl (BitVec.ofNat 64 bits), .bcreate ba xl]
  else HostOp.fail (if badSize bits then .sizeError else .capacityError)

/-- `create` with a capacity in KiB: `L = 8192 * kilobytes` (R183). -/
def create (ba : BankNo) (xl : RegNo) (kilobytes : Nat) : HostOp Unit := createBits ba xl (8192 * kilobytes)

/-- `size()`: `BSIZE`, then `RDR` (R187). -/
def size (ba : BankNo) (xd : RegNo) : HostOp Nat :=
  HostOp.andThen (send (.bsize xd ba)) fun _ =>
  HostOp.andThen (send (.rdr xd)) fun kib => HostOp.ok kib.toNat

/-! ### Restore and dump (R129, R130, R184, R187) -/

/-- The storage words of a byte buffer, little-endian (R129). -/
def wordsOfBytes : List Byte → List Word
  | a :: b :: c :: d :: e :: f :: g :: h :: rest =>
    BitVec.ofNat 64 (littleEndian [a, b, c, d, e, f, g, h]) :: wordsOfBytes rest
  | [] => []
  | rest => [BitVec.ofNat 64 (littleEndian rest)]

/-- The bytes of storage words: each word as eight bytes, least significant first, word `w` at offset `8 * w` (R130). -/
def bytesOfWords : List Word → List Byte
  | [] => []
  | v :: vs => chunk v 8 ++ bytesOfWords vs

/-- Import the words of a dump from word index `w` on; words that are zero are skipped (R129). -/
def importCmds (ba : BankNo) (xw xd : RegNo) (w : Nat) : List Word → List Instr
  | [] => []
  | v :: vs =>
    (if v = 0 then [] else [.ldi xw (BitVec.ofNat 64 w), .ldi xd v, .borw ba xw xd]) ++ importCmds ba xw xd (w + 1) vs

/-- `fromBytes` / `restore`: `BCREATE` with `8 * len` bits, then one `BORW` for each word that is not zero. If the
`BCREATE` fails the host does not go on to the `BORW`s (R129, R184). -/
def restore (ba : BankNo) (xw xd : RegNo) (buffer : List Byte) : HostOp Unit :=
  HostOp.andThen (createBits ba xw (8 * buffer.length)) fun _ => sendAll (importCmds ba xw xd 0 (wordsOfBytes buffer))

/-- Read one storage word: its index into `xw`, `BRDW`, `RDR` (R130). -/
def readWord (ba : BankNo) (xw xd : RegNo) (w : Nat) : HostOp Word :=
  HostOp.andThen (sendAll [.ldi xw (BitVec.ofNat 64 w), .brdw xd ba xw]) fun _ => send (.rdr xd)

/-- Read `n` storage words in order, from index `w` on (R130). -/
def readWords (ba : BankNo) (xw xd : RegNo) (w : Nat) : Nat → HostOp (List Word)
  | 0 => HostOp.ok []
  | n + 1 =>
    HostOp.andThen (readWord ba xw xd w) fun v =>
    HostOp.andThen (readWords ba xw xd (w + 1) n) fun vs => HostOp.ok (v :: vs)

/-- `asBytes` / `dump()`: the host learns `BLEN = 8192 * size` from `BSIZE`, reads the `BLEN / 64` storage words and writes
each as eight bytes (R130, R187). -/
def dump (ba : BankNo) (xw xd : RegNo) : HostOp (List Byte) :=
  HostOp.andThen (size ba xd) fun kib =>
  HostOp.andThen (readWords ba xw xd 0 (8192 * kib / 64)) fun ws => HostOp.ok (bytesOfWords ws)

/-! ### Put (R185) -/

/-- `put` of a 32-bit integer (R185 a). -/
def putInt32Cmds (ba : BankNo) (xt xs : RegNo) (v : Word32) : List Instr :=
  .ldi xs (v.setWidth 64) :: (Pseudo.put32 ba xt xs).expand

/-- `put` of a 64-bit integer (R185 a). -/
def putInt64Cmds (ba : BankNo) (xt xs : RegNo) (v : Word) : List Instr :=
  .ldi xs v :: (Pseudo.put64 ba xt xs).expand

/-- Feed a byte sequence in chunks of at most eight bytes, first byte in bits 7:0 (R153, R185 b). -/
def feedCmds (xs : RegNo) : List Byte → List Instr
  | a :: b :: c :: d :: e :: f :: g :: h :: rest =>
    [.ldi xs (BitVec.ofNat 64 (littleEndian [a, b, c, d, e, f, g, h])), .hput xs 8] ++ feedCmds xs rest
  | [] => []
  | rest => [.ldi xs (BitVec.ofNat 64 (littleEndian rest)), .hput xs (Fin.ofNat 9 rest.length)]

/-- `put` of a byte sequence: variant 2, the bytes as they are stored, then `PUTH` (R185 b). -/
def putBytesCmds (ba : BankNo) (xt xs : RegNo) (bytes : List Byte) : List Instr :=
  .hinit .x64_128 :: feedCmds xs bytes ++ (Pseudo.puth ba xt).expand

/-- `put` of a value whose 64-bit hash the host supplies, as for a universally-unique identifier (R185 c). -/
def putHashCmds (ba : BankNo) (xs : RegNo) (hash : Word) : List Instr := [.ldi xs hash, .bput ba xs]

/-! ### Merge (R188, R189) -/

/-- The host's check before a merge: `EmptyInputError` for no input (R204), `SizeMismatchError` for two sizes that
differ. -/
def mergeCheck : List Nat → Except LcbError Nat
  | [] => .error .emptyInputError
  | size :: sizes => if sizes.all (fun n => n == size) then .ok size else .error .sizeMismatchError

/-- The size of every bank of a list, by `BSIZE` and `RDR` (R188 step 2). -/
def sizes (xd : RegNo) : List BankNo → HostOp (List Nat)
  | [] => HostOp.ok []
  | b :: bs =>
    HostOp.andThen (size b xd) fun k =>
    HostOp.andThen (sizes xd bs) fun ks => HostOp.ok (k :: ks)

/-- Read the size of every bank and go on with the one size they share; for no bank, or two sizes that differ, the
operation fails, having issued no command that writes a bank (R188 steps 1 and 2). -/
def withSharedSize (xd : RegNo) (banks : List BankNo) (go : Nat → HostOp Unit) : HostOp Unit :=
  HostOp.andThen (sizes xd banks) fun ks =>
    match mergeCheck ks with
    | .ok kib => go kib
    | .error e => HostOp.fail e

/-- One `BOR` for each source: the target is written, the sources only read (R188 step 4, R189). -/
def unionCmds (target : BankNo) (sources : List BankNo) : List Instr := sources.map (.bor target)

/-- `merge`: the checks, then `BCREATE` of the free bank `target` with the length of the first source, then the `BOR`s
(R188). That the bank is free, so no source, is the argument `_free`. `xd` holds each size as it is read, and then the
length. -/
def merge (target : BankNo) (xd : RegNo) (sources : List BankNo) (_free : target ∉ sources) : HostOp Unit :=
  withSharedSize xd sources fun kib =>
  HostOp.andThen (create target xd kib) fun _ => sendAll (unionCmds target sources)

/-- `mergeInto`: the same checks, the target's size among those compared, then the `BOR`s (R189). With no source it
issues nothing and reports `EmptyInputError` (R188 step 1). -/
def mergeInto (target : BankNo) (xd : RegNo) (sources : List BankNo) : HostOp Unit :=
  if sources = [] then HostOp.fail .emptyInputError
  else withSharedSize xd (target :: sources) fun _ => sendAll (unionCmds target sources)

/-! ### Saturation (R191 e) -/

/-- Make bank `ba` a bitmap of 8192 bits and OR a word of all ones into each of its 128 storage words (R191 e). -/
def saturateByWords (ba : BankNo) (xw xd : RegNo) : HostOp Unit :=
  HostOp.andThen (createBits ba xw 8192) fun _ =>
  sendAll (importCmds ba xw xd 0 (List.replicate 128 (BitVec.allOnes 64)))

/-- Make bank `ba` a bitmap of 8192 bits and set each of its bits with `BSET` (R191 e). -/
def saturateByBits (ba : BankNo) (xi : RegNo) : HostOp Unit :=
  HostOp.andThen (createBits ba xi 8192) fun _ =>
  sendAll ((List.range 8192).flatMap (fun i => [.ldi xi (BitVec.ofNat 64 i), .bset ba xi]))

/-! ### The estimator (R186, R192) -/

/-- The two numbers the estimate is computed from, read from the block: `m = 8192 * BSIZE` and `c = BCNT` (R186). -/
def estimateInputs (ba : BankNo) (xd : RegNo) : HostOp (Nat × Nat) :=
  HostOp.andThen (size ba xd) fun kib =>
  HostOp.andThen (send (.bcnt xd ba)) fun _ =>
  HostOp.andThen (send (.rdr xd)) fun c => HostOp.ok (8192 * kib, c.toNat)

/-- `e` is the host's estimate `count(m, c)` for a bitmap of `m` bits of which `c` are set: over the reals,
`floor(-m * ln((m - c) / m) + 1/2)` for `c < m`, and the fallback `m` at saturation (R186, U5, U7). -/
def IsEstimate (m c : Nat) (e : Int) : Prop :=
  (c = m ∧ e = m) ∨ (c < m ∧ e = ⌊-(m : ℝ) * Real.log (((m : ℝ) - c) / m) + 1 / 2⌋)

end Sys2Proof.Machine
end

