-- ==== Sys2Proof/Safety.lean ====
section
/-! DEFINITION. The terms the statements use: the invariants of `10_state.md` R37 and what it means for a part of the
state to be unchanged (R213, R21, R27). -/

namespace Sys2Proof.Machine

/-! ### The invariants of R37 -/

/-- I1 and I2 for one bank: the length is 0 or legal, the count of a valid bank is the number of its cells that are 1
(R24, R25, R37), and the bit storage is in canonical form with every listed byte inside the bitmap. -/
structure Bank.Ok (maxBits : Nat) (k : Bank) : Prop where
  /-- I1: 0, or a multiple of 8192 up to `MAXBITS`. -/
  length : k.blen = 0 ∨ (k.bits % 8192 = 0 ∧ 8192 ≤ k.bits ∧ k.bits ≤ maxBits)
  /-- I2: `SCNT` is the population count, cell by cell. -/
  count : k.scnt.toNat = Memory.countBits k.bm k.bits
  /-- The storage is canonical. -/
  canonical : Memory.wf k.bm = true
  /-- Nothing is listed at or above `BLEN`. -/
  inside : Memory.below k.bm k.bytes = true

/-- I4 to I6 for the hash unit (R30, R31, R37). I3 holds by the types of `hst` and `hvar`. -/
structure HashUnit.Ok (u : HashUnit) : Prop where
  /-- I4: while `ACTIVE`, fewer bytes than one block are held, as many as `TLEN` says. -/
  residual : u.hst = .active → u.rlen.val < blk u.hvar ∧ u.rlen.val = u.tlen.toNat % blk u.hvar
  /-- I5: in variants 0 and 1, bits 63:32 of every lane are 0. -/
  narrow : u.hvar ≠ .x64_128 → ∀ i : Fin 4, (u.h[i]).toNat < 2 ^ 32
  /-- I6: after `HFIN` no byte is held. -/
  drained : u.hst = .final → u.rlen = 0

/-- The invariants I1 to I6 of R37 at a command boundary, in a block whose parameters are legal (R9, R10). A slot at or
above `NBANK` is no bank of the block and is never used (R58, R88; DESIGN CHOICE, log entry 2). -/
structure State.Inv (s : State) : Prop where
  params : s.cfg.Legal
  banks : ∀ b : BankNo, (s.bank b).Ok s.cfg.maxBits
  absent : ∀ b : BankNo, s.cfg.nbank ≤ b.val → s.bank b = Bank.invalid
  hash : s.hash.Ok

/-! ### The command word -/

/-- The nine fields of a command word, `zero` being 0 (R80). -/
structure HasFields (c : Cmd) (op : BitVec 8) (rd rs1 rs2 ba bb : Fin 16) (n : Nat) (imm : Word) : Prop where
  op : opOf c = op
  rd : (rdOf c).toNat = rd.val
  rs1 : (rs1Of c).toNat = rs1.val
  rs2 : (rs2Of c).toNat = rs2.val
  ba : (baOf c).toNat = ba.val
  bb : (bbOf c).toNat = bb.val
  n : (nOf c).toNat = n
  zero : zeroOf c = 0
  imm : immOf c = imm

/-- The range of `n` an opcode admits (R87), for the opcodes that use it. -/
def NLegal (o : Opcode) (n : Nat) : Prop :=
  (o = .hinit → n ≤ 2) ∧ (o = .hput → n ≤ 8) ∧ (o = .hdig → n ≤ 2)

/-- The bank fields an opcode uses are below `NBANK` (R88). -/
def BanksLegal (nbank : Nat) (o : Opcode) (c : Cmd) : Prop :=
  (.ba ∈ o.uses → (baOf c).toNat < nbank) ∧ (.bb ∈ o.uses → (bbOf c).toNat < nbank)

/-- An illegal command word, by the cases (a) to (e) of R86. -/
def IllegalWord (nbank : Nat) (c : Cmd) : Prop :=
  (∀ o : Opcode, opOf c ≠ o.code) ∨ zeroOf c ≠ 0 ∨
    ∃ o : Opcode, opOf c = o.code ∧
      ((∃ f : CmdField, f ∉ o.uses ∧ fieldIsZero c f = false) ∨ ¬ NLegal o (nOf c).toNat ∨ ¬ BanksLegal nbank o c)

/-! ### The words of a block -/

/-- Word `i` of a block of `w`-bit words of which the first `held` bytes of `buf` are present: the little-endian number of
those of its `w / 8` bytes that are held, the missing high bytes 0 (R151). -/
def heldWord (w : Nat) (buf : Residual) (held i : Nat) : BitVec w :=
  BitVec.ofNat w (littleEndian (((buf.toList.take held).drop (w / 8 * i)).take (w / 8)))

/-! ### The hash unit's loop body -/

/-- What feeding the byte `b` makes of the hash unit: the loop body of R153. -/
structure FedByte (u : HashUnit) (b : Byte) (v : HashUnit) : Prop where
  stored : v.rbuf[u.rlen] = b
  others : ∀ i : Fin 16, i ≠ u.rlen → v.rbuf[i] = u.rbuf[i]
  counted : v.tlen = u.tlen + 1
  hst : v.hst = u.hst
  hvar : v.hvar = u.hvar
  dg : v.dg = u.dg
  full : u.rlen.val + 1 = blk u.hvar → v.rlen = 0 ∧ v.h = roundOf u.hvar u.h v.rbuf
  short : u.rlen.val + 1 < blk u.hvar → v.rlen.val = u.rlen.val + 1 ∧ v.h = u.h

/-- The bytes fed one after another (R153). -/
def FedBytes (u : HashUnit) : List Byte → HashUnit → Prop
  | [], v => v = u
  | b :: bs, v => ∃ w, FedByte u b w ∧ FedBytes w bs v

/-! ### What stays unchanged -/

/-- Every part of the tuple of R20 and the parameters are unchanged, the interface aside. -/
structure SameCore (s t : State) : Prop where
  x : t.x = s.x
  banks : t.banks = s.banks
  hash : t.hash = s.hash
  cfg : t.cfg = s.cfg

/-- A command leaves what the host has still to present, and the responses already taken, as they were (R95, R97). -/
structure SameStreams (s t : State) : Prop where
  cmds : t.cmds = s.cmds
  trace : t.trace = s.trace

/-- The frame of a command that writes only the data register `rd`: every other register, every bank, the hash unit, the
parameters and the streams are unchanged (R21). -/
structure OnlyReg (rd : RegNo) (s t : State) : Prop where
  others : ∀ r : RegNo, r ≠ rd → t.reg r = s.reg r
  banks : t.banks = s.banks
  hash : t.hash = s.hash
  cfg : t.cfg = s.cfg
  streams : SameStreams s t

/-- The frame of a command that writes only bank `b`: every data register, every other bank, the hash unit, the
parameters and the streams are unchanged (R27). -/
structure OnlyBank (b : BankNo) (s t : State) : Prop where
  x : t.x = s.x
  others : ∀ c : BankNo, c ≠ b → t.bank c = s.bank c
  hash : t.hash = s.hash
  cfg : t.cfg = s.cfg
  streams : SameStreams s t

/-- The frame of a command that writes only the hash unit. -/
structure OnlyHash (s t : State) : Prop where
  x : t.x = s.x
  banks : t.banks = s.banks
  cfg : t.cfg = s.cfg
  streams : SameStreams s t

/-- `t` is what R213 makes of `s` when the error `e` is raised: nothing but the response `(code, 0)`. -/
structure Raised (e : LcbError) (s t : State) : Prop where
  core : SameCore s t
  streams : SameStreams s t
  rsp : t.rsp = some ⟨.error e, 0⟩

/-- The response of a command that completes with no data: `(OK, 0)` (R15, R91). -/
abbrev Completed (t : State) : Prop := t.rsp = some ⟨.ok, 0⟩

/-- The bank's bitmap holds exactly the cells that `p` picks: `Bit(b, i)` for every `i` below `BLEN` (R26). -/
def Bank.Holds (k : Bank) (p : Nat → Bool) : Prop := ∀ i, i < k.bits → Memory.bit k.bm i = p i

/-! ### The laws of the bitmap unit (R131)

Said of one bank here, and proved of the bank operations in `Laws/Bitmap.lean`; of commands, steps and host sessions they
are `BitsAndCountsOnlyGrow` (a), `BcntAndBpopAgree` (b), `RestoreOfADumpIsACopy` (c), `BorUnitesTheBitmaps` (d), and
`WritesAreIdempotent` with `BorOrderDoesNotMatter` (e). -/

/-- Monotonicity: no cell that is 1 in `k` is 0 in `k'` (R131 a). -/
def Bank.KeepsBits (k k' : Bank) : Prop := ∀ i, Memory.bit k.bm i = true → Memory.bit k'.bm i = true

/-- The count invariant: `SCNT`, which `BCNT` reads, is what `BPOP` computes (R131 b). -/
def Bank.CountIsPop (k : Bank) : Prop := k.scnt = k.pop

/-- The round trip's result: `BLEN`, `SCNT` and every word that `BRDW` can read are equal (R131 c). -/
structure Bank.CopyOf (k src : Bank) : Prop where
  blen : k.blen = src.blen
  scnt : k.scnt = src.scnt
  words : ∀ w, w < src.words → Memory.word k.bm w = Memory.word src.bm w

/-- The exact union of the index sets of two bitmaps of one length (R131 d). -/
structure Bank.IsUnionOf (k a b : Bank) : Prop where
  blen : k.blen = a.blen
  cells : k.Holds (fun i => Memory.bit a.bm i || Memory.bit b.bm i)

/-! ### Words that carry a command's opcode and are no such command -/

/-- A word with opcode `op` of which a field outside `used` is not zero, or whose `n` is above `nmax`, raises
`IllegalCommand` when it is presented (R85, R87, R205). -/
def OthersRefused (op : BitVec 8) (used : List CmdField) (nmax : Nat) : Prop :=
  ∀ (s : State) (c : Cmd) (rest : List Cmd), s.rsp = none → s.cmds = c :: rest → opOf c = op →
    ((∃ f : CmdField, f ∉ used ∧ fieldIsZero c f = false) ∨ nmax < (nOf c).toNat) →
    ∃ t, step s = .next t ∧ Raised .illegalCommand { s with cmds := rest } t

end Sys2Proof.Machine
end

