-- ==== Sys2Proof/Certificates/Slice0/Obligations.lean ====
section
/-! DEFINITION. The statements for the provers, each from the numbered rules of the spec. Where a statement needs an
invariant it names it: `Bank.Ok` and `State.Inv` are the invariants of `10_state.md` R37, which `InvariantKeptByStep`
says every step keeps. -/

open Sys2Proof Sys2Proof.Machine

/-! ### The command word -/

/-- A well-formed command's word, and its sixteen bytes, decode to the command (R80, R81, R82, R84, R89). -/
def Obligations.DecodeInvertsEncode : Prop :=
  ∀ (nbank : Nat) (i : Instr), i.wellFormed nbank = true →
    decodeWord nbank (encode i) = .ok i ∧ decode nbank (encodeBytes i) = .ok i

/-- A word that decodes is well formed and is the only word of its command: no two words mean one command (R85, R89). -/
def Obligations.EncodeInvertsDecode : Prop :=
  ∀ (nbank : Nat) (c : Cmd) (i : Instr), decodeWord nbank c = .ok i → i.wellFormed nbank = true ∧ encode i = c

/-- The match/mask form of the decoder: a word selects the opcode when `C & mask = match`, with the masks of the table of
R85, and the ranges of R87 and R88 hold. -/
def Obligations.DecodeIsTheMaskTable : Prop :=
  ∀ (nbank : Nat) (c : Cmd) (o : Opcode),
    (∃ i : Instr, decodeWord nbank c = .ok i ∧ i.opcode = o) ↔
      (c &&& o.mask = o.matchWord ∧ NLegal o (nOf c).toNat ∧ BanksLegal nbank o c)

/-- Every one of the 2^128 words either selects a command or is illegal by one of the cases (a) to (e) of R86, and an
illegal word presented to the block changes no state and answers `(0x10, 0)`. -/
def Obligations.IllegalWordsAreRefused : Prop :=
  (∀ (nbank : Nat) (c : Cmd), (∃ i, decodeWord nbank c = .ok i) ↔ ¬ IllegalWord nbank c) ∧
  ∀ (s : State) (c : Cmd) (rest : List Cmd), s.rsp = none → s.cmds = c :: rest → IllegalWord s.cfg.nbank c →
    ∃ t, step s = .next t ∧ SameCore s t ∧ t.cmds = rest ∧ t.trace = s.trace ∧
      t.rsp = some ⟨.error .illegalCommand, 0⟩ ∧ (LcbError.code .illegalCommand) = 0x10

/-- Words the spec writes out, from `30_encoding.md`, the command files and `95_test_vectors.md`, decode to the commands
they stand for, one from each family. -/
def Obligations.SpecWordsDecode : Prop :=
  decodeWord 4 0x00000000000000640000000000000201 = .ok (.ldi 2 100) ∧
  decodeWord 4 0x00000000000000000000000000102711 = .ok (.bget 7 1 2) ∧
  decodeWord 4 0x00000000000000000000000000143015 = .ok (.borw 1 3 4) ∧
  decodeWord 4 0x00000000000000000000000001200014 = .ok (.bor 2 1) ∧
  decodeWord 4 0x00000000000000000000000000002320 = .ok (.fmix32 3 2) ∧
  decodeWord 4 0x00000000000000000000000030005031 = .ok (.hput 5 3) ∧
  decodeWord 4 0x00000000000000000000000020000633 = .ok (.hdig 6 .fold) ∧
  decodeWord 4 0x00000000000000000000000000100842 = .ok (.bsize 8 1)

/-! ### The interface -/

/-- A step runs the decoded instruction: with no response waiting, when the next word presented, as a word or as its
sixteen bytes, decodes to `i`, the step is `exec i` on the state in which that word has been taken from the stream (R5,
R95; log entry 5). The word `withFetchWord` offers is the next that runs: any waiting response is taken first, and nothing
else of the state differs (the model's interface, log entry 5). -/
def Obligations.StepRunsTheDecodedCommand : Prop :=
  (∀ (s : State) (c : Cmd) (rest : List Cmd) (i : Instr), s.rsp = none → s.cmds = c :: rest →
    (decodeWord s.cfg.nbank c = .ok i ∨ decode s.cfg.nbank (cmdBytes c) = .ok i) →
    step s = exec i { s with cmds := rest }) ∧
  ∀ (s : State) (i : Instr), i.wellFormed s.cfg.nbank = true →
    step (s.withFetchWord 128 (encode i).toNat) = exec i s.takeRsp

/-- The steps that execute no command change no state: while a response waits the step only moves the response, in
order, to the responses taken; with no response waiting and nothing presented nothing changes at all (R95 a, c, d; log
entries 5 and 6: the step in which the response is taken is the model's own). -/
def Obligations.OtherStepsChangeNoState : Prop :=
  (∀ (s : State) (r : Response), s.rsp = some r →
    ∃ t, step s = .next t ∧ SameCore s t ∧ t.cmds = s.cmds ∧ t.rsp = none ∧ t.trace = s.trace ++ [r]) ∧
  ∀ s : State, s.rsp = none → s.cmds = [] → step s = .next s

/-- Every run ends: from a state with no response waiting, two steps for each command of the stream present all of them,
and exactly one response for each has been taken (R91, R95, R97, R246). -/
def Obligations.EveryRunEnds : Prop :=
  ∀ s : State, s.rsp = none →
    ∃ t, Host.Core.run Sys2Proof.core (2 * s.cmds.length) s = .next t ∧ t.cmds = [] ∧ t.rsp = none ∧
      t.trace.length = s.trace.length + s.cmds.length

/-- Every command produces exactly one response and leaves the streams and the parameters alone; only `RDR` answers data,
which is its register (R91, R95, R200). -/
def Obligations.OneResponsePerCommand : Prop :=
  ∀ (i : Instr) (s : State), ∃ (t : State) (r : Response),
    exec i s = .next t ∧ t.rsp = some r ∧ SameStreams s t ∧ t.cfg = s.cfg ∧
      (r.data = match i with | .rdr rs1 => s.reg rs1 | _ => 0)

/-- A step that answers an error has changed nothing but the stream and the response: no element of the state, and the
data is 0. The code 0x03 is never answered, and `IllegalCommand` is answered exactly for the words that R86 calls illegal,
by the word and `NBANK` alone (R205, R210, R213). -/
def Obligations.ErrorChangesNothing : Prop :=
  ∀ (s t : State) (e : LcbError) (d : Word), s.rsp = none → step s = .next t → t.rsp = some ⟨.error e, d⟩ →
    ∃ c rest, s.cmds = c :: rest ∧ Raised e { s with cmds := rest } t ∧ e ≠ .emptyInputError ∧
      (e = .illegalCommand ↔ IllegalWord s.cfg.nbank c)

/-- The response word: the status in bits 7:0 and the data in bits 71:8, with the nine codes of the table of R201, which
differ from each other (R91, R201). -/
def Obligations.ResponseWordLayout : Prop :=
  (∀ r : Response, r.word.extractLsb' 0 8 = r.status.code ∧ r.word.extractLsb' 8 64 = r.data) ∧
  [Status.ok, .error .sizeError, .error .sizeMismatchError, .error .emptyInputError, .error .illegalCommand,
    .error .bankInvalid, .error .rangeError, .error .hashStateError, .error .capacityError].map Status.code
    = [0x00, 0x01, 0x02, 0x03, 0x10, 0x11, 0x12, 0x13, 0x14] ∧
  ∀ a b : Status, a.code = b.code → a = b

/-! ### Data registers -/

/-- `LDI` writes its immediate, all 64 bits (R110). -/
def Obligations.LdiLoadsTheImmediate : Prop :=
  ∀ (rd : RegNo) (imm : Word) (s : State),
    HasFields (encode (.ldi rd imm)) 0x01 rd 0 0 0 0 0 imm ∧
    OthersRefused 0x01 [.rd, .imm] 0 ∧
    ∃ t, exec (.ldi rd imm) s = .next t ∧ t.reg rd = imm ∧ OnlyReg rd s t ∧ Completed t

/-- `RDR` answers the register and changes no state (R111). -/
def Obligations.RdrAnswersTheRegister : Prop :=
  ∀ (rs1 : RegNo) (s : State),
    HasFields (encode (.rdr rs1)) 0x02 0 rs1 0 0 0 0 0 ∧
    OthersRefused 0x02 [.rs1] 0 ∧
    ∃ t, exec (.rdr rs1) s = .next t ∧ SameCore s t ∧ SameStreams s t ∧ t.rsp = some ⟨.ok, s.reg rs1⟩

/-- No register is hard-wired: a command writes no register but the one its field `rd` names (R21). -/
def Obligations.OnlyTheDestinationIsWritten : Prop :=
  ∀ (i : Instr) (s t : State) (r : RegNo), exec i s = .next t → t.reg r ≠ s.reg r → i.dest = some r

/-! ### Bitmap unit -/

/-- `BCREATE`: `SizeError`, then `CapacityError`, else a fresh bitmap whose every cell below its length is 0 (R120). -/
def Obligations.BcreateMakesAZeroBitmap : Prop :=
  ∀ (ba : BankNo) (rs1 : RegNo) (s : State),
    HasFields (encode (.bcreate ba rs1)) 0x10 0 rs1 0 ba 0 0 0 ∧
    OthersRefused 0x10 [.ba, .rs1] 0 ∧
    (((s.reg rs1).toNat = 0 ∨ (s.reg rs1).toNat % 8192 ≠ 0) →
      ∃ t, exec (.bcreate ba rs1) s = .next t ∧ Raised .sizeError s t) ∧
    ((s.reg rs1).toNat ≠ 0 → (s.reg rs1).toNat % 8192 = 0 → s.cfg.maxBits < (s.reg rs1).toNat →
      ∃ t, exec (.bcreate ba rs1) s = .next t ∧ Raised .capacityError s t) ∧
    ((s.reg rs1).toNat ≠ 0 → (s.reg rs1).toNat % 8192 = 0 → (s.reg rs1).toNat ≤ s.cfg.maxBits →
      ∃ t, exec (.bcreate ba rs1) s = .next t ∧ (t.bank ba).blen = s.reg rs1 ∧ (t.bank ba).scnt = 0 ∧
        (t.bank ba).Holds (fun _ => false) ∧ OnlyBank ba s t ∧ Completed t)

/-- `BGET`: `BankInvalid`, then `RangeError`, else the bit at the index, zero-extended (R121). -/
def Obligations.BgetReadsTheBit : Prop :=
  ∀ (rd : RegNo) (ba : BankNo) (rs1 : RegNo) (s : State),
    HasFields (encode (.bget rd ba rs1)) 0x11 rd rs1 0 ba 0 0 0 ∧
    OthersRefused 0x11 [.rd, .ba, .rs1] 0 ∧
    ((s.bank ba).blen = 0 → ∃ t, exec (.bget rd ba rs1) s = .next t ∧ Raised .bankInvalid s t) ∧
    ((s.bank ba).blen ≠ 0 → (s.bank ba).blen.toNat ≤ (s.reg rs1).toNat →
      ∃ t, exec (.bget rd ba rs1) s = .next t ∧ Raised .rangeError s t) ∧
    ((s.reg rs1).toNat < (s.bank ba).blen.toNat →
      ∃ t, exec (.bget rd ba rs1) s = .next t ∧
        t.reg rd = (if Memory.bit (s.bank ba).bm (s.reg rs1).toNat then 1 else 0) ∧ OnlyReg rd s t ∧ Completed t)

/-- `BSET`: `BankInvalid`, then `RangeError`, else the cell at the index becomes 1 and the count goes up by one exactly
when it was 0; every other cell, and every byte but the one that holds the cell, stays (R122). The bit storage is in
canonical form, which every step keeps (`InvariantKeptByStep`). -/
def Obligations.BsetSetsAndCountsTheBit : Prop :=
  ∀ (ba : BankNo) (rs1 : RegNo) (s : State),
    HasFields (encode (.bset ba rs1)) 0x12 0 rs1 0 ba 0 0 0 ∧
    OthersRefused 0x12 [.ba, .rs1] 0 ∧
    ((s.bank ba).blen = 0 → ∃ t, exec (.bset ba rs1) s = .next t ∧ Raised .bankInvalid s t) ∧
    ((s.bank ba).blen ≠ 0 → (s.bank ba).blen.toNat ≤ (s.reg rs1).toNat →
      ∃ t, exec (.bset ba rs1) s = .next t ∧ Raised .rangeError s t) ∧
    (Memory.wf (s.bank ba).bm = true → (s.reg rs1).toNat < (s.bank ba).blen.toNat →
      ∃ t, exec (.bset ba rs1) s = .next t ∧
        (t.bank ba).blen = (s.bank ba).blen ∧
        (∀ j, Memory.bit (t.bank ba).bm j = (decide (j = (s.reg rs1).toNat) || Memory.bit (s.bank ba).bm j)) ∧
        (∀ a, a ≠ (s.reg rs1).toNat / 8 → Memory.read (t.bank ba).bm a = Memory.read (s.bank ba).bm a) ∧
        (t.bank ba).scnt = (if Memory.bit (s.bank ba).bm (s.reg rs1).toNat then (s.bank ba).scnt
          else (s.bank ba).scnt + 1) ∧
        OnlyBank ba s t ∧ Completed t)

/-- `BPOP`: `BankInvalid`, else the number of cells of the bitmap that are 1, counted cell by cell (R123, R128). -/
def Obligations.BpopCountsTheCells : Prop :=
  ∀ (rd : RegNo) (ba : BankNo) (s : State),
    HasFields (encode (.bpop rd ba)) 0x13 rd 0 0 ba 0 0 0 ∧
    OthersRefused 0x13 [.rd, .ba] 0 ∧
    ((s.bank ba).blen = 0 → ∃ t, exec (.bpop rd ba) s = .next t ∧ Raised .bankInvalid s t) ∧
    ((s.bank ba).blen ≠ 0 → (s.bank ba).Ok s.cfg.maxBits →
      ∃ t, exec (.bpop rd ba) s = .next t ∧
        (t.reg rd).toNat = Memory.countBits (s.bank ba).bm (s.bank ba).blen.toNat ∧ OnlyReg rd s t ∧ Completed t)

/-- `BOR`: `BankInvalid`, then `SizeMismatchError`, else every cell of the target is ORed with the source's, the count is
the population count of the result, and no bank but the target changes, the source included (R124). -/
def Obligations.BorUnitesTheBitmaps : Prop :=
  ∀ (ba bb : BankNo) (s : State),
    HasFields (encode (.bor ba bb)) 0x14 0 0 0 ba bb 0 0 ∧
    OthersRefused 0x14 [.ba, .bb] 0 ∧
    ((s.bank ba).blen = 0 ∨ (s.bank bb).blen = 0 → ∃ t, exec (.bor ba bb) s = .next t ∧ Raised .bankInvalid s t) ∧
    ((s.bank ba).blen ≠ 0 → (s.bank bb).blen ≠ 0 → (s.bank ba).blen ≠ (s.bank bb).blen →
      ∃ t, exec (.bor ba bb) s = .next t ∧ Raised .sizeMismatchError s t) ∧
    ((s.bank ba).blen ≠ 0 → (s.bank ba).blen = (s.bank bb).blen →
      (s.bank ba).Ok s.cfg.maxBits → (s.bank bb).Ok s.cfg.maxBits →
      ∃ t, exec (.bor ba bb) s = .next t ∧
        (t.bank ba).blen = (s.bank ba).blen ∧
        (t.bank ba).Holds (fun i => Memory.bit (s.bank ba).bm i || Memory.bit (s.bank bb).bm i) ∧
        (∀ a, (s.bank ba).blen.toNat / 8 ≤ a → Memory.read (t.bank ba).bm a = Memory.read (s.bank ba).bm a) ∧
        (t.bank ba).scnt.toNat = Memory.countBits (t.bank ba).bm (t.bank ba).blen.toNat ∧
        OnlyBank ba s t ∧ Completed t)

/-- `BORW`: `BankInvalid`, then `RangeError`, else storage word `x[rs1]` is ORed with `x[rs2]`, the eight bytes of that
word alone may change, and the count is the population count of the result (R125). -/
def Obligations.BorwOrsTheWord : Prop :=
  ∀ (ba : BankNo) (rs1 rs2 : RegNo) (s : State),
    HasFields (encode (.borw ba rs1 rs2)) 0x15 0 rs1 rs2 ba 0 0 0 ∧
    OthersRefused 0x15 [.ba, .rs1, .rs2] 0 ∧
    ((s.bank ba).blen = 0 → ∃ t, exec (.borw ba rs1 rs2) s = .next t ∧ Raised .bankInvalid s t) ∧
    ((s.bank ba).blen ≠ 0 → (s.bank ba).blen.toNat / 64 ≤ (s.reg rs1).toNat →
      ∃ t, exec (.borw ba rs1 rs2) s = .next t ∧ Raised .rangeError s t) ∧
    ((s.reg rs1).toNat < (s.bank ba).blen.toNat / 64 → (s.bank ba).Ok s.cfg.maxBits →
      ∃ t, exec (.borw ba rs1 rs2) s = .next t ∧
        (t.bank ba).blen = (s.bank ba).blen ∧
        Memory.word (t.bank ba).bm (s.reg rs1).toNat = Memory.word (s.bank ba).bm (s.reg rs1).toNat ||| s.reg rs2 ∧
        (∀ a, a / 8 ≠ (s.reg rs1).toNat → Memory.read (t.bank ba).bm a = Memory.read (s.bank ba).bm a) ∧
        (t.bank ba).scnt.toNat = Memory.countBits (t.bank ba).bm (t.bank ba).blen.toNat ∧
        OnlyBank ba s t ∧ Completed t)

/-- `BRDW`: `BankInvalid`, then `RangeError`, else storage word `x[rs1]`, whose bit `j` is cell `64 * x[rs1] + j`
(R126, R51). -/
def Obligations.BrdwReadsTheWord : Prop :=
  ∀ (rd : RegNo) (ba : BankNo) (rs1 : RegNo) (s : State),
    HasFields (encode (.brdw rd ba rs1)) 0x16 rd rs1 0 ba 0 0 0 ∧
    OthersRefused 0x16 [.rd, .ba, .rs1] 0 ∧
    ((s.bank ba).blen = 0 → ∃ t, exec (.brdw rd ba rs1) s = .next t ∧ Raised .bankInvalid s t) ∧
    ((s.bank ba).blen ≠ 0 → (s.bank ba).blen.toNat / 64 ≤ (s.reg rs1).toNat →
      ∃ t, exec (.brdw rd ba rs1) s = .next t ∧ Raised .rangeError s t) ∧
    ((s.reg rs1).toNat < (s.bank ba).blen.toNat / 64 →
      ∃ t, exec (.brdw rd ba rs1) s = .next t ∧
        (∀ j, j < 64 → (t.reg rd).getLsbD j = Memory.bit (s.bank ba).bm (64 * (s.reg rs1).toNat + j)) ∧
        OnlyReg rd s t ∧ Completed t)

/-- A storage word is the sum of its cells, each with the weight of its position, least significant bit first (R51). -/
def Obligations.WordIsTheSumOfItsBits : Prop :=
  ∀ (m : Memory) (w : Nat),
    (Memory.word m w).toNat = ((List.range 64).map (fun j => if Memory.bit m (64 * w + j) then 2 ^ j else 0)).sum

/-- The dump image: the word is the little-endian number of its eight bytes, `MemWrite` followed by `MemRead` of the same
place gives the value back, and leaves every byte outside it (R15, R52). -/
def Obligations.DumpImageIsLittleEndian : Prop :=
  (∀ (m : Memory) (w : Nat), Memory.memRead m (8 * w) 8 = (Memory.word m w).toNat) ∧
  (∀ (m : Memory) (a n v : Nat), Memory.wf m = true →
    Memory.memRead (Memory.memWrite m a n v) a n = v % 256 ^ n ∧
    ∀ b, (b < a ∨ a + n ≤ b) → Memory.read (Memory.memWrite m a n v) b = Memory.read m b)

/-- The population count of a bank fits 64 bits and is the sum of the counts of its storage words (R128). -/
def Obligations.PopBankIsExact : Prop :=
  ∀ (M : Nat) (k : Bank), k.Ok M →
    k.pop.toNat = Memory.countBits k.bm k.blen.toNat ∧
    k.pop.toNat = ((List.range (k.blen.toNat / 64)).map (fun w => popcount (Memory.word k.bm w))).sum ∧
    k.pop.toNat ≤ k.blen.toNat

/-- Import of a word: ORing a word into a storage word that is still zero stores it, so that reading it back gives the
word (R125, R126, R129). -/
def Obligations.OrIntoAZeroWordStoresIt : Prop :=
  ∀ (ba : BankNo) (rd rs1 rs2 : RegNo) (s : State),
    (s.reg rs1).toNat < (s.bank ba).blen.toNat / 64 → (s.bank ba).Ok s.cfg.maxBits →
    Memory.word (s.bank ba).bm (s.reg rs1).toNat = 0 →
    ∃ t u, exec (.borw ba rs1 rs2) s = .next t ∧ exec (.brdw rd ba rs1) t = .next u ∧ u.reg rd = s.reg rs2

/-- `restore(dump)` gives the counter back (R131 c, R191 d): the dump of a valid bank `a` (R130) is its dump image of
`BLEN / 8` bytes and changes no bank; restoring those bytes into any bank `c` (R129, R184) succeeds and makes `BLEN`, `SCNT`
and every storage word of `c` equal those of `a`, so that the dump of `c` is the same bytes. No other bank changes, nor the
hash unit, nor a register that the host did not name. `dump` and `restore` are sessions of the model's host side, which
ends at the first error and works in the registers it is given (the model's choices, log entries 11 and 16, DESIGN
CHOICE). -/
def Obligations.RestoreOfADumpIsACopy : Prop :=
  ∀ (s : State) (a c : BankNo) (xw xd : RegNo), s.Inv → a.val < s.cfg.nbank → c.val < s.cfg.nbank →
    (s.bank a).blen ≠ 0 → xw ≠ xd →
    ∃ (bytes : List Byte) (t u v : State),
      (dump a xw xd).run s = some (.ok bytes, t) ∧ bytes = Memory.image (s.bank a).bm ((s.bank a).blen.toNat / 8) ∧
      t.banks = s.banks ∧
      (restore c xw xd bytes).run t = some (.ok (), u) ∧
      (u.bank c).blen = (s.bank a).blen ∧ (u.bank c).scnt = (s.bank a).scnt ∧
      (∀ w, w < (s.bank a).blen.toNat / 64 → Memory.word (u.bank c).bm w = Memory.word (s.bank a).bm w) ∧
      (dump c xw xd).run u = some (.ok bytes, v) ∧ v.banks = u.banks ∧
      (∀ b, b ≠ c → v.bank b = s.bank b) ∧ (∀ r, r ≠ xw → r ≠ xd → v.reg r = s.reg r) ∧ v.hash = s.hash ∧ v.cfg = s.cfg

/-- `BOR` is commutative in its effect: ORing two sources into one target gives the same target in either order (R131 e).
-/
def Obligations.BorOrderDoesNotMatter : Prop :=
  ∀ (a b c : BankNo) (s t u t' u' : State), s.Inv → b ≠ a → c ≠ a →
    (s.bank a).blen ≠ 0 → (s.bank a).blen = (s.bank b).blen → (s.bank a).blen = (s.bank c).blen →
    exec (.bor a b) s = .next t → exec (.bor a c) t = .next u →
    exec (.bor a c) s = .next t' → exec (.bor a b) t' = .next u' → u = u'

/-- The count after a union lies between the larger count and the sum of the counts, and is at most the length (R124).
-/
def Obligations.BorCountBounds : Prop :=
  ∀ (ba bb : BankNo) (s t : State), s.Inv → exec (.bor ba bb) s = .next t → Completed t →
    (s.bank ba).scnt.toNat ≤ (t.bank ba).scnt.toNat ∧ (s.bank bb).scnt.toNat ≤ (t.bank ba).scnt.toNat ∧
    (t.bank ba).scnt.toNat ≤ (s.bank ba).scnt.toNat + (s.bank bb).scnt.toNat ∧
    (t.bank ba).scnt.toNat ≤ (s.bank ba).blen.toNat

/-! ### Finalizer unit -/

/-- `FMIX32`: the five steps of R140 on bits 31:0 of the source, zero-extended; bits 63:32 are ignored (R140, R142). -/
def Obligations.Fmix32MixesTheLowHalf : Prop :=
  ∀ (rd rs1 : RegNo) (s : State),
    HasFields (encode (.fmix32 rd rs1)) 0x20 rd rs1 0 0 0 0 0 ∧
    OthersRefused 0x20 [.rd, .rs1] 0 ∧
    ∃ t, exec (.fmix32 rd rs1) s = .next t ∧ OnlyReg rd s t ∧ Completed t ∧
      t.reg rd =
        (let h0 : BitVec 32 := (s.reg rs1).extractLsb' 0 32
         let h1 := h0 ^^^ (h0 >>> 16)
         let h2 := h1 * 0x85ebca6b#32
         let h3 := h2 ^^^ (h2 >>> 13)
         let h4 := h3 * 0xc2b2ae35#32
         let h5 := h4 ^^^ (h4 >>> 16)
         (0#32 ++ h5 : BitVec 64))

/-- `FMIX64`: the five steps of R141 on the source (R141, R143). -/
def Obligations.Fmix64MixesTheRegister : Prop :=
  ∀ (rd rs1 : RegNo) (s : State),
    HasFields (encode (.fmix64 rd rs1)) 0x21 rd rs1 0 0 0 0 0 ∧
    OthersRefused 0x21 [.rd, .rs1] 0 ∧
    ∃ t, exec (.fmix64 rd rs1) s = .next t ∧ OnlyReg rd s t ∧ Completed t ∧
      t.reg rd =
        (let k0 := s.reg rs1
         let k1 := k0 ^^^ (k0 >>> 33)
         let k2 := k1 * 0xff51afd7ed558ccd#64
         let k3 := k2 ^^^ (k2 >>> 33)
         let k4 := k3 * 0xc4ceb9fe1a85ec53#64
         k4 ^^^ (k4 >>> 33))

/-- The finalizers are exact bijections of their domains and map 0 to 0 (R144 a, b). -/
def Obligations.FinalizersAreBijective : Prop :=
  Function.Bijective fmix32 ∧ Function.Bijective fmix64 ∧ fmix32 0 = 0 ∧ fmix64 0 = 0

/-! ### Block-hash unit -/

/-- One mixing round on a full block, in each variant, with every constant, rotation and sister lane as the rules give
them; the words are the little-endian numbers of the block's bytes (R150, R151, R154, R155, R156: what the spec supplies
from general knowledge, log entry 8). -/
def Obligations.RoundsFollowTheRules : Prop :=
  ∀ (h : Lanes) (buf : Residual),
    (roundOf .x86_32 h buf =
      (let k0 : BitVec 32 := heldWord 32 buf 4 0
       let a := h[0].setWidth 32 ^^^ ((k0 * 0xcc9e2d51).rotateLeft 15 * 0x1b873593)
       let a := a.rotateLeft 13 * 5 + 0xe6546b64
       #v[a.setWidth 64, h[1], h[2], h[3]])) ∧
    (roundOf .x86_128 h buf =
      (let k : Nat → BitVec 32 := heldWord 32 buf 16
       let a := h[0].setWidth 32 ^^^ ((k 0 * 0x239b961b).rotateLeft 15 * 0xab0e9789)
       let a := (a.rotateLeft 19 + h[1].setWidth 32) * 5 + 0x561ccd1b
       let b := h[1].setWidth 32 ^^^ ((k 1 * 0xab0e9789).rotateLeft 16 * 0x38b34ae5)
       let b := (b.rotateLeft 17 + h[2].setWidth 32) * 5 + 0x0bcaa747
       let c := h[2].setWidth 32 ^^^ ((k 2 * 0x38b34ae5).rotateLeft 17 * 0xa1e38b93)
       let c := (c.rotateLeft 15 + h[3].setWidth 32) * 5 + 0x96cd1c35
       let d := h[3].setWidth 32 ^^^ ((k 3 * 0xa1e38b93).rotateLeft 18 * 0x239b961b)
       let d := (d.rotateLeft 13 + a) * 5 + 0x32ac3b17
       #v[a.setWidth 64, b.setWidth 64, c.setWidth 64, d.setWidth 64])) ∧
    (roundOf .x64_128 h buf =
      (let k : Nat → BitVec 64 := heldWord 64 buf 16
       let a := h[0] ^^^ ((k 0 * 0x87c37b91114253d5).rotateLeft 31 * 0x4cf5ad432745937f)
       let a := (a.rotateLeft 27 + h[1]) * 5 + 0x52dce729
       let b := h[1] ^^^ ((k 1 * 0x4cf5ad432745937f).rotateLeft 33 * 0x87c37b91114253d5)
       let b := (b.rotateLeft 31 + a) * 5 + 0x38495ab5
       #v[a, b, h[2], h[3]]))

/-- Finalization in each variant: the residual bytes as partial words, the length, the cross-mixes and the finalizers, as
the rules give them (R151, R158, R159, R160: what the spec supplies from general knowledge, log entry 8). -/
def Obligations.FinalizationFollowsTheRules : Prop :=
  ∀ (h : Lanes) (buf : Residual) (n : Fin 16) (len : Word),
    (finalOf .x86_32 h buf n.val len =
      (let k0 : BitVec 32 := heldWord 32 buf n.val 0
       let a := h[0].setWidth 32
       let a := if 0 < n.val then a ^^^ ((k0 * 0xcc9e2d51).rotateLeft 15 * 0x1b873593) else a
       #v[(fmix32 (a ^^^ len.setWidth 32)).setWidth 64, h[1], h[2], h[3]])) ∧
    (finalOf .x86_128 h buf n.val len =
      (let k : Nat → BitVec 32 := heldWord 32 buf n.val
       let d := h[3].setWidth 32
       let d := if 12 < n.val then d ^^^ ((k 3 * 0xa1e38b93).rotateLeft 18 * 0x239b961b) else d
       let c := h[2].setWidth 32
       let c := if 8 < n.val then c ^^^ ((k 2 * 0x38b34ae5).rotateLeft 17 * 0xa1e38b93) else c
       let b := h[1].setWidth 32
       let b := if 4 < n.val then b ^^^ ((k 1 * 0xab0e9789).rotateLeft 16 * 0x38b34ae5) else b
       let a := h[0].setWidth 32
       let a := if 0 < n.val then a ^^^ ((k 0 * 0x239b961b).rotateLeft 15 * 0xab0e9789) else a
       let a := a ^^^ len.setWidth 32
       let b := b ^^^ len.setWidth 32
       let c := c ^^^ len.setWidth 32
       let d := d ^^^ len.setWidth 32
       let a := a + b + c + d
       let b := fmix32 (b + a)
       let c := fmix32 (c + a)
       let d := fmix32 (d + a)
       let a := fmix32 a + b + c + d
       #v[a.setWidth 64, (b + a).setWidth 64, (c + a).setWidth 64, (d + a).setWidth 64])) ∧
    (finalOf .x64_128 h buf n.val len =
      (let k : Nat → BitVec 64 := heldWord 64 buf n.val
       let b := if 8 < n.val then h[1] ^^^ ((k 1 * 0x4cf5ad432745937f).rotateLeft 33 * 0x87c37b91114253d5) else h[1]
       let a := if 0 < n.val then h[0] ^^^ ((k 0 * 0x87c37b91114253d5).rotateLeft 31 * 0x4cf5ad432745937f) else h[0]
       let a := a ^^^ len
       let b := b ^^^ len
       let a := a + b
       let b := fmix64 (b + a)
       let a := fmix64 a + b
       #v[a, b + a, h[2], h[3]]))

/-- `HINIT` starts a fresh computation from any status (R152). -/
def Obligations.HinitStartsAfresh : Prop :=
  ∀ (v : Variant) (s : State),
    HasFields (encode (.hinit v)) 0x30 0 0 0 0 0 (match v with | .x86_32 => 0 | .x86_128 => 1 | .x64_128 => 2) 0 ∧
    OthersRefused 0x30 [.n] 2 ∧
    ∃ t, exec (.hinit v) s = .next t ∧ t.hash.hvar = v ∧ (∀ i : Fin 4, t.hash.h[i] = 0) ∧ t.hash.rlen = 0 ∧
      t.hash.tlen = 0 ∧ t.hash.dg = 0 ∧ t.hash.hst = .active ∧ OnlyHash s t ∧ Completed t

/-- `HPUT`: `HashStateError` unless the unit is active; else byte `j` of the register, for `j` from 0 to `k - 1`, is fed
by the loop body of R153. `FedByte`'s clauses `stored` and `others` say of bytes of `RBUF` at and above `RLEN`, too, that
they keep what was written last: R31 and U8 leave those bytes unspecified, and that is the model's choice, log entry 4
(DESIGN CHOICE). -/
def Obligations.HputFeedsTheBytes : Prop :=
  ∀ (rs1 : RegNo) (k : ByteCount) (s : State),
    HasFields (encode (.hput rs1 k)) 0x31 0 rs1 0 0 0 k.val 0 ∧
    OthersRefused 0x31 [.rs1, .n] 8 ∧
    (s.hash.hst ≠ .active → ∃ t, exec (.hput rs1 k) s = .next t ∧ Raised .hashStateError s t) ∧
    (s.hash.hst = .active →
      ∃ t, exec (.hput rs1 k) s = .next t ∧
        FedBytes s.hash ((List.range k.val).map (fun j => (s.reg rs1).extractLsb' (8 * j) 8)) t.hash ∧
        OnlyHash s t ∧ Completed t)

/-- `HFIN`: `HashStateError` unless the unit is active; else the lanes are finalized, the digest is their concatenation,
lane 0 lowest (R161), no byte is held and the status is `FINAL`; variant and length stay (R157). As a byte string the
digest is `DG` least significant byte first, 4 bytes for variant 0 and 16 for variants 1 and 2 (R53, R161). That the buffer
stays is the model's choice, log entry 4 (DESIGN CHOICE): no byte of it is held any more, and R31 and U8 leave such bytes
unspecified. -/
def Obligations.HfinTakesTheDigest : Prop :=
  ∀ s : State,
    HasFields (encode .hfin) 0x32 0 0 0 0 0 0 0 ∧
    OthersRefused 0x32 [] 0 ∧
    (s.hash.hst ≠ .active → ∃ t, exec .hfin s = .next t ∧ Raised .hashStateError s t) ∧
    (s.hash.hst = .active →
      ∃ t, exec .hfin s = .next t ∧
        t.hash.h = finalOf s.hash.hvar s.hash.h s.hash.rbuf s.hash.rlen.val s.hash.tlen ∧
        (t.hash.dg.toNat = match s.hash.hvar with
          | .x86_32 => (t.hash.h[0]).toNat % 2 ^ 32
          | .x86_128 => (t.hash.h[0]).toNat % 2 ^ 32 + 2 ^ 32 * ((t.hash.h[1]).toNat % 2 ^ 32)
              + 2 ^ 64 * ((t.hash.h[2]).toNat % 2 ^ 32) + 2 ^ 96 * ((t.hash.h[3]).toNat % 2 ^ 32)
          | .x64_128 => (t.hash.h[0]).toNat + 2 ^ 64 * (t.hash.h[1]).toNat) ∧
        t.hash.rlen = 0 ∧ t.hash.hst = .final ∧ t.hash.hvar = s.hash.hvar ∧ t.hash.tlen = s.hash.tlen ∧
        t.hash.rbuf = s.hash.rbuf ∧
        ((digestBytes t.hash.hvar t.hash.dg).length = match s.hash.hvar with
          | .x86_32 => 4
          | .x86_128 => 16
          | .x64_128 => 16) ∧
        littleEndian (digestBytes t.hash.hvar t.hash.dg) = t.hash.dg.toNat ∧ OnlyHash s t ∧ Completed t)

/-- `HDIG`: `HashStateError` unless the unit is final; else the low half, the high half, or their exclusive OR (R162).
-/
def Obligations.HdigReadsTheDigest : Prop :=
  ∀ (rd : RegNo) (sel : DigestSel) (s : State),
    HasFields (encode (.hdig rd sel)) 0x33 rd 0 0 0 0 (match sel with | .lo => 0 | .hi => 1 | .fold => 2) 0 ∧
    OthersRefused 0x33 [.rd, .n] 2 ∧
    (s.hash.hst ≠ .final → ∃ t, exec (.hdig rd sel) s = .next t ∧ Raised .hashStateError s t) ∧
    (s.hash.hst = .final →
      ∃ t, exec (.hdig rd sel) s = .next t ∧
        (t.reg rd = match sel with
          | .lo => BitVec.ofNat 64 s.hash.dg.toNat
          | .hi => BitVec.ofNat 64 (s.hash.dg.toNat / 2 ^ 64)
          | .fold => BitVec.ofNat 64 s.hash.dg.toNat ^^^ BitVec.ofNat 64 (s.hash.dg.toNat / 2 ^ 64)) ∧
        OnlyReg rd s t ∧ Completed t)

/-- Chunking independence: feeding `k1` bytes and then `k2` bytes leaves the hash unit as feeding the same bytes at once
does (R163). -/
def Obligations.ChunkingDoesNotMatter : Prop :=
  ∀ (r1 r2 r3 : RegNo) (k1 k2 k3 : ByteCount) (s : State), s.hash.hst = .active → k1.val + k2.val = k3.val →
    (∀ j, j < k1.val → (s.reg r3).extractLsb' (8 * j) 8 = (s.reg r1).extractLsb' (8 * j) 8) →
    (∀ j, j < k2.val → (s.reg r3).extractLsb' (8 * (k1.val + j)) 8 = (s.reg r2).extractLsb' (8 * j) 8) →
    ∃ t1 t2 t3, exec (.hput r1 k1) s = .next t1 ∧ exec (.hput r2 k2) t1 = .next t2 ∧
      exec (.hput r3 k3) s = .next t3 ∧ t2.hash = t3.hash

/-- The empty input: `HINIT v` followed at once by `HFIN` gives the digest 0 in every variant (R166). -/
def Obligations.EmptyInputHashesToZero : Prop :=
  ∀ (v : Variant) (s : State), ∃ t u, exec (.hinit v) s = .next t ∧ exec .hfin t = .next u ∧ u.hash.dg = 0

/-- The life cycle of the hash unit: `HINIT` leaves it active from any status, `HFIN` takes active to final, and no other
command, and no error, changes the status (R28, R164). -/
def Obligations.HashStatusTransitions : Prop :=
  ∀ (i : Instr) (s t : State), exec i s = .next t →
    (t.hash.hst = match i, s.hash.hst with
      | .hinit _, _ => HashStatus.active
      | .hfin, .active => HashStatus.final
      | _, st => st) ∧
    (t.hash ≠ s.hash → (∃ v, i = .hinit v) ∨ s.hash.hst = .active ∧ ((∃ r k, i = .hput r k) ∨ i = .hfin))

/-! ### Counter -/

/-- `BPUT`: `BankInvalid`, else the cell at `x[rs1] mod BLEN` is set and counted; it never fails on a valid bank (R180).
-/
def Obligations.BputInsertsTheReducedIndex : Prop :=
  ∀ (ba : BankNo) (rs1 : RegNo) (s : State),
    HasFields (encode (.bput ba rs1)) 0x40 0 rs1 0 ba 0 0 0 ∧
    OthersRefused 0x40 [.ba, .rs1] 0 ∧
    ((s.bank ba).blen = 0 → ∃ t, exec (.bput ba rs1) s = .next t ∧ Raised .bankInvalid s t) ∧
    ((s.bank ba).blen ≠ 0 → Memory.wf (s.bank ba).bm = true →
      ∃ t, exec (.bput ba rs1) s = .next t ∧
        (t.bank ba).blen = (s.bank ba).blen ∧
        (∀ j, Memory.bit (t.bank ba).bm j =
          (decide (j = (s.reg rs1).toNat % (s.bank ba).blen.toNat) || Memory.bit (s.bank ba).bm j)) ∧
        (∀ a, a ≠ (s.reg rs1).toNat % (s.bank ba).blen.toNat / 8 →
          Memory.read (t.bank ba).bm a = Memory.read (s.bank ba).bm a) ∧
        (t.bank ba).scnt = (if Memory.bit (s.bank ba).bm ((s.reg rs1).toNat % (s.bank ba).blen.toNat)
          then (s.bank ba).scnt else (s.bank ba).scnt + 1) ∧
        OnlyBank ba s t ∧ Completed t)

/-- `BCNT`: `BankInvalid`, else the cached count (R181). -/
def Obligations.BcntReadsTheCount : Prop :=
  ∀ (rd : RegNo) (ba : BankNo) (s : State),
    HasFields (encode (.bcnt rd ba)) 0x41 rd 0 0 ba 0 0 0 ∧
    OthersRefused 0x41 [.rd, .ba] 0 ∧
    ((s.bank ba).blen = 0 → ∃ t, exec (.bcnt rd ba) s = .next t ∧ Raised .bankInvalid s t) ∧
    ((s.bank ba).blen ≠ 0 →
      ∃ t, exec (.bcnt rd ba) s = .next t ∧ t.reg rd = (s.bank ba).scnt ∧ OnlyReg rd s t ∧ Completed t)

/-- `BSIZE`: `BankInvalid`, else the length in KiB, from which the length is recovered exactly (R182). -/
def Obligations.BsizeReadsTheKib : Prop :=
  ∀ (rd : RegNo) (ba : BankNo) (s : State),
    HasFields (encode (.bsize rd ba)) 0x42 rd 0 0 ba 0 0 0 ∧
    OthersRefused 0x42 [.rd, .ba] 0 ∧
    ((s.bank ba).blen = 0 → ∃ t, exec (.bsize rd ba) s = .next t ∧ Raised .bankInvalid s t) ∧
    ((s.bank ba).blen ≠ 0 → (s.bank ba).Ok s.cfg.maxBits →
      ∃ t, exec (.bsize rd ba) s = .next t ∧ (t.reg rd).toNat = (s.bank ba).blen.toNat / 8192 ∧
        8192 * (t.reg rd).toNat = (s.bank ba).blen.toNat ∧ 1 ≤ (t.reg rd).toNat ∧
        (t.reg rd).toNat ≤ s.cfg.maxBits / 8192 ∧ OnlyReg rd s t ∧ Completed t)

/-- The cached count and the population count agree: `BCNT` and `BPOP` on a valid bank leave the same state (R131 b,
R181). -/
def Obligations.BcntAndBpopAgree : Prop :=
  ∀ (rd : RegNo) (ba : BankNo) (s : State), (s.bank ba).Ok s.cfg.maxBits →
    exec (.bcnt rd ba) s = exec (.bpop rd ba) s

/-- `BPUT` equals `BSET` on a register that holds the reduced value, on a valid bank (R180). -/
def Obligations.BputIsBsetOfTheRemainder : Prop :=
  ∀ (ba : BankNo) (rs xr : RegNo) (s : State), (s.bank ba).blen ≠ 0 →
    (s.reg xr).toNat = (s.reg rs).toNat % (s.bank ba).blen.toNat →
    exec (.bput ba rs) s = exec (.bset ba xr) s

/-- Writes are idempotent: repeating `BSET`, `BPUT`, `BOR` or `BORW` with the same operands leaves the state as after the
first (R57, R191 b). -/
def Obligations.WritesAreIdempotent : Prop :=
  ∀ (i : Instr) (s t u : State), s.Inv →
    ((∃ b r, i = .bset b r) ∨ (∃ b r, i = .bput b r) ∨ (∃ a b, i = .bor a b) ∨ (∃ b r q, i = .borw b r q)) →
    exec i s = .next t → exec i t = .next u → u = t

/-- Saturation is silent: on a bank whose every bit is set, `BSET` within range and `BPUT` answer `OK` and change nothing
(R191 e, R245). -/
def Obligations.SaturatedBankStays : Prop :=
  ∀ (ba : BankNo) (rs1 : RegNo) (s : State), (s.bank ba).Ok s.cfg.maxBits → (s.bank ba).blen ≠ 0 →
    (s.bank ba).scnt = (s.bank ba).blen →
    (∃ t, exec (.bput ba rs1) s = .next t ∧ SameCore s t ∧ Completed t) ∧
    ((s.reg rs1).toNat < (s.bank ba).blen.toNat →
      ∃ t, exec (.bset ba rs1) s = .next t ∧ SameCore s t ∧ Completed t)

/-- A saturated bank is reachable from every state, by 128 `BORW`s of all-ones words and by 8192 `BSET`s on a fresh bitmap
of 8192 bits; no command of either sequence raises an error. Then `BPUT`, and `BSET` within range, change nothing, and the
estimate is `BLEN`, by the fallback (R191 e). The sequences are sessions of the model's host side (log entries 11 and 16,
DESIGN CHOICE). -/
def Obligations.SaturationIsReachable : Prop :=
  ∀ (s : State) (b : BankNo) (xw xd : RegNo), s.Inv → b.val < s.cfg.nbank → xw ≠ xd →
    ∃ t u : State, (saturateByWords b xw xd).run s = some (.ok (), t) ∧ (saturateByBits b xw).run s = some (.ok (), u) ∧
      (t.bank b).blen = 8192 ∧ (t.bank b).scnt = (t.bank b).blen ∧ (t.bank b).Holds (fun _ => true) ∧ u.bank b = t.bank b ∧
      (∀ r, ∃ v, exec (.bput b r) t = .next v ∧ SameCore t v ∧ Completed v) ∧
      (∀ r, (t.reg r).toNat < 8192 → ∃ v, exec (.bset b r) t = .next v ∧ SameCore t v ∧ Completed v) ∧
      ∀ e, IsEstimate (t.bank b).blen.toNat (t.bank b).scnt.toNat e → e = 8192

/-! ### Errors, each exactly when its rule says -/

/-- `SizeError` and `CapacityError` are raised by `BCREATE` alone, and `SizeMismatchError` by `BOR` alone, under the
conditions of R202, R209 and R203: the last when both banks are valid and their lengths differ. -/
def Obligations.LengthErrorsExactlyWhen : Prop :=
  ∀ (i : Instr) (s t : State), exec i s = .next t →
    (t.rsp = some ⟨.error .sizeError, 0⟩ ↔
      ∃ ba rs1, i = .bcreate ba rs1 ∧ ((s.reg rs1).toNat = 0 ∨ (s.reg rs1).toNat % 8192 ≠ 0)) ∧
    (t.rsp = some ⟨.error .capacityError, 0⟩ ↔
      ∃ ba rs1, i = .bcreate ba rs1 ∧ (s.reg rs1).toNat ≠ 0 ∧ (s.reg rs1).toNat % 8192 = 0 ∧
        s.cfg.maxBits < (s.reg rs1).toNat) ∧
    (t.rsp = some ⟨.error .sizeMismatchError, 0⟩ ↔
      ∃ ba bb, i = .bor ba bb ∧ (s.bank ba).blen ≠ 0 ∧ (s.bank bb).blen ≠ 0 ∧ (s.bank ba).blen ≠ (s.bank bb).blen)

/-- `BankInvalid` is raised by every bitmap and counter command except `BCREATE`, exactly when a bank it names has
`BLEN = 0` (R127, R206). -/
def Obligations.BankInvalidExactlyWhen : Prop :=
  ∀ (i : Instr) (s t : State), exec i s = .next t →
    (t.rsp = some ⟨.error .bankInvalid, 0⟩ ↔
      (∀ b r, i ≠ .bcreate b r) ∧ ∃ b, (i.bankA = some b ∨ i.bankB = some b) ∧ (s.bank b).blen = 0)

/-- `RangeError` is raised by `BGET` and `BSET` when the index is at or above `BLEN`, by `BORW` and `BRDW` when it is at or
above `BLEN div 64`, on a valid bank, and by nothing else; so never by `BPUT` (R207). -/
def Obligations.RangeErrorExactlyWhen : Prop :=
  ∀ (i : Instr) (s t : State), exec i s = .next t →
    (t.rsp = some ⟨.error .rangeError, 0⟩ ↔
      ∃ b r, (s.bank b).blen ≠ 0 ∧
        ((((∃ rd, i = .bget rd b r) ∨ i = .bset b r) ∧ (s.bank b).blen.toNat ≤ (s.reg r).toNat) ∨
         (((∃ rd, i = .brdw rd b r) ∨ (∃ q, i = .borw b r q)) ∧ (s.bank b).blen.toNat / 64 ≤ (s.reg r).toNat)))

/-- `HashStateError` is raised by `HPUT` and `HFIN` when the unit is not active, by `HDIG` when it is not final, and by
nothing else (R208). -/
def Obligations.HashStateErrorExactlyWhen : Prop :=
  ∀ (i : Instr) (s t : State), exec i s = .next t →
    (t.rsp = some ⟨.error .hashStateError, 0⟩ ↔
      (((∃ r k, i = .hput r k) ∨ i = .hfin) ∧ s.hash.hst ≠ .active) ∨ ((∃ r l, i = .hdig r l) ∧ s.hash.hst ≠ .final))

/-! ### The whole machine -/

/-- A command changes at most one bank, the one its field `ba` names; the bank that `bb` names is read and never written
(R27). -/
def Obligations.AtMostOneBankChanges : Prop :=
  ∀ (i : Instr) (s t : State), exec i s = .next t →
    (∀ b, t.bank b ≠ s.bank b → i.bankA = some b) ∧
    (∀ b, i.bankB = some b → i.bankA ≠ some b → t.bank b = s.bank b)

/-- No command but a successful `BCREATE` on the bank changes a bank's length, and it changes it to the requested length
(R24). -/
def Obligations.OnlyBcreateChangesALength : Prop :=
  ∀ (i : Instr) (s t : State) (b : BankNo), exec i s = .next t → (t.bank b).blen ≠ (s.bank b).blen →
    ∃ r, i = .bcreate b r ∧ Completed t ∧ (t.bank b).blen = s.reg r ∧ (t.bank b).blen ≠ 0

/-- Bits are monotonic and counts never fall: over any step, unless it is a successful `BCREATE` on the bank, every cell
that is 1 stays 1 and `SCNT` does not go down (R26, R37 I7, R131 a, R191 c). -/
def Obligations.BitsAndCountsOnlyGrow : Prop :=
  ∀ (s t : State) (b : BankNo), s.Inv → step s = .next t →
    ((∀ n, Memory.bit (s.bank b).bm n = true → Memory.bit (t.bank b).bm n = true) ∧
      (s.bank b).scnt.toNat ≤ (t.bank b).scnt.toNat) ∨
    ∃ c rest r, s.rsp = none ∧ s.cmds = c :: rest ∧ decodeWord s.cfg.nbank c = .ok (.bcreate b r) ∧ Completed t

/-- The invariants I1 to I6 of R37, with the canonical form of the bit storage, are kept by every step from every state
that meets them. -/
def Obligations.InvariantKeptByStep : Prop :=
  ∀ s t : State, s.Inv → step s = .next t → t.Inv

/-- The invariants hold after reset, for every legal choice of the parameters (R36, R37). -/
def Obligations.ResetMeetsTheInvariant : Prop :=
  State.reset.Inv ∧ ∀ p : Config.Params, p.Legal → (State.resetWith p).Inv

/-- What reset leaves, from any state: every data register 0, every bank invalid with count 0, the hash unit idle with
variant 0, lanes, lengths and digest 0 (R36), no response waiting (R240 c), the parameters as they were; this first part
names no byte that R36 leaves unspecified. The last clause equates whole states: `State.reset` is what reset leaves of any
state with the default parameters (R9, R10). What it says beyond those values is the model's choice: the cells and the
bytes of `RBUF` that R36 leaves unspecified are fixed (log entries 3 and 4, DESIGN CHOICE), and what the host had presented
and the responses taken are dropped (log entry 14, DEDUCED). -/
def Obligations.ResetValues : Prop :=
  (∀ s : State,
    (∀ r, s.assertReset.reg r = 0) ∧
    (∀ b, (s.assertReset.bank b).blen = 0 ∧ (s.assertReset.bank b).scnt = 0) ∧
    s.assertReset.hash.hst = .idle ∧ s.assertReset.hash.hvar = .x86_32 ∧
    (∀ i : Fin 4, s.assertReset.hash.h[i] = 0) ∧ s.assertReset.hash.rlen = 0 ∧
    s.assertReset.hash.tlen = 0 ∧ s.assertReset.hash.dg = 0 ∧ s.assertReset.rsp = none ∧ s.assertReset.cfg = s.cfg) ∧
  ∀ s : State, s.cfg = ⟨4, 8388608⟩ → State.reset = s.assertReset

/-- Every command has a defined outcome in the reset state: `LDI`, `RDR`, `FMIX32`, `FMIX64` and `HINIT` complete,
`BCREATE` answers `SizeError` for its register is 0, every other bank command `BankInvalid`, and `HPUT`, `HFIN`, `HDIG`
`HashStateError` (R242). -/
def Obligations.ResetStateAnswers : Prop :=
  ∀ (p : Config.Params) (i : Instr), ∃ t, exec i (State.resetWith p) = .next t ∧
    t.rsp = some ⟨match i with
      | .ldi _ _ => .ok
      | .rdr _ => .ok
      | .fmix32 _ _ => .ok
      | .fmix64 _ _ => .ok
      | .hinit _ => .ok
      | .bcreate _ _ => .error .sizeError
      | .hput _ _ => .error .hashStateError
      | .hfin => .error .hashStateError
      | .hdig _ _ => .error .hashStateError
      | _ => .error .bankInvalid, 0⟩

/-! ### The host's side -/

/-- The estimator: the fallback at saturation, `count(m, 0) = 0`, and `count(m, c) >= c` for every `c` (R186). -/
def Obligations.EstimateProperties : Prop :=
  ∀ (m c : Nat) (e : Int), 0 < m → IsEstimate m c e →
    (c = m → e = m) ∧ (c = 0 → e = 0) ∧ (c : Int) ≤ e
end

