-- ==== Sys2Proof/Laws/Memory.lean ====
section
/-! SUPPORT. The laws of the bit storage: a read after a write, that every operation keeps the canonical form, and what
the bit, word, bulk and counting operations do to every cell (`20_memory.md` R51, R52; `41_bitset.md` R128). -/

namespace Sys2Proof.Machine

/-! ### The canonical form -/

@[simp] theorem Memory.wf_nil : Memory.wf [] = true := rfl

/-- The canonical form of a list with a first byte. -/
theorem Memory.wf_cons (a : Nat) (v : Byte) (m : Memory) :
    Memory.wf ((a, v) :: m) = true ↔ v ≠ Memory.unlisted ∧ (∀ c ∈ m, a < c.1) ∧ Memory.wf m = true := by
  simp [Memory.wf, and_assoc]

/-- A byte below every listed offset reads as an unlisted one. -/
theorem Memory.read_of_lt (m : Memory) (a : Nat) (h : ∀ c ∈ m, a < c.1) : Memory.read m a = Memory.unlisted := by
  induction m with
  | nil => rfl
  | cons c m ih =>
    obtain ⟨b, w⟩ := c
    have hb : a < b := h (b, w) List.mem_cons_self
    simp only [Memory.read, Nat.ne_of_lt hb, if_false]
    exact ih fun c hc => h c (List.mem_cons_of_mem _ hc)

/-- Every offset a write leaves listed was listed or is the one written. -/
theorem Memory.mem_write (m : Memory) (a : Nat) (v : Byte) (c : Host.Cell) (h : c ∈ Memory.write m a v) :
    c = (a, v) ∨ c ∈ m := by
  induction m with
  | nil =>
    simp only [Memory.write] at h
    split at h <;> simp_all
  | cons d m ih =>
    obtain ⟨b, w⟩ := d
    simp only [Memory.write] at h
    split at h
    · split at h <;> simp_all
    · split at h
      · split at h
        · exact .inr (List.mem_cons_of_mem _ h)
        · rcases List.mem_cons.1 h with h | h
          · exact .inl h
          · exact .inr (List.mem_cons_of_mem _ h)
      · rcases List.mem_cons.1 h with h | h
        · exact .inr (h ▸ List.mem_cons_self)
        · exact (ih h).imp_right (List.mem_cons_of_mem _)

/-- A write keeps the canonical form. -/
theorem Memory.wf_write (m : Memory) (a : Nat) (v : Byte) (h : Memory.wf m = true) : Memory.wf (Memory.write m a v) = true := by
  induction m with
  | nil =>
    simp only [Memory.write]
    split
    · rfl
    · rename_i hv; simp [Memory.wf, hv]
  | cons c m ih =>
    obtain ⟨b, w⟩ := c
    obtain ⟨hw, hlt, hm⟩ := (Memory.wf_cons b w m).1 h
    simp only [Memory.write]
    split
    · rename_i hab
      split
      · exact h
      · rename_i hv
        refine (Memory.wf_cons a v _).2 ⟨hv, fun c hc => ?_, h⟩
        rcases List.mem_cons.1 hc with rfl | hc
        · exact hab
        · exact hab.trans (hlt c hc)
    · rename_i hab
      split
      · rename_i he
        split
        · exact hm
        · rename_i hv
          exact (Memory.wf_cons a v m).2 ⟨hv, fun c hc => he ▸ hlt c hc, hm⟩
      · rename_i hne
        refine (Memory.wf_cons b w _).2 ⟨hw, fun c hc => ?_, ih hm⟩
        rcases Memory.mem_write m a v c hc with rfl | hc
        · simp only; omega
        · exact hlt c hc

/-- A read after a write: the written byte reads as the value, every other as before. -/
theorem Memory.read_write (m : Memory) (a : Nat) (v : Byte) (b : Nat) (h : Memory.wf m = true) :
    Memory.read (Memory.write m a v) b = if b = a then v else Memory.read m b := by
  induction m with
  | nil =>
    simp only [Memory.write]
    by_cases hv : v = Memory.unlisted
    · simp [hv, Memory.read]
    · simp [hv, Memory.read]
  | cons c m ih =>
    obtain ⟨d, w⟩ := c
    obtain ⟨hw, hlt, hm⟩ := (Memory.wf_cons d w m).1 h
    simp only [Memory.write]
    split
    · rename_i had
      have ha : Memory.read ((d, w) :: m) a = Memory.unlisted := by
        refine Memory.read_of_lt _ _ fun c hc => ?_
        rcases List.mem_cons.1 hc with rfl | hc
        · exact had
        · exact had.trans (hlt c hc)
      by_cases hv : v = Memory.unlisted
      · rw [if_pos hv]
        split
        · rename_i hb; rw [hb, ha, hv]
        · rfl
      · rw [if_neg hv]; rfl
    · rename_i had
      split
      · rename_i he
        subst he
        by_cases hv : v = Memory.unlisted
        · rw [if_pos hv]
          by_cases hb : b = a
          · subst hb; simp [hv, Memory.read_of_lt m b hlt]
          · simp [hb, Memory.read]
        · rw [if_neg hv]
          by_cases hb : b = a <;> simp [hb, Memory.read]
      · rename_i hne
        simp only [Memory.read, ih hm]
        by_cases hb : b = d
        · have : b ≠ a := by omega
          simp [hb, show d ≠ a by omega]
        · simp [hb]

/-- Two canonical lists that read alike are equal: equal memories are equal data. -/
theorem Memory.ext_of_read (m m' : Memory) (h : Memory.wf m = true) (h' : Memory.wf m' = true)
    (hr : ∀ a, Memory.read m a = Memory.read m' a) : m = m' := by
  induction m generalizing m' with
  | nil =>
    cases m' with
    | nil => rfl
    | cons c m' =>
      obtain ⟨b, w⟩ := c
      have := hr b
      simp only [Memory.read, if_true] at this
      exact absurd this.symm ((Memory.wf_cons b w m').1 h').1
  | cons c m ih =>
    obtain ⟨b, w⟩ := c
    obtain ⟨hw, hlt, hm⟩ := (Memory.wf_cons b w m).1 h
    cases m' with
    | nil =>
      have := hr b
      simp only [Memory.read, if_true] at this
      exact absurd this hw
    | cons c' m' =>
      obtain ⟨b', w'⟩ := c'
      obtain ⟨hw', hlt', hm'⟩ := (Memory.wf_cons b' w' m').1 h'
      have hb : b = b' := by
        rcases Nat.lt_trichotomy b b' with hbb | hbb | hbb
        · have h1 := hr b
          simp only [Memory.read, if_true, Nat.ne_of_lt hbb, if_false,
            Memory.read_of_lt m' b fun c hc => hbb.trans (hlt' c hc)] at h1
          exact absurd h1 hw
        · exact hbb
        · have h1 := hr b'
          simp only [Memory.read, if_true, Nat.ne_of_lt hbb, if_false,
            Memory.read_of_lt m b' fun c hc => hbb.trans (hlt c hc)] at h1
          exact absurd h1.symm hw'
      subst hb
      have hww : w = w' := by simpa [Memory.read] using hr b
      subst hww
      congr 1
      refine ih m' hm hm' fun a => ?_
      have h1 := hr a
      by_cases ha : a = b
      · subst ha
        rw [Memory.read_of_lt m a hlt, Memory.read_of_lt m' a hlt']
      · simpa [Memory.read, ha] using h1

/-- Writing the byte that is there changes nothing. -/
theorem Memory.write_read (m : Memory) (a : Nat) (h : Memory.wf m = true) : Memory.write m a (Memory.read m a) = m :=
  Memory.ext_of_read _ _ (Memory.wf_write m a _ h) h fun b => by
    rw [Memory.read_write m a _ b h]; split <;> simp_all

/-- Writing below `n` keeps every listed byte below `n`. -/
theorem Memory.below_write (m : Memory) (a n : Nat) (v : Byte) (ha : a < n) (h : Memory.below m n = true) :
    Memory.below (Memory.write m a v) n = true := by
  simp only [Memory.below, List.all_eq_true, decide_eq_true_eq] at h ⊢
  intro c hc
  rcases Memory.mem_write m a v c hc with rfl | hc
  · exact ha
  · exact h c hc

/-- Where every listed byte is below `n`, a byte at or above `n` reads as an unlisted one. -/
theorem Memory.read_of_below (m : Memory) (n a : Nat) (h : Memory.below m n = true) (ha : n ≤ a) :
    Memory.read m a = Memory.unlisted := by
  induction m with
  | nil => rfl
  | cons c m ih =>
    obtain ⟨b, w⟩ := c
    simp only [Memory.below, List.all_cons, Bool.and_eq_true, decide_eq_true_eq] at h
    simp only [Memory.read, show a ≠ b by omega, if_false]
    exact ih (by simpa [Memory.below] using h.2)

/-! ### Bits -/

@[simp] theorem Memory.bit_nil (i : Nat) : Memory.bit [] i = false := by simp [Memory.bit, Memory.read, Memory.unlisted]

theorem Memory.wf_setBit (m : Memory) (i : Nat) (h : Memory.wf m = true) : Memory.wf (Memory.setBit m i) = true :=
  Memory.wf_write m _ _ h

/-- Setting cell `i` makes it 1 and leaves every other cell (R26). -/
theorem Memory.bit_setBit (m : Memory) (i j : Nat) (h : Memory.wf m = true) :
    Memory.bit (Memory.setBit m i) j = (decide (j = i) || Memory.bit m j) := by
  unfold Memory.bit Memory.setBit
  rw [Memory.read_write m _ _ _ h]
  split
  · rename_i he
    rw [he, BitVec.getLsbD_or, BitVec.getLsbD_twoPow, Bool.or_comm]
    congr 1
    have h8 : i % 8 < 8 := Nat.mod_lt _ (by decide)
    by_cases hj : j = i
    · subst hj; simp [h8]
    · simp [hj]; omega
  · rename_i hne
    have : j ≠ i := fun e => hne (by rw [e])
    simp [this]

/-! ### Words (R51, R52) -/

/-- Bit `j` of storage word `w` is cell `64*w + j` (R51). -/
theorem Memory.word_getLsbD (m : Memory) (w j : Nat) (hj : j < 64) :
    (Memory.word m w).getLsbD j = Memory.bit m (64 * w + j) := by
  unfold Memory.word Memory.bit
  simp only [BitVec.getLsbD_append]
  rw [show (64 * w + j) / 8 = 8 * w + j / 8 by omega, show (64 * w + j) % 8 = j % 8 by omega]
  have hc : j / 8 = 0 ∨ j / 8 = 1 ∨ j / 8 = 2 ∨ j / 8 = 3 ∨ j / 8 = 4 ∨ j / 8 = 5 ∨ j / 8 = 6 ∨ j / 8 = 7 := by omega
  rcases hc with h | h | h | h | h | h | h | h <;> rw [h] <;> (repeat' split) <;>
    first
      | omega
      | (congr 1; omega)

theorem Memory.wf_orByte (m : Memory) (a : Nat) (v : Byte) (h : Memory.wf m = true) :
    Memory.wf (Memory.orByte m a v) = true := Memory.wf_write m _ _ h

/-- ORing a byte in changes that byte alone. -/
theorem Memory.read_orByte (m : Memory) (a : Nat) (v : Byte) (b : Nat) (h : Memory.wf m = true) :
    Memory.read (Memory.orByte m a v) b = if b = a then Memory.read m a ||| v else Memory.read m b :=
  Memory.read_write m _ _ _ h

theorem Memory.below_orByte (m : Memory) (a n : Nat) (v : Byte) (ha : a < n) (h : Memory.below m n = true) :
    Memory.below (Memory.orByte m a v) n = true := Memory.below_write m a n _ ha h

/-- The fold of `orWord` over the first `n` bytes of a word: the canonical form stays, and each byte `8w + k` with
`k < n` is ORed with byte `k`. -/
theorem Memory.orWord_fold (m : Memory) (w : Nat) (v : Word) (n : Nat) (h : Memory.wf m = true) :
    Memory.wf ((List.range n).foldl (fun m k => Memory.orByte m (8 * w + k) (v.extractLsb' (8 * k) 8)) m) = true ∧
    ∀ a, Memory.read ((List.range n).foldl (fun m k => Memory.orByte m (8 * w + k) (v.extractLsb' (8 * k) 8)) m) a
      = if 8 * w ≤ a ∧ a < 8 * w + n then Memory.read m a ||| v.extractLsb' (8 * (a - 8 * w)) 8 else Memory.read m a := by
  induction n with
  | zero => exact ⟨h, fun a => by simp⟩
  | succ n ih =>
    obtain ⟨ih1, ih2⟩ := ih
    rw [List.range_succ, List.foldl_append]
    refine ⟨Memory.wf_orByte _ _ _ ih1, fun a => ?_⟩
    simp only [List.foldl_cons, List.foldl_nil]
    rw [Memory.read_orByte _ _ _ _ ih1]
    by_cases ha : a = 8 * w + n
    · subst ha
      rw [ih2]
      simp
    · rw [if_neg ha, ih2]
      by_cases hb : 8 * w ≤ a ∧ a < 8 * w + n
      · rw [if_pos hb, if_pos (by omega)]
      · rw [if_neg hb, if_neg (by omega)]

theorem Memory.wf_orWord (m : Memory) (w : Nat) (v : Word) (h : Memory.wf m = true) :
    Memory.wf (Memory.orWord m w v) = true := (Memory.orWord_fold m w v 8 h).1

/-- ORing a word in ORs its bit `j` into cell `64*w + j` and leaves every other cell (R51, R125). -/
theorem Memory.bit_orWord (m : Memory) (w : Nat) (v : Word) (i : Nat) (h : Memory.wf m = true) :
    Memory.bit (Memory.orWord m w v) i = (Memory.bit m i || (decide (i / 64 = w) && v.getLsbD (i % 64))) := by
  unfold Memory.bit Memory.orWord
  rw [(Memory.orWord_fold m w v 8 h).2]
  by_cases hi : i / 64 = w
  · rw [if_pos (by omega), BitVec.getLsbD_or, BitVec.getLsbD_extractLsb']
    have h8 : i % 8 < 8 := Nat.mod_lt _ (by decide)
    rw [show 8 * (i / 8 - 8 * w) + i % 8 = i % 64 by omega]
    simp [hi, h8]
  · rw [if_neg (by omega)]
    simp [hi]

theorem Memory.below_orWord (m : Memory) (w n : Nat) (v : Word) (hw : 8 * w + 8 ≤ n) (h : Memory.below m n = true) :
    Memory.below (Memory.orWord m w v) n = true := by
  unfold Memory.orWord
  have key : ∀ k, k ≤ 8 →
      Memory.below ((List.range k).foldl (fun m k => Memory.orByte m (8 * w + k) (v.extractLsb' (8 * k) 8)) m) n = true := by
    intro k
    induction k with
    | zero => intro _; simpa using h
    | succ k ih =>
      intro hk
      rw [List.range_succ, List.foldl_append]
      exact Memory.below_orByte _ _ _ _ (by omega) (ih (by omega))
  exact key 8 le_rfl

/-! ### The bulk OR (R124) -/

/-- The bulk OR keeps the canonical form, and ORs each byte below `n` with the source's byte. -/
theorem Memory.orImage_spec (n : Nat) (src m : Memory) (hs : Memory.wf src = true) (h : Memory.wf m = true) :
    Memory.wf (Memory.orImage n m src) = true ∧
    ∀ a, Memory.read (Memory.orImage n m src) a
      = if a < n then Memory.read m a ||| Memory.read src a else Memory.read m a := by
  induction src generalizing m with
  | nil => exact ⟨h, fun a => by simp [Memory.orImage, Memory.read, Memory.unlisted]⟩
  | cons c src ih =>
    obtain ⟨b, w⟩ := c
    obtain ⟨_, hlt, hs'⟩ := (Memory.wf_cons b w src).1 hs
    simp only [Memory.orImage]
    by_cases hb : b < n
    · rw [if_pos hb]
      obtain ⟨i1, i2⟩ := ih (Memory.orByte m b w) hs' (Memory.wf_orByte m b w h)
      refine ⟨i1, fun a => ?_⟩
      rw [i2, Memory.read_orByte m b w a h]
      by_cases ha : a = b
      · subst ha
        simp [hb, Memory.read, Memory.read_of_lt src a hlt, Memory.unlisted]
      · simp [ha, Memory.read]
    · rw [if_neg hb]
      obtain ⟨i1, i2⟩ := ih m hs' h
      refine ⟨i1, fun a => ?_⟩
      rw [i2]
      by_cases ha : a < n
      · simp [ha, Memory.read, show a ≠ b by omega]
      · simp [ha]

theorem Memory.wf_orImage (n : Nat) (src m : Memory) (hs : Memory.wf src = true) (h : Memory.wf m = true) :
    Memory.wf (Memory.orImage n m src) = true := (Memory.orImage_spec n src m hs h).1

/-- The bulk OR on an image of `n` bytes: every cell below `8*n` is ORed with the source's, every other stays (R124). -/
theorem Memory.bit_orImage (n : Nat) (src m : Memory) (i : Nat) (hs : Memory.wf src = true) (h : Memory.wf m = true) :
    Memory.bit (Memory.orImage n m src) i = (Memory.bit m i || (decide (i < 8 * n) && Memory.bit src i)) := by
  unfold Memory.bit
  rw [(Memory.orImage_spec n src m hs h).2]
  by_cases hi : i / 8 < n
  · simp [hi, show i < 8 * n by omega]
  · simp [hi, show ¬ i < 8 * n by omega]

theorem Memory.below_orImage (n : Nat) (src m : Memory) (h : Memory.below m n = true) :
    Memory.below (Memory.orImage n m src) n = true := by
  induction src generalizing m with
  | nil => exact h
  | cons c src ih =>
    obtain ⟨b, w⟩ := c
    simp only [Memory.orImage]
    by_cases hb : b < n
    · rw [if_pos hb]; exact ih _ (Memory.below_orByte m b n w hb h)
    · rw [if_neg hb]; exact ih _ h

/-! ### Counting (R128) -/

/-- The cells of one more byte. -/
theorem Memory.countBits_add_eight (m : Memory) (n : Nat) :
    Memory.countBits m (8 * (n + 1)) = Memory.countBits m (8 * n) + popcount (Memory.read m n) := by
  unfold Memory.countBits popcount
  rw [Nat.mul_succ, List.range_add, List.countP_append, List.countP_map]
  congr 1
  refine List.countP_congr fun j hj => ?_
  have hj8 : j < 8 := List.mem_range.1 hj
  simp only [Function.comp_apply, Memory.bit]
  rw [show (8 * n + j) / 8 = n by omega, show (8 * n + j) % 8 = j by omega]

@[simp] theorem popcount_zero (w : Nat) : popcount (0#w) = 0 := by simp [popcount]

/-- Below its first listed byte, a canonical list counts only what follows it. -/
theorem Memory.countBits_cons (b : Nat) (w : Byte) (m : Memory) (n : Nat) (hlt : ∀ c ∈ m, b < c.1) :
    Memory.countBits ((b, w) :: m) (8 * n)
      = (if b < n then popcount w else 0) + Memory.countBits m (8 * n) := by
  induction n with
  | zero => simp [Memory.countBits]
  | succ n ih =>
    rw [Memory.countBits_add_eight, Memory.countBits_add_eight, ih]
    by_cases hn : n = b
    · subst hn
      have : Memory.read m n = Memory.unlisted := Memory.read_of_lt m n hlt
      simp [Memory.read, this, Memory.unlisted, Nat.add_comm]
    · simp only [Memory.read, hn, if_false]
      by_cases hb : b < n
      · simp [hb, show b < n + 1 by omega, Nat.add_assoc]
      · simp [hb, show ¬ b < n + 1 by omega]

/-- The population count of the listed bytes is the population count cell by cell (R128). -/
theorem Memory.popImage_eq_countBits (m : Memory) (n : Nat) (h : Memory.wf m = true) :
    Memory.popImage n m = Memory.countBits m (8 * n) := by
  induction m with
  | nil => simp [Memory.popImage, Memory.countBits]
  | cons c m ih =>
    obtain ⟨b, w⟩ := c
    obtain ⟨_, hlt, hm⟩ := (Memory.wf_cons b w m).1 h
    rw [Memory.countBits_cons b w m n hlt, Memory.popImage, ih hm]

/-- A count of `len` cells is at most `len` (R128). -/
theorem Memory.countBits_le (m : Memory) (len : Nat) : Memory.countBits m len ≤ len := by
  simpa [Memory.countBits] using List.countP_le_length (p := fun i => Memory.bit m i) (l := List.range len)

/-- Equal cells, equal counts. -/
theorem Memory.countBits_congr (m m' : Memory) (len : Nat) (h : ∀ i, i < len → Memory.bit m i = Memory.bit m' i) :
    Memory.countBits m len = Memory.countBits m' len := by
  unfold Memory.countBits
  exact List.countP_congr fun i hi => by rw [h i (List.mem_range.1 hi)]

/-- Setting one cell that was 0 adds one to the count (R25). -/
theorem Memory.countBits_setBit (m : Memory) (i len : Nat) (h : Memory.wf m = true) (hi : i < len)
    (hz : Memory.bit m i = false) : Memory.countBits (Memory.setBit m i) len = Memory.countBits m len + 1 := by
  have key : ∀ n, Memory.countBits (Memory.setBit m i) n = Memory.countBits m n + if i < n then 1 else 0 := by
    intro n
    induction n with
    | zero => simp [Memory.countBits]
    | succ n ih =>
      unfold Memory.countBits at ih ⊢
      rw [List.range_succ, List.countP_append, List.countP_append, ih]
      simp only [List.countP_singleton, Memory.bit_setBit m i n h]
      by_cases hn : n = i
      · subst hn; simp [hz]
      · by_cases hlt : i < n
        · simp [hn, hlt, show i < n + 1 by omega, Nat.add_right_comm]
        · simp [hn, hlt, show ¬ i < n + 1 by omega]
  rw [key len, if_pos hi]

end Sys2Proof.Machine
end

