-- ==== Sys2Proof/Laws/State.lean ====
section
/-! SUPPORT. What each update of the state leaves in each field, true by definition, so that no later proof unfolds a
record update; and reading a register or a bank after writing one. -/

namespace Sys2Proof.Machine

/-! ### setReg -/

@[simp] theorem State.setReg_banks (s : State) (r : RegNo) (v : Word) : (s.setReg r v).banks = s.banks := rfl
@[simp] theorem State.setReg_hash (s : State) (r : RegNo) (v : Word) : (s.setReg r v).hash = s.hash := rfl
@[simp] theorem State.setReg_cfg (s : State) (r : RegNo) (v : Word) : (s.setReg r v).cfg = s.cfg := rfl
@[simp] theorem State.setReg_cmds (s : State) (r : RegNo) (v : Word) : (s.setReg r v).cmds = s.cmds := rfl
@[simp] theorem State.setReg_rsp (s : State) (r : RegNo) (v : Word) : (s.setReg r v).rsp = s.rsp := rfl
@[simp] theorem State.setReg_trace (s : State) (r : RegNo) (v : Word) : (s.setReg r v).trace = s.trace := rfl
@[simp] theorem State.setReg_bank (s : State) (r : RegNo) (v : Word) (b : BankNo) : (s.setReg r v).bank b = s.bank b := rfl

/-- Reading a register after a write: the written one reads the value, every other as before (R21). -/
@[simp] theorem State.reg_setReg (s : State) (r q : RegNo) (v : Word) :
    (s.setReg r v).reg q = if q = r then v else s.reg q := by
  simp [State.reg, State.setReg, Vector.getElem_set, Fin.ext_iff, eq_comm]

/-! ### setBank -/

@[simp] theorem State.setBank_x (s : State) (b : BankNo) (k : Bank) : (s.setBank b k).x = s.x := rfl
@[simp] theorem State.setBank_hash (s : State) (b : BankNo) (k : Bank) : (s.setBank b k).hash = s.hash := rfl
@[simp] theorem State.setBank_cfg (s : State) (b : BankNo) (k : Bank) : (s.setBank b k).cfg = s.cfg := rfl
@[simp] theorem State.setBank_cmds (s : State) (b : BankNo) (k : Bank) : (s.setBank b k).cmds = s.cmds := rfl
@[simp] theorem State.setBank_rsp (s : State) (b : BankNo) (k : Bank) : (s.setBank b k).rsp = s.rsp := rfl
@[simp] theorem State.setBank_trace (s : State) (b : BankNo) (k : Bank) : (s.setBank b k).trace = s.trace := rfl
@[simp] theorem State.setBank_reg (s : State) (b : BankNo) (k : Bank) (r : RegNo) : (s.setBank b k).reg r = s.reg r := rfl

/-- Reading a bank after a bank is replaced (R27). -/
@[simp] theorem State.bank_setBank (s : State) (b c : BankNo) (k : Bank) :
    (s.setBank b k).bank c = if c = b then k else s.bank c := by
  simp [State.bank, State.setBank, Vector.getElem_set, Fin.ext_iff, eq_comm]

/-! ### setHash -/

@[simp] theorem State.setHash_x (s : State) (u : HashUnit) : (s.setHash u).x = s.x := rfl
@[simp] theorem State.setHash_banks (s : State) (u : HashUnit) : (s.setHash u).banks = s.banks := rfl
@[simp] theorem State.setHash_hash (s : State) (u : HashUnit) : (s.setHash u).hash = u := rfl
@[simp] theorem State.setHash_cfg (s : State) (u : HashUnit) : (s.setHash u).cfg = s.cfg := rfl
@[simp] theorem State.setHash_cmds (s : State) (u : HashUnit) : (s.setHash u).cmds = s.cmds := rfl
@[simp] theorem State.setHash_rsp (s : State) (u : HashUnit) : (s.setHash u).rsp = s.rsp := rfl
@[simp] theorem State.setHash_trace (s : State) (u : HashUnit) : (s.setHash u).trace = s.trace := rfl
@[simp] theorem State.setHash_reg (s : State) (u : HashUnit) (r : RegNo) : (s.setHash u).reg r = s.reg r := rfl
@[simp] theorem State.setHash_bank (s : State) (u : HashUnit) (b : BankNo) : (s.setHash u).bank b = s.bank b := rfl

/-! ### respond -/

@[simp] theorem State.respond_x (s : State) (r : Response) : (s.respond r).x = s.x := rfl
@[simp] theorem State.respond_banks (s : State) (r : Response) : (s.respond r).banks = s.banks := rfl
@[simp] theorem State.respond_hash (s : State) (r : Response) : (s.respond r).hash = s.hash := rfl
@[simp] theorem State.respond_cfg (s : State) (r : Response) : (s.respond r).cfg = s.cfg := rfl
@[simp] theorem State.respond_cmds (s : State) (r : Response) : (s.respond r).cmds = s.cmds := rfl
@[simp] theorem State.respond_rsp (s : State) (r : Response) : (s.respond r).rsp = some r := rfl
@[simp] theorem State.respond_trace (s : State) (r : Response) : (s.respond r).trace = s.trace := rfl
@[simp] theorem State.respond_reg (s : State) (r : Response) (q : RegNo) : (s.respond r).reg q = s.reg q := rfl
@[simp] theorem State.respond_bank (s : State) (r : Response) (b : BankNo) : (s.respond r).bank b = s.bank b := rfl

/-! ### takeRsp and offer -/

@[simp] theorem State.takeRsp_x (s : State) : s.takeRsp.x = s.x := rfl
@[simp] theorem State.takeRsp_banks (s : State) : s.takeRsp.banks = s.banks := rfl
@[simp] theorem State.takeRsp_hash (s : State) : s.takeRsp.hash = s.hash := rfl
@[simp] theorem State.takeRsp_cfg (s : State) : s.takeRsp.cfg = s.cfg := rfl
@[simp] theorem State.takeRsp_cmds (s : State) : s.takeRsp.cmds = s.cmds := rfl
@[simp] theorem State.takeRsp_rsp (s : State) : s.takeRsp.rsp = none := rfl
@[simp] theorem State.takeRsp_trace (s : State) : s.takeRsp.trace = s.trace ++ s.rsp.toList := rfl
@[simp] theorem State.takeRsp_bank (s : State) (b : BankNo) : s.takeRsp.bank b = s.bank b := rfl
@[simp] theorem State.takeRsp_reg (s : State) (r : RegNo) : s.takeRsp.reg r = s.reg r := rfl

@[simp] theorem State.offer_x (s : State) (c : Cmd) : (s.offer c).x = s.x := rfl
@[simp] theorem State.offer_banks (s : State) (c : Cmd) : (s.offer c).banks = s.banks := rfl
@[simp] theorem State.offer_hash (s : State) (c : Cmd) : (s.offer c).hash = s.hash := rfl
@[simp] theorem State.offer_cfg (s : State) (c : Cmd) : (s.offer c).cfg = s.cfg := rfl
@[simp] theorem State.offer_cmds (s : State) (c : Cmd) : (s.offer c).cmds = c :: s.cmds := rfl
@[simp] theorem State.offer_rsp (s : State) (c : Cmd) : (s.offer c).rsp = none := rfl
@[simp] theorem State.offer_trace (s : State) (c : Cmd) : (s.offer c).trace = s.trace ++ s.rsp.toList := rfl

/-! ### The end of a command -/

/-- All that `complete` can do: it answers next, with the response `(OK, 0)` and nothing else changed (R15). -/
@[simp] theorem complete_eq_next (s t : State) : complete s = .next t ↔ t = s.respond ⟨.ok, 0⟩ := by
  simp [complete, eq_comm]

/-- All that `completeWith` can do (R15, R111). -/
@[simp] theorem completeWith_eq_next (d : Word) (s t : State) :
    completeWith d s = .next t ↔ t = s.respond ⟨.ok, d⟩ := by
  simp [completeWith, eq_comm]

/-- All that raising an error can do (R213). -/
@[simp] theorem raise_eq_next (e : LcbError) (s t : State) : raise e s = .next t ↔ t = s.respond ⟨.error e, 0⟩ := by
  simp [raise, eq_comm]

/-- What the host presents next: the head of the stream, and the state without it (R95, R97). -/
theorem State.present_eq_some (s : State) (c : Cmd) (s' : State) :
    s.present = some (c, s') ↔ ∃ rest, s.cmds = c :: rest ∧ s' = { s with cmds := rest } := by
  unfold State.present
  split <;> rename_i h <;> simp [h, eq_comm]

/-- The host presents nothing exactly when its stream is empty. -/
theorem State.present_eq_none (s : State) : s.present = none ↔ s.cmds = [] := by
  unfold State.present
  split <;> rename_i h <;> simp [h]

end Sys2Proof.Machine
end

