-- ==== Sys2Proof/Laws/Banks.lean ====
section
/-! SUPPORT. What each bank operation does, once: the fields it leaves, the cells it changes, the count it keeps
(`10_state.md` R24 to R26; `41_bitset.md` R128), and that it keeps `Bank.Ok`. -/

namespace Sys2Proof.Machine

/-! ### Lengths -/

@[simp] theorem Bank.insert_blen (k : Bank) (i : Nat) : (k.insert i).blen = k.blen := by
  unfold Bank.insert; split <;> rfl
@[simp] theorem Bank.orWord_blen (k : Bank) (w : Nat) (v : Word) : (k.orWord w v).blen = k.blen := rfl
@[simp] theorem Bank.orFrom_blen (k src : Bank) : (k.orFrom src).blen = k.blen := rfl
@[simp] theorem Bank.create_blen (len : Word) : (Bank.create len).blen = len := rfl
@[simp] theorem Bank.insert_bits (k : Bank) (i : Nat) : (k.insert i).bits = k.bits := by simp [Bank.bits]
@[simp] theorem Bank.orWord_bits (k : Bank) (w : Nat) (v : Word) : (k.orWord w v).bits = k.bits := rfl
@[simp] theorem Bank.orFrom_bits (k src : Bank) : (k.orFrom src).bits = k.bits := rfl

/-- A valid bank of legal length has at least one byte, and whole bytes and words. -/
theorem Bank.Ok.whole {M : Nat} {k : Bank} (h : k.Ok M) : k.bits = 8 * k.bytes ∧ k.bits = 64 * k.words := by
  unfold Bank.words Bank.bytes
  change k.bits = 8 * (k.bits / 8) ∧ k.bits = 64 * (k.bits / 64)
  rcases h.length with h0 | ⟨h1, _, _⟩
  · have : k.bits = 0 := by simp [Bank.bits, h0]
    omega
  · omega

/-! ### Cells -/

/-- Inserting makes cell `i` 1 and leaves every other cell (R122, R180). -/
theorem Bank.bit_insert (k : Bank) (i j : Nat) (h : Memory.wf k.bm = true) :
    Memory.bit (k.insert i).bm j = (decide (j = i) || Memory.bit k.bm j) := by
  unfold Bank.insert
  split
  · rename_i hb
    by_cases hj : j = i
    · subst hj; simp [hb]
    · simp [hj]
  · exact Memory.bit_setBit k.bm i j h

/-- ORing a word in (R125). -/
theorem Bank.bit_orWord (k : Bank) (w : Nat) (v : Word) (i : Nat) (h : Memory.wf k.bm = true) :
    Memory.bit (k.orWord w v).bm i = (Memory.bit k.bm i || (decide (i / 64 = w) && v.getLsbD (i % 64))) :=
  Memory.bit_orWord k.bm w v i h

/-- ORing another bank's bitmap in (R124). -/
theorem Bank.bit_orFrom (k src : Bank) (i : Nat) (hs : Memory.wf src.bm = true) (h : Memory.wf k.bm = true) :
    Memory.bit (k.orFrom src).bm i = (Memory.bit k.bm i || (decide (i < 8 * k.bytes) && Memory.bit src.bm i)) :=
  Memory.bit_orImage k.bytes src.bm k.bm i hs h

/-! ### Counts -/

/-- `PopBank` computes the population count of the bitmap, cell by cell, without wrapping (R128). -/
theorem Bank.pop_toNat (k : Bank) (h : Memory.wf k.bm = true) (hb : k.bits = 8 * k.bytes) :
    k.pop.toNat = Memory.countBits k.bm k.bits := by
  unfold Bank.pop
  rw [Memory.popImage_eq_countBits _ _ h, ← hb, BitVec.toNat_ofNat, Nat.mod_eq_of_lt]
  exact (Memory.countBits_le k.bm k.bits).trans_lt k.blen.isLt

/-! ### The invariant -/

/-- An invalid bank meets the invariant (R36). -/
theorem Bank.invalid_ok (M : Nat) : Bank.invalid.Ok M := ⟨.inl rfl, rfl, rfl, rfl⟩

/-- A fresh bitmap of a legal length meets the invariant (R120). -/
theorem Bank.create_ok (M : Nat) (len : Word) (h : badSize len.toNat = false) (hM : len.toNat ≤ M) :
    (Bank.create len).Ok M := by
  refine ⟨.inr ?_, ?_, rfl, rfl⟩
  · simp [badSize, Config.gran] at h
    simp only [Bank.bits, Bank.create]
    omega
  · simp [Bank.create, Memory.countBits]

/-- Inserting inside the bitmap keeps the invariant (R25). -/
theorem Bank.insert_ok {M : Nat} {k : Bank} (h : k.Ok M) (i : Nat) (hi : i < k.bits) : (k.insert i).Ok M := by
  have hw := h.whole.1
  unfold Bank.insert
  split
  · exact h
  · rename_i hz
    have hz : Memory.bit k.bm i = false := by simpa using hz
    refine ⟨h.length, ?_, Memory.wf_setBit _ _ h.canonical, ?_⟩
    · change (k.scnt + 1).toNat = Memory.countBits (Memory.setBit k.bm i) k.bits
      have hc := Memory.countBits_setBit k.bm i k.bits h.canonical hi hz
      have hle := Memory.countBits_le (Memory.setBit k.bm i) k.bits
      have hlt : k.bits < 2 ^ 64 := k.blen.isLt
      have h1 : (1 : Word).toNat = 1 := by decide
      rw [BitVec.toNat_add, h.count, hc, h1, Nat.mod_eq_of_lt (by omega)]
    · exact Memory.below_write _ _ _ _ (by change i / 8 < k.bytes; omega) h.inside

/-- Recounting a canonical bitmap of the same length keeps the invariant. -/
theorem Bank.recount_ok {M : Nat} {k : Bank} (h : k.Ok M) (m : Memory) (hm : Memory.wf m = true)
    (hb : Memory.below m k.bytes = true) : (Bank.recount { k with bm := m }).Ok M :=
  ⟨h.length, Bank.pop_toNat { k with bm := m } hm h.whole.1, hm, hb⟩

/-- ORing a word inside the bitmap keeps the invariant (R125). -/
theorem Bank.orWord_ok {M : Nat} {k : Bank} (h : k.Ok M) (w : Nat) (v : Word) (hw : w < k.words) : (k.orWord w v).Ok M :=
  Bank.recount_ok h _ (Memory.wf_orWord _ _ _ h.canonical)
    (Memory.below_orWord _ _ _ _ (by have := h.whole; omega) h.inside)

/-- ORing another bitmap in keeps the invariant (R124). -/
theorem Bank.orFrom_ok {M : Nat} {k src : Bank} (h : k.Ok M) (hs : src.Ok M) : (k.orFrom src).Ok M :=
  Bank.recount_ok h _ (Memory.wf_orImage _ _ _ hs.canonical h.canonical) (Memory.below_orImage _ _ _ h.inside)

end Sys2Proof.Machine
end

