-- ==== Sys2Proof/Laws/Bitmap.lean ====
section
/-! SUPPORT. The laws of the bitmap unit (`41_bitset.md` R131) for the bank operations that the commands call. -/

namespace Sys2Proof.Machine

/-- Two banks that meet the invariant are equal when their lengths and their cells are. -/
theorem Bank.Ok.ext {M : Nat} {k k' : Bank} (h : k.Ok M) (h' : k'.Ok M) (hl : k.blen = k'.blen)
    (hb : ∀ i, i < k.bits → Memory.bit k.bm i = Memory.bit k'.bm i) : k = k' := by
  have hbits : k.bits = k'.bits := by simp [Bank.bits, hl]
  have hbytes : k.bytes = k'.bytes := by simp [Bank.bytes, hl]
  have hm : k.bm = k'.bm := by
    refine Memory.ext_of_read _ _ h.canonical h'.canonical fun a => ?_
    by_cases ha : a < k.bytes
    · refine BitVec.eq_of_getLsbD_eq fun j hj => ?_
      have hc := hb (8 * a + j) (by have := h.whole.1; omega)
      unfold Memory.bit at hc
      rwa [show (8 * a + j) / 8 = a by omega, show (8 * a + j) % 8 = j by omega] at hc
    · rw [Memory.read_of_below _ _ _ h.inside (by omega), Memory.read_of_below _ _ _ h'.inside (by omega)]
  have hs : k.scnt = k'.scnt := BitVec.eq_of_toNat_eq (by rw [h.count, h'.count, hm, hbits])
  cases k
  cases k'
  simp_all

/-! ### Monotonicity (R131 a) -/

theorem Bank.insert_keepsBits {k : Bank} (h : Memory.wf k.bm = true) (i : Nat) : k.KeepsBits (k.insert i) := by
  intro j hj
  rw [Bank.bit_insert k i j h, hj, Bool.or_true]

theorem Bank.orWord_keepsBits {k : Bank} (h : Memory.wf k.bm = true) (w : Nat) (v : Word) : k.KeepsBits (k.orWord w v) := by
  intro j hj
  rw [Bank.bit_orWord k w v j h, hj, Bool.true_or]

theorem Bank.orFrom_keepsBits {k src : Bank} (hs : Memory.wf src.bm = true) (h : Memory.wf k.bm = true) :
    k.KeepsBits (k.orFrom src) := by
  intro j hj
  rw [Bank.bit_orFrom k src j hs h, hj, Bool.true_or]

/-! ### The count invariant (R131 b) -/

/-- On a bank that meets the invariant the cached count is the population count. -/
theorem Bank.Ok.countIsPop {M : Nat} {k : Bank} (h : k.Ok M) : k.CountIsPop :=
  BitVec.eq_of_toNat_eq (by rw [h.count, Bank.pop_toNat k h.canonical h.whole.1])

/-! ### The round trip (R131 c) -/

/-- A copy is the whole bank: with the length, the words fix every cell. -/
theorem Bank.Ok.eq_of_copyOf {M : Nat} {k src : Bank} (h : k.Ok M) (hs : src.Ok M) (hc : k.CopyOf src) : k = src := by
  refine h.ext hs hc.blen fun i hi => ?_
  have hbits : k.bits = src.bits := by simp [Bank.bits, hc.blen]
  have hw := hc.words (i / 64) (by have := hs.whole.2; omega)
  have hj : i % 64 < 64 := Nat.mod_lt _ (by decide)
  rw [← show 64 * (i / 64) + i % 64 = i by omega, ← Memory.word_getLsbD k.bm _ _ hj, hw, Memory.word_getLsbD src.bm _ _ hj]

/-! ### Union (R131 d, e) -/

/-- Inside the bitmap a cell of the union is the OR of the two cells. -/
theorem Bank.bit_orFrom_inside {M : Nat} {k src : Bank} (h : k.Ok M) (hs : src.Ok M) {i : Nat} (hi : i < k.bits) :
    Memory.bit (k.orFrom src).bm i = (Memory.bit k.bm i || Memory.bit src.bm i) := by
  rw [Bank.bit_orFrom k src i hs.canonical h.canonical, decide_eq_true (h.whole.1 ▸ hi : i < 8 * k.bytes), Bool.true_and]

/-- ORing a bitmap in is the exact union of the two index sets. -/
theorem Bank.orFrom_isUnionOf {M : Nat} {k src : Bank} (h : k.Ok M) (hs : src.Ok M) : (k.orFrom src).IsUnionOf k src :=
  ⟨rfl, fun _ hi => Bank.bit_orFrom_inside h hs hi⟩

/-- ORing the same source in twice is ORing it in once. -/
theorem Bank.orFrom_idem {M : Nat} {k src : Bank} (h : k.Ok M) (hs : src.Ok M) :
    (k.orFrom src).orFrom src = k.orFrom src := by
  have h1 := Bank.orFrom_ok h hs
  refine (Bank.orFrom_ok h1 hs).ext h1 rfl fun i hi => ?_
  rw [Bank.bit_orFrom_inside h1 hs hi, Bank.bit_orFrom_inside h hs hi, Bool.or_assoc, Bool.or_self]

/-- Two sources may be ORed in in either order. -/
theorem Bank.orFrom_right_comm {M : Nat} {k a b : Bank} (h : k.Ok M) (ha : a.Ok M) (hb : b.Ok M) :
    (k.orFrom a).orFrom b = (k.orFrom b).orFrom a := by
  have h1 := Bank.orFrom_ok h ha
  have h2 := Bank.orFrom_ok h hb
  refine (Bank.orFrom_ok h1 hb).ext (Bank.orFrom_ok h2 ha) rfl fun i hi => ?_
  rw [Bank.bit_orFrom_inside h1 hb hi, Bank.bit_orFrom_inside h ha hi,
    Bank.bit_orFrom_inside h2 ha hi, Bank.bit_orFrom_inside h hb hi, Bool.or_right_comm]

/-- ORing a union in is ORing its parts in, one after the other. -/
theorem Bank.orFrom_assoc {M : Nat} {k a b : Bank} (h : k.Ok M) (ha : a.Ok M) (hb : b.Ok M) (hl : k.blen = a.blen) :
    k.orFrom (a.orFrom b) = (k.orFrom a).orFrom b := by
  have h1 := Bank.orFrom_ok h ha
  have h2 := Bank.orFrom_ok ha hb
  refine (Bank.orFrom_ok h h2).ext (Bank.orFrom_ok h1 hb) rfl fun i hi => ?_
  have hia : i < (a.orFrom b).bits := by simpa [Bank.bits, hl] using hi
  rw [Bank.bit_orFrom_inside h h2 hi, Bank.bit_orFrom_inside ha hb hia,
    Bank.bit_orFrom_inside h1 hb hi, Bank.bit_orFrom_inside h ha hi, Bool.or_assoc]

/-- Several sources may be ORed into one target in any order. -/
theorem Bank.orAll_perm {M : Nat} {as bs : List Bank} (hp : as.Perm bs) (has : ∀ a ∈ as, a.Ok M) {k : Bank} (h : k.Ok M) :
    k.orAll as = k.orAll bs := by
  unfold Bank.orAll
  induction hp generalizing k with
  | nil => rfl
  | cons a _ ih =>
    exact ih (fun b hb => has b (List.mem_cons_of_mem a hb)) (Bank.orFrom_ok h (has a (List.mem_cons_self ..)))
  | swap a b l =>
    rw [List.foldl_cons, List.foldl_cons, List.foldl_cons, List.foldl_cons,
      Bank.orFrom_right_comm h (has b (by simp)) (has a (by simp))]
  | trans p _ ih1 ih2 => rw [ih1 has h, ih2 (fun b hb => has b (p.mem_iff.2 hb)) h]

end Sys2Proof.Machine
end

