-- ==== Sys2Proof/Laws/Encoding.lean ====
section
/-! SUPPORT. Each field of a command word built by `cmdOf` reads back as it was put in (`30_encoding.md` R80), and a word
is the concatenation of its fields; the number the bytes of a vector carry (R81). -/

namespace Sys2Proof

section
variable (o : Opcode) (rd rs1 rs2 ba bb n : BitVec 4) (imm : Word)

@[simp] theorem opOf_cmdOf : opOf (cmdOf o rd rs1 rs2 ba bb n imm) = o.code := by
  apply BitVec.eq_of_getLsbD_eq
  intro i hi
  simp only [opOf, cmdOf, BitVec.getLsbD_extractLsb', BitVec.getLsbD_append, hi, decide_true, Bool.true_and]
  repeat' split
  all_goals first
    | omega
    | (congr 1; omega)

@[simp] theorem rdOf_cmdOf : rdOf (cmdOf o rd rs1 rs2 ba bb n imm) = rd := by
  apply BitVec.eq_of_getLsbD_eq
  intro i hi
  simp only [rdOf, cmdOf, BitVec.getLsbD_extractLsb', BitVec.getLsbD_append, hi, decide_true, Bool.true_and]
  repeat' split
  all_goals first
    | omega
    | (congr 1; omega)

@[simp] theorem rs1Of_cmdOf : rs1Of (cmdOf o rd rs1 rs2 ba bb n imm) = rs1 := by
  apply BitVec.eq_of_getLsbD_eq
  intro i hi
  simp only [rs1Of, cmdOf, BitVec.getLsbD_extractLsb', BitVec.getLsbD_append, hi, decide_true, Bool.true_and]
  repeat' split
  all_goals first
    | omega
    | (congr 1; omega)

@[simp] theorem rs2Of_cmdOf : rs2Of (cmdOf o rd rs1 rs2 ba bb n imm) = rs2 := by
  apply BitVec.eq_of_getLsbD_eq
  intro i hi
  simp only [rs2Of, cmdOf, BitVec.getLsbD_extractLsb', BitVec.getLsbD_append, hi, decide_true, Bool.true_and]
  repeat' split
  all_goals first
    | omega
    | (congr 1; omega)

@[simp] theorem baOf_cmdOf : baOf (cmdOf o rd rs1 rs2 ba bb n imm) = ba := by
  apply BitVec.eq_of_getLsbD_eq
  intro i hi
  simp only [baOf, cmdOf, BitVec.getLsbD_extractLsb', BitVec.getLsbD_append, hi, decide_true, Bool.true_and]
  repeat' split
  all_goals first
    | omega
    | (congr 1; omega)

@[simp] theorem bbOf_cmdOf : bbOf (cmdOf o rd rs1 rs2 ba bb n imm) = bb := by
  apply BitVec.eq_of_getLsbD_eq
  intro i hi
  simp only [bbOf, cmdOf, BitVec.getLsbD_extractLsb', BitVec.getLsbD_append, hi, decide_true, Bool.true_and]
  repeat' split
  all_goals first
    | omega
    | (congr 1; omega)

@[simp] theorem nOf_cmdOf : nOf (cmdOf o rd rs1 rs2 ba bb n imm) = n := by
  apply BitVec.eq_of_getLsbD_eq
  intro i hi
  simp only [nOf, cmdOf, BitVec.getLsbD_extractLsb', BitVec.getLsbD_append, hi, decide_true, Bool.true_and]
  repeat' split
  all_goals first
    | omega
    | (congr 1; omega)

@[simp] theorem zeroOf_cmdOf : zeroOf (cmdOf o rd rs1 rs2 ba bb n imm) = 0 := by
  apply BitVec.eq_of_getLsbD_eq
  intro i hi
  simp only [zeroOf, cmdOf, BitVec.getLsbD_extractLsb', BitVec.getLsbD_append, hi, decide_true, Bool.true_and]
  repeat' split
  all_goals first
    | omega
    | (congr 1; omega)

@[simp] theorem immOf_cmdOf : immOf (cmdOf o rd rs1 rs2 ba bb n imm) = imm := by
  apply BitVec.eq_of_getLsbD_eq
  intro i hi
  simp only [immOf, cmdOf, BitVec.getLsbD_extractLsb', BitVec.getLsbD_append, hi, decide_true, Bool.true_and]
  repeat' split
  all_goals first
    | omega
    | (congr 1; omega)

/-- A word built by `cmdOf` has the opcode in `op` and 0 in the reserved field. -/
theorem cmdOf_shape :
    opOf (cmdOf o rd rs1 rs2 ba bb n imm) = o.code ∧ zeroOf (cmdOf o rd rs1 rs2 ba bb n imm) = 0 :=
  ⟨opOf_cmdOf .., zeroOf_cmdOf ..⟩

end

/-- A register or bank number survives the four-bit field. -/
@[simp] theorem numOf_nibble (r : Fin 16) : numOf (nibble r) = r := by
  apply Fin.ext
  simp [numOf, nibble]

/-! ### Bytes (R81) -/

/-- The little-endian number of `n` successive bytes of a vector, from byte `k` on. -/
theorem littleEndian_bytesFrom {w : Nat} (v : BitVec w) (k n : Nat) :
    littleEndian ((List.range' k n).map (fun k => v.extractLsb' (8 * k) 8)) = v.toNat / 256 ^ k % 256 ^ n := by
  induction n generalizing k with
  | zero => simp [littleEndian, Nat.mod_one]
  | succ n ih =>
    have hk : 2 ^ (8 * k) = 256 ^ k := by rw [Nat.pow_mul]
    rw [List.range'_succ, List.map_cons, littleEndian, ih, BitVec.extractLsb'_toNat, Nat.shiftRight_eq_div_pow, hk,
      Nat.pow_succ' (n := n), Nat.mod_mul, Nat.div_div_eq_div_mul, ← Nat.pow_succ]

/-- The little-endian number of the low `n` bytes of a vector. -/
theorem littleEndian_bytes {w : Nat} (v : BitVec w) (n : Nat) :
    littleEndian ((List.range n).map (fun k => v.extractLsb' (8 * k) 8)) = v.toNat % 256 ^ n := by
  rw [List.range_eq_range', littleEndian_bytesFrom, Nat.pow_zero, Nat.div_one]

end Sys2Proof
end

