-- ==== Sys2Proof/Laws/Hash.lean ====
section
/-! SUPPORT. What the hash unit's operations do (`43_blockhash.md` R152, R153, R157, R163), and that they keep
`HashUnit.Ok`. -/

namespace Sys2Proof.Machine

theorem blk_pos (v : Variant) : 0 < blk v := by cases v <;> decide
theorem blk_le (v : Variant) : blk v ≤ 16 := by cases v <;> decide
theorem blk_dvd (v : Variant) : blk v ∣ 2 ^ 64 := by cases v <;> decide

/-! ### start -/

@[simp] theorem HashUnit.start_hst (u : HashUnit) (v : Variant) : (u.start v).hst = .active := rfl
@[simp] theorem HashUnit.start_hvar (u : HashUnit) (v : Variant) : (u.start v).hvar = v := rfl
@[simp] theorem HashUnit.start_rlen (u : HashUnit) (v : Variant) : (u.start v).rlen = 0 := rfl
@[simp] theorem HashUnit.start_tlen (u : HashUnit) (v : Variant) : (u.start v).tlen = 0 := rfl
@[simp] theorem HashUnit.start_dg (u : HashUnit) (v : Variant) : (u.start v).dg = 0 := rfl

/-! ### feed -/

@[simp] theorem HashUnit.feedByte_hst (u : HashUnit) (b : Byte) : (u.feedByte b).hst = u.hst := by
  unfold HashUnit.feedByte; simp only; split <;> rfl
@[simp] theorem HashUnit.feedByte_hvar (u : HashUnit) (b : Byte) : (u.feedByte b).hvar = u.hvar := by
  unfold HashUnit.feedByte; simp only; split <;> rfl
@[simp] theorem HashUnit.feedByte_dg (u : HashUnit) (b : Byte) : (u.feedByte b).dg = u.dg := by
  unfold HashUnit.feedByte; simp only; split <;> rfl
@[simp] theorem HashUnit.feedByte_tlen (u : HashUnit) (b : Byte) : (u.feedByte b).tlen = u.tlen + 1 := by
  unfold HashUnit.feedByte; simp only; split <;> rfl

/-- Feeding one chunk after another is feeding the two joined (R163). -/
theorem HashUnit.feed_append (u : HashUnit) (as bs : List Byte) : u.feed (as ++ bs) = (u.feed as).feed bs := by
  induction as generalizing u with
  | nil => rfl
  | cons a as ih => exact ih (u.feedByte a)

/-- What a property needs to survive the feeding of any bytes: to survive each byte. -/
theorem HashUnit.feed_induction {P : HashUnit → Prop} (step : ∀ u b, P u → P (u.feedByte b)) (u : HashUnit)
    (bs : List Byte) (h : P u) : P (u.feed bs) := by
  induction bs generalizing u with
  | nil => exact h
  | cons b bs ih => exact ih _ (step u b h)

@[simp] theorem HashUnit.feed_hst (u : HashUnit) (bs : List Byte) : (u.feed bs).hst = u.hst :=
  HashUnit.feed_induction (P := fun v => v.hst = u.hst) (fun v b h => by simpa using h) u bs rfl
@[simp] theorem HashUnit.feed_hvar (u : HashUnit) (bs : List Byte) : (u.feed bs).hvar = u.hvar :=
  HashUnit.feed_induction (P := fun v => v.hvar = u.hvar) (fun v b h => by simpa using h) u bs rfl
@[simp] theorem HashUnit.feed_dg (u : HashUnit) (bs : List Byte) : (u.feed bs).dg = u.dg :=
  HashUnit.feed_induction (P := fun v => v.dg = u.dg) (fun v b h => by simpa using h) u bs rfl

/-- Feeding adds the number of bytes to `TLEN`, modulo 2^64 (R32). -/
theorem HashUnit.feed_tlen (u : HashUnit) (bs : List Byte) : (u.feed bs).tlen = u.tlen + BitVec.ofNat 64 bs.length := by
  induction bs generalizing u with
  | nil => simp [HashUnit.feed]
  | cons b bs ih =>
    rw [HashUnit.feed, ih, HashUnit.feedByte_tlen, List.length_cons, Nat.add_comm bs.length 1, BitVec.ofNat_add,
      BitVec.add_assoc]
    rfl

/-! ### Lanes stay narrow in the 32-bit variants (R37 I5) -/

/-- Bits 63:32 of every lane are 0. -/
def Lanes.Narrow (h : Lanes) : Prop := ∀ i : Fin 4, (h[i]).toNat < 2 ^ 32

theorem laneWord_lt (v : Word32) : (laneWord v).toNat < 2 ^ 32 := by
  have := v.isLt
  simp only [laneWord, BitVec.toNat_setWidth]
  omega

theorem Lanes.narrow_set (h : Lanes) (hn : h.Narrow) (j : Fin 4) (v : Word32) : Lanes.Narrow (h.set j (laneWord v)) := by
  intro i
  simp only [Fin.getElem_fin, Vector.getElem_set]
  split
  · exact laneWord_lt v
  · exact hn i

theorem Lanes.narrow_lanesOf (a b c d : Word32) :
    Lanes.Narrow (lanesOf (laneWord a) (laneWord b) (laneWord c) (laneWord d)) := by
  intro i
  match i with
  | 0 => exact laneWord_lt a
  | 1 => exact laneWord_lt b
  | 2 => exact laneWord_lt c
  | 3 => exact laneWord_lt d

theorem roundOf_narrow (v : Variant) (hv : v ≠ .x64_128) (h : Lanes) (hn : h.Narrow) (buf : Residual) :
    (roundOf v h buf).Narrow := by
  cases v with
  | x86_32 => exact Lanes.narrow_set h hn 0 _
  | x86_128 => exact Lanes.narrow_lanesOf _ _ _ _
  | x64_128 => exact absurd rfl hv

theorem finalOf_narrow (v : Variant) (hv : v ≠ .x64_128) (h : Lanes) (hn : h.Narrow) (buf : Residual) (n : Nat) (t : Word) :
    (finalOf v h buf n t).Narrow := by
  cases v with
  | x86_32 => exact Lanes.narrow_set h hn 0 _
  | x86_128 => exact Lanes.narrow_lanesOf _ _ _ _
  | x64_128 => exact absurd rfl hv

/-! ### The invariant -/

/-- The unit meets the invariant after reset (R36). -/
theorem HashUnit.reset_ok : HashUnit.reset.Ok :=
  ⟨fun h => by simp [HashUnit.reset] at h, fun _ i => by simp [HashUnit.reset], fun _ => rfl⟩

/-- `HINIT` starts a computation that meets the invariant (R152). -/
theorem HashUnit.start_ok (u : HashUnit) (v : Variant) : (u.start v).Ok := by
  refine ⟨fun _ => ⟨?_, ?_⟩, fun _ i => ?_, fun h => ?_⟩
  · simpa using blk_pos v
  · simp
  · simp [HashUnit.start, Config.hseed]
  · simp at h

/-- Feeding a byte to an active unit keeps the invariant (R31, R153). -/
theorem HashUnit.feedByte_ok {u : HashUnit} (h : u.Ok) (ha : u.hst = .active) (b : Byte) : (u.feedByte b).Ok := by
  obtain ⟨hlt, heq⟩ := h.residual ha
  have hle := blk_le u.hvar
  have htl : (u.tlen + 1).toNat % blk u.hvar = (u.rlen.val + 1) % blk u.hvar := by
    rw [BitVec.toNat_add, Nat.mod_mod_of_dvd _ (blk_dvd u.hvar), Nat.add_mod, ← heq]
    simp
  unfold HashUnit.feedByte
  simp only
  split
  · rename_i he
    refine ⟨fun _ => ⟨blk_pos _, ?_⟩, fun hv => roundOf_narrow _ hv _ (h.narrow hv) _, fun _ => rfl⟩
    simp only [htl, he, Nat.mod_self]
    rfl
  · rename_i hne
    have hv : (u.rlen + 1).val = u.rlen.val + 1 := by
      have h16 : u.rlen.val + 1 < 16 := by omega
      simp [Fin.val_add, Nat.mod_eq_of_lt h16]
    refine ⟨fun _ => ⟨?_, ?_⟩, fun hv => h.narrow hv, fun hf => ?_⟩
    · simp only [hv]; omega
    · simp only [htl, hv]
      exact (Nat.mod_eq_of_lt (by omega)).symm
    · simp only [ha] at hf; cases hf

/-- Feeding bytes to an active unit keeps the invariant. -/
theorem HashUnit.feed_ok {u : HashUnit} (h : u.Ok) (ha : u.hst = .active) (bs : List Byte) : (u.feed bs).Ok :=
  (HashUnit.feed_induction (P := fun v => v.Ok ∧ v.hst = .active)
    (fun v b hv => ⟨HashUnit.feedByte_ok hv.1 hv.2 b, by simpa using hv.2⟩) u bs ⟨h, ha⟩).1

/-- `HFIN` keeps the invariant (R157). -/
theorem HashUnit.finish_ok {u : HashUnit} (h : u.Ok) : u.finish.Ok :=
  ⟨fun h => by simp [HashUnit.finish] at h, fun hv => finalOf_narrow _ hv _ (h.narrow hv) _ _ _, fun _ => rfl⟩

@[simp] theorem HashUnit.finish_hst (u : HashUnit) : u.finish.hst = .final := rfl
@[simp] theorem HashUnit.finish_hvar (u : HashUnit) : u.finish.hvar = u.hvar := rfl
@[simp] theorem HashUnit.finish_tlen (u : HashUnit) : u.finish.tlen = u.tlen := rfl
@[simp] theorem HashUnit.finish_rlen (u : HashUnit) : u.finish.rlen = 0 := rfl

end Sys2Proof.Machine
end

