-- ==== Sys2Proof/Laws/Host.lean ====
section
/-! SUPPORT. What running a session does, once for each way to put sessions together (`30_encoding.md` R95, R96), and that
the words and the bytes of a dump are the same data (`41_bitset.md` R129, R130). -/

namespace Sys2Proof.Machine

/-! ### Running a session -/

@[simp] theorem Session.run_done {α : Type} (a : α) (s : State) : (Session.done a).run s = some (a, s) := rfl

@[simp] theorem HostOp.run_ok {α : Type} (a : α) (s : State) : (HostOp.ok a).run s = some (.ok a, s) := rfl

@[simp] theorem HostOp.run_fail {α : Type} (e : LcbError) (s : State) :
    (HostOp.fail e : HostOp α).run s = some (.error e, s) := rfl

/-- A session that issues a command is one transaction and then the session its response selects. -/
theorem Session.run_issue {α : Type} (i : Instr) (next : Response → Session α) (s : State) :
    (Session.issue i next).run s = (s.answer i).bind (fun p => (next p.1).run p.2) := rfl

/-- A session and then another runs the one and then the other. -/
theorem Session.run_bind {α β : Type} (p : Session α) (f : α → Session β) (s : State) :
    (p.bind f).run s = (p.run s).bind (fun q => (f q.1).run q.2) := by
  induction p generalizing s with
  | done a => rfl
  | issue i next ih =>
    rw [Session.bind, Session.run_issue, Session.run_issue]
    cases s.answer i with
    | none => rfl
    | some q => exact ih q.1 q.2

/-- After success the next operation runs, on the state the first left. -/
theorem HostOp.run_andThen_ok {α β : Type} {p : HostOp α} {s t : State} {a : α} (h : p.run s = some (.ok a, t))
    (f : α → HostOp β) : (HostOp.andThen p f).run s = (f a).run t := by
  rw [HostOp.andThen, Session.run_bind, h]
  rfl

/-- After an error nothing more is issued (R184). -/
theorem HostOp.run_andThen_error {α β : Type} {p : HostOp α} {s t : State} {e : LcbError}
    (h : p.run s = some (.error e, t)) (f : α → HostOp β) : (HostOp.andThen p f).run s = some (.error e, t) := by
  rw [HostOp.andThen, Session.run_bind, h]
  rfl

/-- One transaction, for a command whose word decodes to it: `exec` on the state with any waiting response taken, and the
response of that command taken in turn (R95). -/
theorem State.answer_eq {s t : State} {i : Instr} {r : Response} (hd : decodeWord s.cfg.nbank (encode i) = .ok i)
    (h : exec i s.takeRsp = .next t) (hr : t.rsp = some r) : s.answer i = some (r, t.takeRsp) := by
  have hs : step (s.offer (encode i)) = exec i s.takeRsp := by
    simp only [step, State.offer_rsp, State.present, State.offer_cmds, State.offer_cfg, hd]
    rfl
  simp only [State.answer, hs, h, hr, Option.map_some]

/-- Sending a command answers what its response says. -/
theorem run_send {s t : State} {i : Instr} {r : Response} (hd : decodeWord s.cfg.nbank (encode i) = .ok i)
    (h : exec i s.takeRsp = .next t) (hr : t.rsp = some r) : (send i).run s = some (r.result, t.takeRsp) := by
  rw [send, Session.run_issue, State.answer_eq hd h hr]
  rfl

/-- Sending commands in order goes on after a success. -/
theorem run_sendAll_cons {s t : State} {i : Instr} {is : List Instr} {d : Word} (h : (send i).run s = some (.ok d, t)) :
    (sendAll (i :: is)).run s = (sendAll is).run t :=
  HostOp.run_andThen_ok h _

/-- Two lists of commands, one after the other. -/
theorem run_sendAll_append {s t : State} {is js : List Instr} (h : (sendAll is).run s = some (.ok (), t)) :
    (sendAll (is ++ js)).run s = (sendAll js).run t := by
  induction is generalizing s with
  | nil =>
    obtain rfl : s = t := by simpa [sendAll] using h
    rfl
  | cons i is ih =>
    rw [sendAll, HostOp.andThen, Session.run_bind] at h
    rw [List.cons_append, sendAll, HostOp.andThen, Session.run_bind]
    cases hr : (send i).run s with
    | none => simp [hr] at h
    | some q =>
      obtain ⟨a, u⟩ := q
      rw [hr] at h
      cases a with
      | error e => simp at h
      | ok d => exact ih h

/-! ### The words and the bytes of a dump -/

@[simp] theorem length_chunk (v : Word) (n : Nat) : (chunk v n).length = n := by simp [chunk]

@[simp] theorem length_bytesOfWords (ws : List Word) : (bytesOfWords ws).length = 8 * ws.length := by
  induction ws with
  | nil => rfl
  | cons v vs ih => rw [bytesOfWords, List.length_append, ih, length_chunk, List.length_cons]; omega

/-- The eight bytes of a word are the word (R52). -/
theorem littleEndian_chunk (v : Word) : BitVec.ofNat 64 (littleEndian (chunk v 8)) = v := by
  apply BitVec.eq_of_toNat_eq
  rw [show littleEndian (chunk v 8) = v.toNat % 256 ^ 8 from littleEndian_bytes v 8, BitVec.toNat_ofNat]
  have := v.isLt
  omega

/-- Reading the words back from their bytes gives the words (R129, R130). -/
@[simp] theorem wordsOfBytes_bytesOfWords (ws : List Word) : wordsOfBytes (bytesOfWords ws) = ws := by
  induction ws with
  | nil => rfl
  | cons v vs ih =>
    have h : chunk v 8 = [chunkByte v 0, chunkByte v 1, chunkByte v 2, chunkByte v 3, chunkByte v 4, chunkByte v 5,
        chunkByte v 6, chunkByte v 7] := rfl
    have hv := littleEndian_chunk v
    rw [h] at hv
    rw [bytesOfWords, h]
    simp only [List.cons_append, List.nil_append, wordsOfBytes, hv, ih]

/-- Byte `k` of storage word `w` is byte `8 * w + k` of the dump image (R52). -/
theorem chunkByte_word (m : Memory) (w k : Nat) (hk : k < 8) :
    chunkByte (Memory.word m w) k = Memory.read m (8 * w + k) := by
  apply BitVec.eq_of_getLsbD_eq
  intro j hj
  rw [chunkByte, BitVec.getLsbD_extractLsb', Memory.word_getLsbD m w _ (by omega), Memory.bit,
    show (64 * w + (8 * k + j)) / 8 = 8 * w + k by omega, show (64 * w + (8 * k + j)) % 8 = j by omega]
  simp [hj]

/-- The bytes of the first `n` storage words are the first `8 * n` bytes of the dump image (R52, R130). -/
theorem bytesOfWords_words (m : Memory) (n : Nat) :
    bytesOfWords ((List.range n).map (Memory.word m)) = Memory.image m (8 * n) := by
  suffices h : ∀ w, bytesOfWords ((List.range' w n).map (Memory.word m)) = (List.range' (8 * w) (8 * n)).map (Memory.read m)
    by simpa [List.range_eq_range', Memory.image] using h 0
  induction n with
  | zero => intro w; rfl
  | succ n ih =>
    intro w
    have hc : chunk (Memory.word m w) 8 = (List.range' (8 * w) 8).map (Memory.read m) := by
      rw [List.range'_eq_map_range, List.map_map]
      exact List.map_congr_left fun k hk => chunkByte_word m w k (List.mem_range.1 hk)
    rw [List.range'_succ, List.map_cons, bytesOfWords, ih, hc, ← List.map_append,
      show 8 * (w + 1) = 8 * w + 1 * 8 by omega, List.range'_append, show 8 + 8 * n = 8 * (n + 1) by omega]

end Sys2Proof.Machine
end

