-- ==== Sys2Proof/Laws/PerInstr.lean ====
section
/-! SUPPORT. One lemma for each constructor of `Instr`: its encoding carries its opcode and a zero reserved field
(`30_encoding.md` R80, R84, R85). -/

namespace Sys2Proof.Laws.EncodesItsOpcode

/-- The command word has the command's opcode in `op` and 0 in the reserved field. -/
def Statement (i : Instr) : Prop := opOf (encode i) = i.opcode.code ∧ zeroOf (encode i) = 0

theorem ldi (rd : RegNo) (imm : Word) : Statement (.ldi rd imm) := cmdOf_shape ..
theorem rdr (rs1 : RegNo) : Statement (.rdr rs1) := cmdOf_shape ..
theorem bcreate (ba : BankNo) (rs1 : RegNo) : Statement (.bcreate ba rs1) := cmdOf_shape ..
theorem bget (rd : RegNo) (ba : BankNo) (rs1 : RegNo) : Statement (.bget rd ba rs1) := cmdOf_shape ..
theorem bset (ba : BankNo) (rs1 : RegNo) : Statement (.bset ba rs1) := cmdOf_shape ..
theorem bpop (rd : RegNo) (ba : BankNo) : Statement (.bpop rd ba) := cmdOf_shape ..
theorem bor (ba bb : BankNo) : Statement (.bor ba bb) := cmdOf_shape ..
theorem borw (ba : BankNo) (rs1 rs2 : RegNo) : Statement (.borw ba rs1 rs2) := cmdOf_shape ..
theorem brdw (rd : RegNo) (ba : BankNo) (rs1 : RegNo) : Statement (.brdw rd ba rs1) := cmdOf_shape ..
theorem fmix32 (rd rs1 : RegNo) : Statement (.fmix32 rd rs1) := cmdOf_shape ..
theorem fmix64 (rd rs1 : RegNo) : Statement (.fmix64 rd rs1) := cmdOf_shape ..
theorem hinit (v : Variant) : Statement (.hinit v) := cmdOf_shape ..
theorem hput (rs1 : RegNo) (k : ByteCount) : Statement (.hput rs1 k) := cmdOf_shape ..
theorem hfin : Statement .hfin := cmdOf_shape ..
theorem hdig (rd : RegNo) (sel : DigestSel) : Statement (.hdig rd sel) := cmdOf_shape ..
theorem bput (ba : BankNo) (rs1 : RegNo) : Statement (.bput ba rs1) := cmdOf_shape ..
theorem bcnt (rd : RegNo) (ba : BankNo) : Statement (.bcnt rd ba) := cmdOf_shape ..
theorem bsize (rd : RegNo) (ba : BankNo) : Statement (.bsize rd ba) := cmdOf_shape ..

end Sys2Proof.Laws.EncodesItsOpcode
end

