-- ==== Sys2Proof/Tests/Slice0.lean ====
section
/-! SUPPORT. The model's own tests: what `WellFormed` refuses; command words written out from `30_encoding.md`, the command
files and `95_test_vectors.md`, decoded; single commands on small states, with the values the spec prints; and, for every
statement of `Obligations.lean` that has hypotheses, a state and operands that meet them, clause by clause. -/

namespace Sys2Proof.Tests

open Sys2Proof Sys2Proof.Machine

/-! ### WellFormed (R88) -/

theorem test_wellFormed_refuses_bank_a_at_nbank : (Instr.bset 4 0).wellFormed 4 = false := by decide
theorem test_wellFormed_refuses_bank_b_at_nbank : (Instr.bor 0 4).wellFormed 4 = false := by decide
theorem test_wellFormed_refuses_bank_a_of_bor : (Instr.bor 4 0).wellFormed 4 = false := by decide
theorem test_wellFormed_accepts_the_last_bank : (Instr.bor 3 3).wellFormed 4 = true := by decide

/-! ### Decoding: one word for every constructor -/

/-- R81's word. -/
theorem test_decode_ldi : decodeWord 4 0x00000000000000640000000000000201 = .ok (.ldi 2 100) := by decide
/-- R111's word. -/
theorem test_decode_rdr : decodeWord 4 0x00000000000000000000000000007002 = .ok (.rdr 7) := by decide
/-- P6, step 38. -/
theorem test_decode_bcreate : decodeWord 4 0x00000000000000000000000000101010 = .ok (.bcreate 1 1) := by decide
/-- R121's word. -/
theorem test_decode_bget : decodeWord 4 0x00000000000000000000000000102711 = .ok (.bget 7 1 2) := by decide
/-- P6, step 42. -/
theorem test_decode_bset : decodeWord 4 0x00000000000000000000000000103012 = .ok (.bset 1 3) := by decide
/-- R123's word. -/
theorem test_decode_bpop : decodeWord 4 0x00000000000000000000000000100513 = .ok (.bpop 5 1) := by decide
/-- R124's second word: the source is `bb`, the target `ba`. -/
theorem test_decode_bor : decodeWord 4 0x00000000000000000000000001200014 = .ok (.bor 2 1) := by decide
/-- R125's word: index register, then data register. -/
theorem test_decode_borw : decodeWord 4 0x00000000000000000000000000143015 = .ok (.borw 1 3 4) := by decide
/-- R126's word. -/
theorem test_decode_brdw : decodeWord 4 0x00000000000000000000000000003416 = .ok (.brdw 4 0 3) := by decide
/-- R142's word. -/
theorem test_decode_fmix32 : decodeWord 4 0x00000000000000000000000000002320 = .ok (.fmix32 3 2) := by decide
/-- R143's word. -/
theorem test_decode_fmix64 : decodeWord 4 0x00000000000000000000000000002421 = .ok (.fmix64 4 2) := by decide
/-- R152's word. -/
theorem test_decode_hinit : decodeWord 4 0x00000000000000000000000020000030 = .ok (.hinit .x64_128) := by decide
/-- R153's word. -/
theorem test_decode_hput : decodeWord 4 0x00000000000000000000000030005031 = .ok (.hput 5 3) := by decide
/-- R157's word. -/
theorem test_decode_hfin : decodeWord 4 0x00000000000000000000000000000032 = .ok .hfin := by decide
/-- R162's word. -/
theorem test_decode_hdig : decodeWord 4 0x00000000000000000000000020000633 = .ok (.hdig 6 .fold) := by decide
/-- R180's word. -/
theorem test_decode_bput : decodeWord 4 0x00000000000000000000000000003040 = .ok (.bput 0 3) := by decide
/-- R181's word. -/
theorem test_decode_bcnt : decodeWord 4 0x00000000000000000000000000000741 = .ok (.bcnt 7 0) := by decide
/-- R182's word. -/
theorem test_decode_bsize : decodeWord 4 0x00000000000000000000000000100842 = .ok (.bsize 8 1) := by decide

/-- The raw words of P4 are illegal, each for the reason R86 gives. -/
theorem test_decode_illegal :
    decodeWord 4 0 = .error (.unknownOpcode 0) ∧
    decodeWord 4 0x7f = .error (.unknownOpcode 0x7f) ∧
    decodeWord 4 0x132 = .error .unusedField ∧
    decodeWord 4 0x30000030 = .error .nOutOfRange ∧
    decodeWord 4 0x90001031 = .error .nOutOfRange ∧
    decodeWord 4 0x400113 = .error .bankOutOfRange ∧
    decodeWord 4 0x00000000000000050000000100000101 = .error .reservedBits ∧
    decodeWord 4 0xffffffffffffffffffffffffffffffff = .error .reservedBits ∧
    decodeWord 4 0x30000133 = .error .nOutOfRange ∧
    decodeWord 4 0x00000000000000070000000000001002 = .error .unusedField := by decide

/-- R81: the same word as sixteen bytes, byte 0 the opcode, bytes 8 to 15 the immediate. -/
theorem test_decode_bytes :
    decode 4 [0x01, 0x02, 0, 0, 0, 0, 0, 0, 0x64, 0, 0, 0, 0, 0, 0, 0] = .ok (.ldi 2 100) ∧
    decode 4 [0x01, 0x02, 0, 0, 0, 0, 0, 0, 0x64, 0, 0, 0, 0, 0, 0] = .error .notSixteenBytes := by decide

theorem test_decodeTableWord : decodeTableWord 32 0x30005031 = some (.hput 5 3) := by decide

/-- R92's operand order, on R125's and R162's examples. -/
theorem test_assemble :
    parseLine "BORW b1, x3, x4 # one word" = some [.borw 1 3 4] ∧ parseLine "HDIG x6, FOLD" = some [.hdig 6 .fold] ∧
    parseLine "LDI x1, 0x2000" = some [.ldi 1 8192] ∧ parseLine "BSET b16, x0" = none := by decide +kernel

/-- The model's own choices of log entry 13: a number out of R87's range is refused, leading zeros are not. -/
theorem test_assemble_choices :
    parseLine "HINIT 3" = none ∧ parseLine "HPUT x1, 9" = none ∧ parseLine "HDIG x1, 3" = none ∧
    parseLine "BSET b15, x007" = some [.bset 15 7] := by decide +kernel

/-! ### Small states -/

/-- A field of the state a command leaves, if it leaves one. -/
def after {α : Type} (r : Result) (f : State → α) : Option α :=
  match r with
  | .next t => some (f t)
  | .fault _ => none
  | .refused _ => none

/-- The bank of P3: 8192 bits, of which 0, 63, 64, 77 and 8191 are set. -/
def bankP3 : Bank := ((((Bank.create 8192).insert 0).insert 63).insert 64).insert 77 |>.insert 8191

/-- A bank of 8192 bits with bit 1 set. -/
def bankOne : Bank := (Bank.create 8192).insert 1

/-- Five banks: 0 as in P3, 1 and 3 of 8192 bits, 2 of 16384 bits and empty, 4 invalid; boundary values in the registers;
the hash unit idle. -/
def demo : State :=
  { State.resetWith ⟨5, 8388608⟩ with
    x := #v[0, 8192, 8191, 127, 128, 77, 16384, 0x802000, 100, 0xffffffffffffffff, 0x8000000000000001, 0x303031,
            8388608, 255, 0x3030, 8193]
    banks := #v[bankP3, bankOne, Bank.create 16384, Bank.create 8192, Bank.invalid, Bank.invalid, Bank.invalid,
                Bank.invalid, Bank.invalid, Bank.invalid, Bank.invalid, Bank.invalid, Bank.invalid, Bank.invalid,
                Bank.invalid, Bank.invalid] }

/-- The same with a hash computation of variant `v` started. -/
def demoActive (v : Variant) : State := demo.setHash (demo.hash.start v)

/-- The same with the three bytes "100" fed. -/
def demoFed (v : Variant) : State := demo.setHash ((demo.hash.start v).feed (chunk 0x303031 3))

/-- The same finalized. -/
def demoFinal (v : Variant) : State := demo.setHash (((demo.hash.start v).feed (chunk 0x303031 3)).finish)

/-! ### One command each -/

/-- R110's example. -/
theorem test_ldi : after (exec (.ldi 2 100) demo) (fun t => (t.reg 2, t.rsp)) = some (100, some ⟨.ok, 0⟩) := by decide
/-- R111: the register is the response's data. -/
theorem test_rdr : after (exec (.rdr 5) demo) (fun t => t.rsp) = some (some ⟨.ok, 77⟩) := by decide
/-- R120 d, the largest length, and its response. -/
theorem test_bcreate_largest :
    after (exec (.bcreate 4 12) demo) (fun t => (t.bank 4, t.rsp)) = some (⟨8388608, 0, []⟩, some ⟨.ok, 0⟩) := by decide
/-- P4, steps 15 and 19: 100 and 0x802000. -/
theorem test_bcreate_refuses :
    after (exec (.bcreate 0 8) demo) (fun t => t.rsp) = some (some ⟨.error .sizeError, 0⟩) ∧
    after (exec (.bcreate 0 7) demo) (fun t => t.rsp) = some (some ⟨.error .capacityError, 0⟩) := by decide
/-- R121's example, and P3's step 39. -/
theorem test_bget :
    after (exec (.bget 7 0 2) demo) (fun t => t.reg 7) = some 1 ∧
    after (exec (.bget 7 0 1) demo) (fun t => (t.reg 7, t.rsp)) = some (0x802000, some ⟨.error .rangeError, 0⟩) := by decide
/-- R122's example: a fresh bank, bit 77. -/
theorem test_bset :
    after (exec (.bset 3 5) demo) (fun t => ((t.bank 3).scnt, Memory.bit (t.bank 3).bm 77)) = some (1, true) := by decide
/-- R122: a bit that is set already changes nothing. -/
theorem test_bset_again : after (exec (.bset 0 5) demo) (fun t => t.bank 0) = some bankP3 := by decide
/-- R123's example. -/
theorem test_bpop : after (exec (.bpop 5 0) demo) (fun t => t.reg 5) = some 5 := by decide
/-- R124: the union of {0, 63, 64, 77, 8191} and {1}, the source untouched. -/
theorem test_bor :
    after (exec (.bor 0 1) demo) (fun t => ((t.bank 0).scnt, Memory.word (t.bank 0).bm 0, t.bank 1))
      = some (6, 0x8000000000000003, bankOne) := by decide
/-- R124: lengths differ. -/
theorem test_bor_mismatch :
    after (exec (.bor 0 2) demo) (fun t => t.rsp) = some (some ⟨.error .sizeMismatchError, 0⟩) := by decide
/-- R125's example: word 0 of a fresh bank. -/
theorem test_borw :
    after (exec (.borw 3 0 10) demo) (fun t => ((t.bank 3).scnt, Memory.bit (t.bank 3).bm 0, Memory.bit (t.bank 3).bm 63))
      = some (2, true, true) := by decide
/-- R126: words 1 and 127 of P3's bank (P3, steps 20 and 24), and word 128. -/
theorem test_brdw :
    Memory.word bankP3.bm 1 = 0x2001 ∧ after (exec (.brdw 4 0 3) demo) (fun t => t.reg 4) = some 0x8000000000000000 ∧
    after (exec (.brdw 4 0 4) demo) (fun t => t.rsp) = some (some ⟨.error .rangeError, 0⟩) := by decide
/-- R142's example. -/
theorem test_fmix32 : after (exec (.fmix32 3 8) demo) (fun t => t.reg 3) = some 0xfdce5cea := by decide +kernel
/-- R143's example. -/
theorem test_fmix64 : after (exec (.fmix64 4 8) demo) (fun t => t.reg 4) = some 0xe6be2c94a54a2c62 := by decide +kernel
/-- R152: a restart from `FINAL`. -/
theorem test_hinit :
    after (exec (.hinit .x86_128) (demoFinal .x64_128)) (fun t => (t.hash.hst, t.hash.hvar, t.hash.dg, t.hash.tlen))
      = some (.active, .x86_128, 0, 0) := by decide +kernel
/-- R153's example: three bytes, no round. -/
theorem test_hput :
    after (exec (.hput 11 3) (demoActive .x64_128)) (fun t => (t.hash.rlen, t.hash.tlen, t.hash.h, t.hash.rbuf[2]))
      = some (3, 3, #v[0, 0, 0, 0], 0x30) := by decide +kernel
/-- P4, step 1: no computation has been started. -/
theorem test_hput_idle : after (exec (.hput 11 3) demo) (fun t => t.rsp) = some (some ⟨.error .hashStateError, 0⟩) := by
  decide
/-- R157's example. -/
theorem test_hfin_x64_128 :
    after (exec .hfin (demoFed .x64_128)) (fun t => t.hash.dg) = some 0xc010a050c7a40b250e7033a16a3529d0 := by decide +kernel
/-- R158's and R159's traces. -/
theorem test_hfin_x86 :
    after (exec .hfin (demoFed .x86_32)) (fun t => t.hash.h[0]) = some 0xce91997f ∧
    after (exec .hfin (demoFed .x86_128)) (fun t => t.hash.h)
      = some #v[0x4aea7d78, 0x5763edf9, 0x5763edf9, 0x5763edf9] := by decide +kernel
/-- R162's example. -/
theorem test_hdig : after (exec (.hdig 6 .fold) (demoFinal .x64_128)) (fun t => t.reg 6) = some 0xce6093f1ad9122f5 := by
  decide +kernel
/-- R180 c: the largest value goes to bit 8191. -/
theorem test_bput :
    after (exec (.bput 3 9) demo) (fun t => ((t.bank 3).scnt, Memory.bit (t.bank 3).bm 8191)) = some (1, true) := by decide
/-- R181. -/
theorem test_bcnt : after (exec (.bcnt 7 0) demo) (fun t => t.reg 7) = some 5 := by decide
/-- R182: 16384 bits are 2 KiB. -/
theorem test_bsize : after (exec (.bsize 8 2) demo) (fun t => t.reg 8) = some 2 := by decide

/-- As P4, step 27: a bank field at or above `NBANK` is answered and nothing else happens. -/
theorem test_step_illegal :
    after (step (demo.offer 0x700113)) (fun t => (t.rsp, t.banks, t.x)) =
      some (some ⟨.error .illegalCommand, 0⟩, demo.banks, demo.x) := by decide

/-- R91: `SizeMismatchError` is the 72-bit word 2; the data lies above the status. -/
theorem test_response_word :
    Response.word ⟨.error .sizeMismatchError, 0⟩ = 2 ∧ Response.word ⟨.ok, 0x2001⟩ = 0x200100 := by decide

/-- R129: a dump of eight bytes, its zero word skipped. -/
theorem test_import :
    wordsOfBytes [0x01, 0x20, 0, 0, 0, 0, 0, 0] = [0x2001] ∧
    importCmds 1 3 4 0 [0, 0x2001] = [.ldi 3 1, .ldi 4 0x2001, .borw 1 3 4] := by decide

/-- R130: a storage word is written as eight bytes, least significant first. -/
theorem test_export : bytesOfWords [0x2001] = [0x01, 0x20, 0, 0, 0, 0, 0, 0] := by decide

/-- R161 on the traces of R158 and R160: four bytes, and sixteen, the least significant first. -/
theorem test_digestBytes :
    digestBytes .x86_32 0xce91997f = [0x7f, 0x99, 0x91, 0xce] ∧
    digestBytes .x64_128 0xc010a050c7a40b250e7033a16a3529d0 =
      [0xd0, 0x29, 0x35, 0x6a, 0xa1, 0x33, 0x70, 0x0e, 0x25, 0x0b, 0xa4, 0xc7, 0x50, 0xa0, 0x10, 0xc0] := by decide

/-- R188: no input, unequal sizes, equal sizes. -/
theorem test_mergeCheck :
    mergeCheck [] = .error .emptyInputError ∧ mergeCheck [1, 2] = .error .sizeMismatchError ∧ mergeCheck [32, 32] = .ok 32 := by
  decide

/-! ### Host sessions -/

/-- What a session answers, and the status codes of the responses the block gave during it, oldest first. -/
def session {α : Type} (p : HostOp α) (s : State) : Option (Except LcbError α × List Nat) :=
  (p.run s).map (fun q => (q.1, q.2.trace.map (fun r => r.status.code.toNat)))

/-- R183: 0 KiB is refused by the block for its size, 1025 KiB for the capacity; 2^51 KiB and more, which fit no register,
for the capacity, with nothing issued. -/
theorem test_create :
    session (create 4 1 0) demo = some (.error .sizeError, [0, 1]) ∧
    session (create 4 1 1025) demo = some (.error .capacityError, [0, 0x14]) ∧
    session (create 4 1 (2 ^ 51)) demo = some (.error .capacityError, []) ∧
    session (create 4 1 (2 ^ 51 + 1)) demo = some (.error .capacityError, []) := by decide +kernel

/-- R184, R191 g: a buffer of 1025 bytes is refused by the `BCREATE`, and no `BORW` follows. -/
theorem test_restore_broken : session (restore 0 1 2 (List.replicate 1025 1)) demo = some (.error .sizeError, [0, 1]) := by
  decide +kernel

/-- R187, R186: the size in KiB, and the numbers of the estimate. -/
theorem test_size :
    session (size 2 8) demo = some (.ok 2, [0, 0]) ∧ session (estimateInputs 0 8) demo = some (.ok (8192, 5), [0, 0, 0, 0]) ∧
    session (size 4 8) demo = some (.error .bankInvalid, [0x11]) := by decide +kernel

/-- R188: nothing to merge; two sizes that differ, so nothing is created; a union in a free bank. -/
theorem test_merge :
    session (merge 4 1 [] (by decide)) demo = some (.error .emptyInputError, []) ∧
    session (merge 4 1 [0, 2] (by decide)) demo = some (.error .sizeMismatchError, [0, 0, 0, 0]) ∧
    ((merge 4 1 [0, 1] (by decide)).run demo).map (fun q => (q.1, (q.2.bank 4).scnt, q.2.bank 0))
      = some (.ok (), 6, bankP3) := by decide +kernel

/-- R189: nothing to merge; a target of another size; a union in the target. -/
theorem test_mergeInto :
    session (mergeInto 3 1 []) demo = some (.error .emptyInputError, []) ∧
    session (mergeInto 2 1 [0, 1]) demo = some (.error .sizeMismatchError, [0, 0, 0, 0, 0, 0]) ∧
    ((mergeInto 3 1 [0, 1]).run demo).map (fun q => (q.1, (q.2.bank 3).scnt, q.2.bank 1)) = some (.ok (), 6, bankOne) := by
  decide +kernel

/-! ### The demo state meets the invariants -/

theorem demo_params_legal : demo.cfg.Legal := by decide

theorem fresh_ok : (Bank.create 8192).Ok 8388608 := Bank.create_ok _ _ (by decide) (by decide)

theorem bankP3_ok : bankP3.Ok 8388608 :=
  Bank.insert_ok (Bank.insert_ok (Bank.insert_ok (Bank.insert_ok (Bank.insert_ok fresh_ok 0 (by decide)) 63 (by decide)) 64
    (by decide)) 77 (by decide)) 8191 (by decide)

theorem bankOne_ok : bankOne.Ok 8388608 := Bank.insert_ok fresh_ok 1 (by decide)

theorem demo_upper_banks_invalid : ∀ b : BankNo, 4 ≤ b.val → demo.bank b = Bank.invalid := by decide

theorem demo_banks_ok (b : BankNo) : (demo.bank b).Ok 8388608 := by
  by_cases h : 4 ≤ b.val
  · rw [demo_upper_banks_invalid b h]
    exact Bank.invalid_ok _
  · obtain rfl | rfl | rfl | rfl : b = 0 ∨ b = 1 ∨ b = 2 ∨ b = 3 := by revert b; decide
    · exact bankP3_ok
    · exact bankOne_ok
    · exact Bank.create_ok _ _ (by decide) (by decide)
    · exact fresh_ok

/-- `InvariantKeptByStep`, `WritesAreIdempotent`, `BitsAndCountsOnlyGrow` and the `BOR` laws start from such a state. -/
theorem demo_inv : demo.Inv := ⟨demo_params_legal, demo_banks_ok, by decide, HashUnit.reset_ok⟩

/-! ### Witnesses: the command word and the interface -/

theorem witness_DecodeInvertsEncode : (Instr.bor 3 3).wellFormed 4 = true ∧ (Instr.hput 15 8).wellFormed 2 = true := by decide

theorem witness_EncodeInvertsDecode : decodeWord 4 0x00000000000000000000000003300014 = .ok (.bor 3 3) := by decide

theorem witness_DecodeIsTheMaskTable :
    ((0x80001031 : Cmd) &&& Opcode.hput.mask = Opcode.hput.matchWord ∧ NLegal .hput (nOf 0x80001031).toNat ∧
      BanksLegal 4 .hput 0x80001031) ∧ ¬ NLegal .hput (nOf 0x90001031).toNat ∧ ¬ BanksLegal 4 .bpop 0x400113 := by
  refine ⟨⟨by decide, ⟨by decide, by decide, by decide⟩, by decide, by decide⟩, fun h => ?_, fun h => ?_⟩
  · exact absurd (h.2.1 rfl) (by decide)
  · exact absurd (h.1 (by decide)) (by decide)

/-- Each case (a) to (e) of R86, at the values next to the legal ones. -/
theorem witness_IllegalWordsAreRefused :
    IllegalWord (demo.offer 0).cfg.nbank 0 ∧ IllegalWord 4 0x00000000000000050000000100000101 ∧ IllegalWord 4 0x132 ∧
    IllegalWord 4 0x30000030 ∧ IllegalWord 4 0x400113 ∧ (demo.offer 0).rsp = none ∧ (demo.offer 0).cmds = 0 :: [] := by
  refine ⟨.inl fun o => ?_, .inr (.inl (by decide)), .inr (.inr ⟨.hfin, by decide, .inl ⟨.rd, by decide, by decide⟩⟩),
    .inr (.inr ⟨.hinit, by decide, .inr (.inl fun h => ?_)⟩), .inr (.inr ⟨.bpop, by decide, .inr (.inr fun h => ?_)⟩), rfl, rfl⟩
  · cases o <;> decide
  · exact absurd (h.1 rfl) (by decide)
  · exact absurd (h.1 (by decide)) (by decide)

/-- The words that each command's rule refuses, at the first `n` above the range. -/
theorem witness_OthersRefused :
    (demo.offer 0x30000030).rsp = none ∧ (demo.offer 0x30000030).cmds = 0x30000030 :: [] ∧ opOf 0x30000030 = 0x30 ∧
    2 < (nOf 0x30000030).toNat ∧
    opOf 0x1001 = 0x01 ∧ CmdField.rs1 ∉ [CmdField.rd, CmdField.imm] ∧ fieldIsZero 0x1001 .rs1 = false := by decide

theorem witness_StepRunsTheDecodedCommand :
    (Instr.bset 4 0).wellFormed demo.cfg.nbank = true ∧ (demo.offer 0x7002).rsp = none ∧ (demo.offer 0x7002).cmds = 0x7002 :: [] ∧
    decodeWord (demo.offer 0x7002).cfg.nbank 0x7002 = .ok (.rdr 7) ∧ decode 5 (cmdBytes 0x7002) = .ok (.rdr 7) := by decide

theorem witness_OtherStepsChangeNoState :
    (demo.respond ⟨.ok, 77⟩).rsp = some ⟨.ok, 77⟩ ∧ demo.rsp = none ∧ demo.cmds = [] := by decide

theorem witness_EveryRunEnds : (demo.offer 0x32).rsp = none ∧ (demo.offer 0x32).cmds.length = 1 := by decide

/-- An error of a legal command and of an illegal word. -/
theorem witness_ErrorChangesNothing :
    (demo.offer 0x32).rsp = none ∧
    after (step (demo.offer 0x32)) (fun t => t.rsp) = some (some ⟨.error .hashStateError, 0⟩) ∧
    after (step (demo.offer 0)) (fun t => t.rsp) = some (some ⟨.error .illegalCommand, 0⟩) := by decide

theorem witness_OnlyTheDestinationIsWritten :
    ∃ t, exec (.bget 15 0 2) demo = .next t ∧ t.reg 15 ≠ demo.reg 15 := ⟨_, rfl, by decide⟩

/-! ### Witnesses: the bitmap unit, at the ends of each range -/

theorem witness_BcreateMakesAZeroBitmap :
    (demo.reg 0).toNat = 0 ∧ (demo.reg 2).toNat % 8192 ≠ 0 ∧ (demo.reg 15).toNat % 8192 ≠ 0 ∧
    ((demo.reg 7).toNat ≠ 0 ∧ (demo.reg 7).toNat % 8192 = 0 ∧ demo.cfg.maxBits < (demo.reg 7).toNat) ∧
    ((demo.reg 12).toNat ≠ 0 ∧ (demo.reg 12).toNat % 8192 = 0 ∧ (demo.reg 12).toNat ≤ demo.cfg.maxBits) ∧
    ((demo.reg 1).toNat ≠ 0 ∧ (demo.reg 1).toNat % 8192 = 0 ∧ (demo.reg 1).toNat ≤ demo.cfg.maxBits) := by decide

/-- For `BGET` and `BSET`: an invalid bank, the first index above the range, the first and the last in it. -/
theorem witness_BgetReadsTheBit :
    (demo.bank 4).blen = 0 ∧ ((demo.bank 0).blen ≠ 0 ∧ (demo.bank 0).blen.toNat ≤ (demo.reg 1).toNat) ∧
    (demo.reg 0).toNat < (demo.bank 0).blen.toNat ∧ (demo.reg 2).toNat < (demo.bank 0).blen.toNat := by decide

theorem witness_BsetSetsAndCountsTheBit :
    (demo.bank 4).blen = 0 ∧ ((demo.bank 3).blen ≠ 0 ∧ (demo.bank 3).blen.toNat ≤ (demo.reg 1).toNat) ∧
    Memory.wf (demo.bank 3).bm = true ∧ (demo.reg 0).toNat < (demo.bank 3).blen.toNat ∧
    (demo.reg 2).toNat < (demo.bank 3).blen.toNat := by decide

/-- For `BPOP`, `BCNT`, `BSIZE` and `BcntAndBpopAgree`. -/
theorem witness_BpopCountsTheCells :
    (demo.bank 4).blen = 0 ∧ (demo.bank 0).blen ≠ 0 ∧ (demo.bank 0).Ok demo.cfg.maxBits :=
  ⟨by decide, by decide, bankP3_ok⟩

theorem witness_BorUnitesTheBitmaps :
    ((demo.bank 4).blen = 0 ∨ (demo.bank 0).blen = 0) ∧
    ((demo.bank 0).blen ≠ 0 ∧ (demo.bank 2).blen ≠ 0 ∧ (demo.bank 0).blen ≠ (demo.bank 2).blen) ∧
    ((demo.bank 0).blen ≠ 0 ∧ (demo.bank 0).blen = (demo.bank 1).blen) ∧
    (demo.bank 0).Ok demo.cfg.maxBits ∧ (demo.bank 1).Ok demo.cfg.maxBits :=
  ⟨by decide, by decide, by decide, bankP3_ok, bankOne_ok⟩

/-- For `BORW` and `BRDW`: word 128 is the first above the range of 8192 bits, 0 and 127 are its ends. -/
theorem witness_BorwOrsTheWord :
    (demo.bank 4).blen = 0 ∧ ((demo.bank 0).blen ≠ 0 ∧ (demo.bank 0).blen.toNat / 64 ≤ (demo.reg 4).toNat) ∧
    (demo.reg 0).toNat < (demo.bank 0).blen.toNat / 64 ∧ (demo.reg 3).toNat < (demo.bank 0).blen.toNat / 64 ∧
    (demo.bank 0).Ok demo.cfg.maxBits := ⟨by decide, by decide, by decide, by decide, bankP3_ok⟩

theorem witness_BrdwReadsTheWord :
    (demo.bank 4).blen = 0 ∧ ((demo.bank 0).blen ≠ 0 ∧ (demo.bank 0).blen.toNat / 64 ≤ (demo.reg 4).toNat) ∧
    (demo.reg 0).toNat < (demo.bank 0).blen.toNat / 64 ∧ (demo.reg 3).toNat < (demo.bank 0).blen.toNat / 64 := by decide

theorem witness_DumpImageIsLittleEndian : Memory.wf (demo.bank 0).bm = true ∧ (7 < 8 ∨ 8 + 8 ≤ 7) ∧ (16 < 8 ∨ 8 + 8 ≤ 16) := by
  decide

theorem witness_PopBankIsExact : bankP3.Ok 8388608 ∧ Bank.invalid.Ok 8388608 := ⟨bankP3_ok, Bank.invalid_ok _⟩

/-- The last word of a bank of 16384 bits. -/
theorem witness_OrIntoAZeroWordStoresIt :
    (demo.reg 13).toNat < (demo.bank 2).blen.toNat / 64 ∧ Memory.word (demo.bank 2).bm (demo.reg 13).toNat = 0 ∧
    (demo.bank 2).Ok demo.cfg.maxBits := ⟨by decide, by decide, demo_banks_ok 2⟩

/-- A dump into an invalid bank, and into the bank it came from. -/
theorem witness_RestoreOfADumpIsACopy :
    demo.Inv ∧ (0 : BankNo).val < demo.cfg.nbank ∧ (4 : BankNo).val < demo.cfg.nbank ∧ (demo.bank 0).blen ≠ 0 ∧
    (demo.bank 4).blen = 0 ∧ (1 : RegNo) ≠ 2 := ⟨demo_inv, by decide, by decide, by decide, by decide, by decide⟩

/-- The last bank of the block, which holds no bitmap yet. -/
theorem witness_SaturationIsReachable :
    demo.Inv ∧ (4 : BankNo).val < demo.cfg.nbank ∧ (1 : RegNo) ≠ 2 ∧ IsEstimate 8192 8192 8192 :=
  ⟨demo_inv, by decide, by decide, .inl ⟨rfl, rfl⟩⟩

theorem witness_BorOrderDoesNotMatter :
    demo.Inv ∧ (1 : BankNo) ≠ 0 ∧ (3 : BankNo) ≠ 0 ∧ (demo.bank 0).blen ≠ 0 ∧ (demo.bank 0).blen = (demo.bank 1).blen ∧
    (demo.bank 0).blen = (demo.bank 3).blen ∧
    (∃ t u, exec (.bor 0 1) demo = .next t ∧ exec (.bor 0 3) t = .next u) ∧
    ∃ t u, exec (.bor 0 3) demo = .next t ∧ exec (.bor 0 1) t = .next u :=
  ⟨demo_inv, by decide, by decide, by decide, by decide, by decide, ⟨_, _, rfl, rfl⟩, _, _, rfl, rfl⟩

theorem witness_BorCountBounds : demo.Inv ∧ ∃ t, exec (.bor 0 1) demo = .next t ∧ Completed t := ⟨demo_inv, _, rfl, rfl⟩

/-! ### Witnesses: the block-hash unit -/

/-- For `HPUT` and `HFIN`: not active in two ways, and active. -/
theorem witness_HputFeedsTheBytes :
    demo.hash.hst ≠ .active ∧ (demoFinal .x64_128).hash.hst ≠ .active ∧ (demoActive .x86_32).hash.hst = .active := by
  decide +kernel

theorem witness_HfinTakesTheDigest :
    demo.hash.hst ≠ .active ∧ (demoActive .x86_32).hash.hst = .active ∧ (demoFed .x86_128).hash.hst = .active := by
  decide +kernel

theorem witness_HdigReadsTheDigest :
    demo.hash.hst ≠ .final ∧ (demoActive .x86_32).hash.hst ≠ .final ∧ (demoFinal .x64_128).hash.hst = .final := by
  decide +kernel

/-- `FedByte`'s two ends: the byte that fills a block of variant 0, and one that does not. -/
theorem witness_FedByte :
    (demoFed .x86_32).hash.rlen.val + 1 = blk (demoFed .x86_32).hash.hvar ∧
    (demoActive .x86_32).hash.rlen.val + 1 < blk (demoActive .x86_32).hash.hvar := by decide +kernel

/-- "100" as one chunk of three bytes, or as "1" and "00". -/
theorem witness_ChunkingDoesNotMatter :
    (demoActive .x64_128).hash.hst = .active ∧ (1 : ByteCount).val + (2 : ByteCount).val = (3 : ByteCount).val ∧
    (∀ j, j < 1 → ((demoActive .x64_128).reg 11).extractLsb' (8 * j) 8 = ((demoActive .x64_128).reg 11).extractLsb' (8 * j) 8) ∧
    (∀ j, j < 2 → ((demoActive .x64_128).reg 11).extractLsb' (8 * (1 + j)) 8
      = ((demoActive .x64_128).reg 14).extractLsb' (8 * j) 8) := by decide +kernel

theorem witness_HashStatusTransitions :
    (∃ t, exec (.hinit .x86_128) demo = .next t ∧ t.hash ≠ demo.hash) ∧
    ∃ t, exec .hfin (demoActive .x86_32) = .next t ∧ t.hash ≠ (demoActive .x86_32).hash :=
  ⟨⟨_, rfl, by decide +kernel⟩, _, rfl, by decide +kernel⟩

/-! ### Witnesses: the counter -/

theorem witness_BputInsertsTheReducedIndex :
    (demo.bank 4).blen = 0 ∧ (demo.bank 3).blen ≠ 0 ∧ Memory.wf (demo.bank 3).bm = true := by decide

theorem witness_BcntReadsTheCount : (demo.bank 4).blen = 0 ∧ (demo.bank 0).blen ≠ 0 := by decide

/-- The shortest bitmap and a longer one. -/
theorem witness_BsizeReadsTheKib :
    (demo.bank 4).blen = 0 ∧ (demo.bank 0).blen ≠ 0 ∧ (demo.bank 0).Ok demo.cfg.maxBits ∧ (demo.bank 2).blen ≠ 0 ∧
    (demo.bank 2).Ok demo.cfg.maxBits := ⟨by decide, by decide, bankP3_ok, by decide, demo_banks_ok 2⟩

/-- 8192 modulo 8192 is 0, and 8191 is itself. -/
theorem witness_BputIsBsetOfTheRemainder :
    (demo.bank 0).blen ≠ 0 ∧ (demo.reg 0).toNat = (demo.reg 1).toNat % (demo.bank 0).blen.toNat ∧
    (demo.reg 2).toNat = (demo.reg 9).toNat % (demo.bank 0).blen.toNat := by decide

theorem witness_WritesAreIdempotent :
    demo.Inv ∧ (∃ t u, exec (.bset 3 2) demo = .next t ∧ exec (.bset 3 2) t = .next u) ∧
    (∃ t u, exec (.bput 3 9) demo = .next t ∧ exec (.bput 3 9) t = .next u) ∧
    (∃ t u, exec (.bor 0 1) demo = .next t ∧ exec (.bor 0 1) t = .next u) ∧
    ∃ t u, exec (.borw 3 3 10) demo = .next t ∧ exec (.borw 3 3 10) t = .next u :=
  ⟨demo_inv, ⟨_, _, rfl, rfl⟩, ⟨_, _, rfl, rfl⟩, ⟨_, _, rfl, rfl⟩, _, _, rfl, rfl⟩

/-- A bank of 8192 bits after the words of all ones have been ORed into its first `n` words (R191 e). -/
def filled : Nat → Bank
  | 0 => Bank.create 8192
  | n + 1 => (filled n).orWord n (BitVec.allOnes 64)

theorem filled_spec (n : Nat) (h : n ≤ 128) :
    (filled n).Ok 8388608 ∧ (filled n).blen = 8192 ∧ ∀ i, i < 64 * n → Memory.bit (filled n).bm i = true := by
  induction n with
  | zero => exact ⟨fresh_ok, rfl, fun i hi => absurd hi (by omega)⟩
  | succ n ih =>
    obtain ⟨hok, hlen, hbit⟩ := ih (by omega)
    have hw : (filled n).words = 128 := by unfold Bank.words Bank.bits; rw [hlen]; decide
    refine ⟨Bank.orWord_ok hok n _ (by omega), hlen, fun i hi => ?_⟩
    rw [filled, Bank.bit_orWord _ _ _ _ hok.canonical]
    by_cases hi' : i < 64 * n
    · simp [hbit i hi']
    · have h1 : i / 64 = n := by omega
      have h2 : i % 64 < 64 := Nat.mod_lt _ (by decide)
      have h3 : (BitVec.allOnes 64).getLsbD (i % 64) = true := by rw [BitVec.getLsbD_allOnes]; simpa using h2
      rw [h1, h3]
      simp

/-- The demo state with bank 3 saturated. -/
def demoFull : State := demo.setBank 3 (filled 128)

theorem witness_SaturatedBankStays :
    (demoFull.bank 3).Ok demoFull.cfg.maxBits ∧ (demoFull.bank 3).blen ≠ 0 ∧ (demoFull.bank 3).scnt = (demoFull.bank 3).blen ∧
    (demoFull.reg 2).toNat < (demoFull.bank 3).blen.toNat := by
  obtain ⟨hok, hlen, hbit⟩ := filled_spec 128 (by omega)
  have hb : demoFull.bank 3 = filled 128 := by simp [demoFull]
  have hbits : (filled 128).bits = 8192 := by unfold Bank.bits; rw [hlen]; decide
  have hcnt : Memory.countBits (filled 128).bm 8192 = 8192 := by
    refine Eq.trans (List.countP_eq_length.2 fun i hi => ?_) List.length_range
    exact hbit i (by simpa using hi)
  rw [hb, hlen]
  refine ⟨hok, by decide, BitVec.eq_of_toNat_eq ?_, by decide⟩
  rw [hok.count, hbits, hcnt]
  decide

/-! ### Witnesses: errors and the whole machine -/

/-- Each error is raised by some command, so the left sides of the `…ExactlyWhen` statements hold somewhere. -/
theorem witness_ErrorsExactlyWhen :
    (∃ t, exec (.bcreate 0 15) demo = .next t ∧ t.rsp = some ⟨.error .sizeError, 0⟩) ∧
    (∃ t, exec (.bcreate 0 7) demo = .next t ∧ t.rsp = some ⟨.error .capacityError, 0⟩) ∧
    (∃ t, exec (.bor 2 0) demo = .next t ∧ t.rsp = some ⟨.error .sizeMismatchError, 0⟩) ∧
    (∃ t, exec (.bor 0 4) demo = .next t ∧ t.rsp = some ⟨.error .bankInvalid, 0⟩) ∧
    (∃ t, exec (.bget 0 0 1) demo = .next t ∧ t.rsp = some ⟨.error .rangeError, 0⟩) ∧
    (∃ t, exec (.borw 0 4 0) demo = .next t ∧ t.rsp = some ⟨.error .rangeError, 0⟩) ∧
    (∃ t, exec (.hdig 0 .lo) (demoActive .x86_32) = .next t ∧ t.rsp = some ⟨.error .hashStateError, 0⟩) ∧
    ∃ t, exec .hfin (demoFinal .x86_32) = .next t ∧ t.rsp = some ⟨.error .hashStateError, 0⟩ :=
  ⟨⟨_, rfl, by decide⟩, ⟨_, rfl, by decide⟩, ⟨_, rfl, by decide⟩, ⟨_, rfl, by decide⟩, ⟨_, rfl, by decide⟩,
   ⟨_, rfl, by decide⟩, ⟨_, rfl, by decide +kernel⟩, _, rfl, by decide +kernel⟩

theorem witness_AtMostOneBankChanges :
    (∃ t, exec (.bor 0 1) demo = .next t ∧ t.bank 0 ≠ demo.bank 0) ∧ (Instr.bor 0 1).bankB = some 1 ∧
    (Instr.bor 0 1).bankA ≠ some 1 := ⟨⟨_, rfl, by decide⟩, by decide, by decide⟩

theorem witness_OnlyBcreateChangesALength :
    ∃ t, exec (.bcreate 0 6) demo = .next t ∧ (t.bank 0).blen ≠ (demo.bank 0).blen := ⟨_, rfl, by decide⟩

/-- A step that keeps the old bits, and one that begins a new bitmap. -/
theorem witness_BitsAndCountsOnlyGrow :
    demo.Inv ∧ (∃ t, step demo = .next t) ∧ Memory.bit (demo.bank 0).bm 63 = true ∧
    ∃ t, step (demo.offer 0x1010) = .next t ∧ Memory.bit (t.bank 0).bm 63 = false :=
  ⟨demo_inv, ⟨_, rfl⟩, by decide, _, rfl, by decide⟩

theorem witness_InvariantKeptByStep :
    (demo.offer 0x1200014).Inv ∧ ∃ t, step (demo.offer 0x1200014) = .next t :=
  ⟨⟨demo_inv.params, demo_inv.banks, demo_inv.absent, demo_inv.hash⟩, _, rfl⟩

/-- The smallest and the largest numbers of banks, and the smallest capacity. -/
theorem witness_ResetMeetsTheInvariant :
    (⟨2, 8192⟩ : Config.Params).Legal ∧ (⟨16, 8388608⟩ : Config.Params).Legal := by decide

theorem witness_ResetValues : State.reset.cfg = ⟨4, 8388608⟩ := rfl

/-- Saturation, and no bit set. -/
theorem witness_EstimateProperties : IsEstimate 8192 8192 8192 ∧ IsEstimate 8192 0 0 := by
  refine ⟨.inl ⟨rfl, rfl⟩, .inr ⟨by decide, ?_⟩⟩
  norm_num

end Sys2Proof.Tests
end

section
/-! The decoder takes back every word the encoder builds, as a word and as its sixteen bytes (`30_encoding.md` R81, R89). -/

namespace Sys2Proof

/-! ### The opcode and the small number `n` -/

@[simp] theorem Opcode.ofCode_code (o : Opcode) : Opcode.ofCode o.code = some o := by cases o <;> decide

@[simp] theorem variantOfN_code (v : Variant) : variantOfN v.code = some v := by cases v <;> rfl

@[simp] theorem selOfN_code (sel : DigestSel) : selOfN sel.code = some sel := by cases sel <;> rfl

@[simp] theorem countOfN_ofNat (k : ByteCount) : countOfN (BitVec.ofNat 4 k.val) = some k := by
  have hk : k.val % 16 = k.val := Nat.mod_eq_of_lt (by omega)
  simp [countOfN, hk]

/-! ### What the decoder reads in an encoded word -/

/-- Every encoded word carries its command's opcode and a zero reserved field. -/
theorem encode_encodesItsOpcode (i : Instr) : Laws.EncodesItsOpcode.Statement i := by
  cases i <;> exact cmdOf_shape ..

/-- No field that the opcode does not use is non-zero in an encoded word: the check of R86 c passes. -/
theorem encode_unusedFields (i : Instr) :
    operandFields.any (fun f => !i.opcode.uses.contains f && !fieldIsZero (encode i) f) = false := by
  cases i <;> simp [operandFields, Instr.opcode, Opcode.uses, encode, fieldIsZero]

/-- The operands of an encoded word assemble to the command. -/
theorem assembleOperands_encode (i : Instr) : assembleOperands (encode i) i.opcode = some i := by
  cases i <;> simp [Instr.opcode, encode, assembleOperands]

/-- The five checks of R89 pass on the word of a well-formed command. -/
theorem decodeWord_encode {nbank : Nat} {i : Instr} (h : i.wellFormed nbank = true) :
    decodeWord nbank (encode i) = .ok i := by
  obtain ⟨hop, hzero⟩ := encode_encodesItsOpcode i
  simp only [decodeWord, hzero, hop, Opcode.ofCode_code, encode_unusedFields, assembleOperands_encode, h, ne_eq,
    not_true_eq_false, Bool.false_eq_true, ↓reduceIte]

/-! ### Words and their sixteen bytes -/

/-- The sixteen bytes of a word carry its number (R81). -/
theorem littleEndian_cmdBytes (c : Cmd) : littleEndian (cmdBytes c) = c.toNat := by
  have hlt : c.toNat < 256 ^ 16 := c.isLt
  rw [cmdBytes, littleEndian_bytes, Nat.mod_eq_of_lt hlt]

/-- Decoding the sixteen bytes of a word is decoding the word (R54, R81). -/
@[simp] theorem decode_cmdBytes (nbank : Nat) (c : Cmd) : decode nbank (cmdBytes c) = decodeWord nbank c := by
  have hlen : (cmdBytes c).length = 16 := by simp [cmdBytes]
  rw [decode, if_pos hlen, littleEndian_cmdBytes, BitVec.ofNat_toNat, BitVec.setWidth_eq]

end Sys2Proof
end

section
/-! What a step does with the next word presented, when it decodes (`30_encoding.md` R95, R96; `00_scope.md` R5). -/

namespace Sys2Proof.Machine

/-- With the response channel free, the step presents the next word and runs the command it decodes to. -/
theorem step_of_decodeWord {s : State} {c : Cmd} {rest : List Cmd} {i : Instr} (hr : s.rsp = none)
    (hc : s.cmds = c :: rest) (hd : decodeWord s.cfg.nbank c = .ok i) : step s = exec i { s with cmds := rest } := by
  have hp : s.present = some (c, { s with cmds := rest }) := (State.present_eq_some ..).2 ⟨rest, hc, rfl⟩
  simp only [step, hr, hp, hd]

/-- `withFetchWord` offers the command word whose number it is given. -/
theorem State.withFetchWord_toNat (s : State) (c : Cmd) : s.withFetchWord 128 c.toNat = s.offer c := by
  rw [State.withFetchWord, Nat.mod_eq_of_lt c.isLt, BitVec.ofNat_toNat, BitVec.setWidth_eq]

/-- A step on an offered word takes any waiting response and runs the command the word decodes to. -/
theorem step_offer {s : State} {c : Cmd} {i : Instr} (hd : decodeWord s.cfg.nbank c = .ok i) :
    step (s.offer c) = exec i s.takeRsp :=
  step_of_decodeWord (State.offer_rsp s c) (State.offer_cmds s c) hd

/-- Settles O6: the step presents the next word, and the encoder's words decode to their commands. -/
theorem stepRunsTheDecodedCommand : Obligations.StepRunsTheDecodedCommand := by
  refine ⟨fun s c rest i hr hc hd => ?_, fun s i hwf => ?_⟩
  · have hword : decodeWord s.cfg.nbank c = .ok i := by
      rcases hd with hword | hbytes
      · exact hword
      · rwa [decode_cmdBytes] at hbytes
    exact step_of_decodeWord hr hc hword
  · rw [State.withFetchWord_toNat, step_offer (decodeWord_encode hwf)]

end Sys2Proof.Machine
end

section
/-! `MemRead` and `MemWrite` on the dump image: what they read, what they keep (`00_scope.md` R15; `20_memory.md` R52). -/

namespace Sys2Proof.Machine

/-- `MemRead` is the little-endian number of successive bytes of the dump image. -/
theorem Memory.memRead_eq_littleEndian (m : Memory) (a n : Nat) :
    Memory.memRead m a n = littleEndian ((List.range' a n).map (Memory.read m)) := by
  induction n generalizing a with
  | zero => rfl
  | succ n ih => rw [Memory.memRead, ih, List.range'_succ, List.map_cons, littleEndian]

/-- The eight bytes of a storage word, from `D[8w]` on. -/
theorem chunk_word (m : Memory) (w : Nat) :
    chunk (Memory.word m w) 8 = (List.range' (8 * w) 8).map (Memory.read m) := by
  rw [List.range'_eq_map_range, List.map_map]
  exact List.map_congr_left fun k hk => chunkByte_word m w k (List.mem_range.1 hk)

/-- `MemRead` of the eight bytes of a storage word is the word. -/
theorem Memory.memRead_word (m : Memory) (w : Nat) : Memory.memRead m (8 * w) 8 = (Memory.word m w).toNat := by
  have hlt : (Memory.word m w).toNat < 256 ^ 8 := (Memory.word m w).isLt
  calc Memory.memRead m (8 * w) 8
    _ = littleEndian (chunk (Memory.word m w) 8) := by rw [Memory.memRead_eq_littleEndian, chunk_word]
    _ = (Memory.word m w).toNat % 256 ^ 8 := littleEndian_bytes _ 8
    _ = (Memory.word m w).toNat := Nat.mod_eq_of_lt hlt

/-- `MemWrite` leaves every byte outside its range as it was. -/
theorem Memory.read_memWrite_outside {m : Memory} (h : Memory.wf m = true) (a n v : Nat) {b : Nat}
    (hb : b < a ∨ a + n ≤ b) : Memory.read (Memory.memWrite m a n v) b = Memory.read m b := by
  induction n generalizing m a v with
  | zero => rfl
  | succ n ih =>
    have hne : b ≠ a := by omega
    rw [Memory.memWrite, ih (Memory.wf_write m a _ h) (a + 1) _ (by omega), Memory.read_write m a _ b h, if_neg hne]

/-- `MemRead` after `MemWrite` of the same bytes gives the digits of the value that fit: byte `a` is the lowest one, which
the later writes leave alone, and the bytes above it carry the rest. -/
theorem Memory.memRead_memWrite {m : Memory} (h : Memory.wf m = true) (a n v : Nat) :
    Memory.memRead (Memory.memWrite m a n v) a n = v % 256 ^ n := by
  induction n generalizing m a v with
  | zero => rw [Memory.memRead, Nat.pow_zero, Nat.mod_one]
  | succ n ih =>
    have hwf : Memory.wf (Memory.write m a (BitVec.ofNat 8 v)) = true := Memory.wf_write m a _ h
    have hlow : Memory.read (Memory.memWrite m a (n + 1) v) a = BitVec.ofNat 8 v := by
      rw [Memory.memWrite, Memory.read_memWrite_outside hwf (a + 1) n _ (.inl (Nat.lt_succ_self a)),
        Memory.read_write m a _ a h, if_pos rfl]
    have hhigh : Memory.memRead (Memory.memWrite m a (n + 1) v) (a + 1) n = v / 256 % 256 ^ n := ih hwf (a + 1) (v / 256)
    rw [Memory.memRead, hlow, hhigh, BitVec.toNat_ofNat, Nat.pow_succ' (n := n), Nat.mod_mul (a := 256)]

/-- Settles O23, by induction on the number of bytes. -/
theorem dumpImageIsLittleEndian : Obligations.DumpImageIsLittleEndian :=
  ⟨Memory.memRead_word, fun _ a n v h =>
    ⟨Memory.memRead_memWrite h a n v, fun _ hb => Memory.read_memWrite_outside h a n v hb⟩⟩

end Sys2Proof.Machine
end

section
/-! What a command can do to the state, said once for `exec` and once for `step`; the statements about every command
follow by cases on it (`10_state.md` R21, R24 to R28; `60_exceptions.md` R213). -/

namespace Sys2Proof.Machine

/-! ### What a command can do -/

/-- The command leaves the status of the hash unit alone: it is no `HINIT`, and no `HFIN` on an active unit (R28). -/
def KeepsHashStatus (i : Instr) (s : State) : Prop :=
  (∀ v, i ≠ .hinit v) ∧ (i = .hfin → s.hash.hst ≠ .active)

/-- What a command can make of the bank `b` it writes: a fresh bitmap of a legal length, or more bits in the old one. -/
inductive BankWrite (i : Instr) (s : State) (b : BankNo) : Bank → Prop
  | create (r : RegNo) (hi : i = .bcreate b r) (hsize : badSize (s.index r) = false) (hcap : s.index r ≤ s.cfg.maxBits) :
    BankWrite i s b (Bank.create (s.reg r))
  | insert (n : Nat) (hn : n < (s.bank b).bits) : BankWrite i s b ((s.bank b).insert n)
  | orWord (w : Nat) (v : Word) (hw : w < (s.bank b).words) : BankWrite i s b ((s.bank b).orWord w v)
  | orFrom (src : BankNo) : BankWrite i s b ((s.bank b).orFrom (s.bank src))

/-- What a command can make of the hash unit it writes. -/
inductive HashWrite (i : Instr) (s : State) : HashUnit → Prop
  | start (v : Variant) (hi : i = .hinit v) : HashWrite i s (s.hash.start v)
  | feed (r : RegNo) (k : ByteCount) (hi : i = .hput r k) (ha : s.hash.hst = .active) :
    HashWrite i s (s.hash.feed (chunk (s.reg r) k.val))
  | finish (hi : i = .hfin) (ha : s.hash.hst = .active) : HashWrite i s s.hash.finish

/-- What a command can do: raise an error, answer a register's value, or complete with one register, one bank or the hash
unit written. -/
inductive Effect (i : Instr) (s : State) : State → Prop
  | raised (e : LcbError) (hq : KeepsHashStatus i s) : Effect i s (s.respond ⟨.error e, 0⟩)
  | read (r : RegNo) (hi : i = .rdr r) : Effect i s (s.respond ⟨.ok, s.reg r⟩)
  | reg (rd : RegNo) (v : Word) (hd : i.dest = some rd) : Effect i s ((s.setReg rd v).respond ⟨.ok, 0⟩)
  | bank (b : BankNo) (k : Bank) (hb : i.bankA = some b) (hw : BankWrite i s b k) :
    Effect i s ((s.setBank b k).respond ⟨.ok, 0⟩)
  | hash (u : HashUnit) (hw : HashWrite i s u) : Effect i s ((s.setHash u).respond ⟨.ok, 0⟩)

section
variable {i : Instr} {s t : State}

/-- A check of a command: where it fails the error is raised, and where it passes the rest of the command decides. -/
theorem Effect.of_check {c : Prop} [Decidable c] {e : LcbError} {rest : Result}
    (h : (if c then raise e s else rest) = .next t) (hq : c → KeepsHashStatus i s)
    (hrest : ¬ c → rest = .next t → Effect i s t) : Effect i s t := by
  split at h
  case isTrue hc =>
    obtain rfl := (raise_eq_next e s t).1 h
    exact .raised e (hq hc)
  case isFalse hc => exact hrest hc h

theorem Effect.of_setReg {rd : RegNo} {v : Word} (hd : i.dest = some rd) (h : complete (s.setReg rd v) = .next t) :
    Effect i s t := by
  obtain rfl := (complete_eq_next _ t).1 h
  exact .reg rd v hd

theorem Effect.of_setBank {b : BankNo} {k : Bank} (hb : i.bankA = some b) (hw : BankWrite i s b k)
    (h : complete (s.setBank b k) = .next t) : Effect i s t := by
  obtain rfl := (complete_eq_next _ t).1 h
  exact .bank b k hb hw

theorem Effect.of_setHash {u : HashUnit} (hw : HashWrite i s u) (h : complete (s.setHash u) = .next t) :
    Effect i s t := by
  obtain rfl := (complete_eq_next _ t).1 h
  exact .hash u hw

/-- The reduced index of a valid bank lies inside its bitmap (R180). -/
theorem Bank.reduce_lt {k : Bank} (h : k.blen ≠ 0) (v : Nat) : k.reduce v < k.bits :=
  Nat.mod_lt v (Nat.pos_of_ne_zero fun h0 => h (BitVec.eq_of_toNat_eq h0))

/-- Every command that answers next has one of these effects. -/
theorem exec_effect (h : exec i s = .next t) : Effect i s t := by
  cases i with
  | ldi rd imm => exact .of_setReg rfl h
  | rdr rs1 =>
    obtain rfl := (completeWith_eq_next (s.reg rs1) s t).1 h
    exact .read rs1 rfl
  | bcreate ba rs1 =>
    exact .of_check h (fun _ => ⟨nofun, nofun⟩) fun hsize h =>
      .of_check h (fun _ => ⟨nofun, nofun⟩) fun hcap h =>
        .of_setBank rfl (.create rs1 rfl (Bool.eq_false_of_not_eq_true hsize) (Nat.le_of_not_gt hcap)) h
  | bget rd ba rs1 =>
    exact .of_check h (fun _ => ⟨nofun, nofun⟩) fun _ h =>
      .of_check h (fun _ => ⟨nofun, nofun⟩) fun _ h => .of_setReg rfl h
  | bset ba rs1 =>
    exact .of_check h (fun _ => ⟨nofun, nofun⟩) fun _ h =>
      .of_check h (fun _ => ⟨nofun, nofun⟩) fun hlt h => .of_setBank rfl (.insert _ (Nat.lt_of_not_ge hlt)) h
  | bpop rd ba => exact .of_check h (fun _ => ⟨nofun, nofun⟩) fun _ h => .of_setReg rfl h
  | bor ba bb =>
    exact .of_check h (fun _ => ⟨nofun, nofun⟩) fun _ h =>
      .of_check h (fun _ => ⟨nofun, nofun⟩) fun _ h => .of_setBank rfl (.orFrom bb) h
  | borw ba rs1 rs2 =>
    exact .of_check h (fun _ => ⟨nofun, nofun⟩) fun _ h =>
      .of_check h (fun _ => ⟨nofun, nofun⟩) fun hlt h => .of_setBank rfl (.orWord _ _ (Nat.lt_of_not_ge hlt)) h
  | brdw rd ba rs1 =>
    exact .of_check h (fun _ => ⟨nofun, nofun⟩) fun _ h =>
      .of_check h (fun _ => ⟨nofun, nofun⟩) fun _ h => .of_setReg rfl h
  | fmix32 rd rs1 => exact .of_setReg rfl h
  | fmix64 rd rs1 => exact .of_setReg rfl h
  | hinit v => exact .of_setHash (.start v rfl) h
  | hput rs1 k =>
    exact .of_check h (fun _ => ⟨nofun, nofun⟩) fun ha h => .of_setHash (.feed rs1 k rfl (not_not.1 ha)) h
  | hfin => exact .of_check h (fun ha => ⟨nofun, fun _ => ha⟩) fun ha h => .of_setHash (.finish rfl (not_not.1 ha)) h
  | hdig rd sel => exact .of_check h (fun _ => ⟨nofun, nofun⟩) fun _ h => .of_setReg rfl h
  | bput ba rs1 =>
    exact .of_check h (fun _ => ⟨nofun, nofun⟩) fun hv h => .of_setBank rfl (.insert _ (Bank.reduce_lt hv _)) h
  | bcnt rd ba => exact .of_check h (fun _ => ⟨nofun, nofun⟩) fun _ h => .of_setReg rfl h
  | bsize rd ba => exact .of_check h (fun _ => ⟨nofun, nofun⟩) fun _ h => .of_setReg rfl h

/-! ### What an effect leaves unchanged -/

/-- A register either is the one `rd` names or keeps its value (R21). -/
theorem Effect.reg_cases (h : Effect i s t) (r : RegNo) : t.reg r = s.reg r ∨ i.dest = some r := by
  cases h with
  | raised | read | bank | hash => exact .inl rfl
  | reg rd v hd =>
    by_cases hr : r = rd
    · exact .inr (hr ▸ hd)
    · exact .inl (by simp [hr])

/-- A bank either keeps its value or is the one `ba` names, written by a command that completes (R27). -/
theorem Effect.bank_cases (h : Effect i s t) (b : BankNo) :
    t.bank b = s.bank b ∨ (i.bankA = some b ∧ BankWrite i s b (t.bank b) ∧ Completed t) := by
  cases h with
  | raised | read | reg | hash => exact .inl rfl
  | bank c k hc hw =>
    by_cases hb : b = c
    · subst hb
      exact .inr ⟨hc, by simpa using hw, rfl⟩
    · exact .inl (by simp [hb])

/-- The hash unit either stays, under a command that keeps its status, or is written by `HINIT`, `HPUT` or `HFIN` (R28). -/
theorem Effect.hash_cases (h : Effect i s t) : (t.hash = s.hash ∧ KeepsHashStatus i s) ∨ HashWrite i s t.hash := by
  cases h with
  | raised e hq => exact .inl ⟨rfl, hq⟩
  | read r hi => exact .inl ⟨rfl, by subst hi; exact ⟨nofun, nofun⟩⟩
  | reg rd v hd => exact .inl ⟨rfl, fun v hi => (by subst hi; cases hd), fun hi => (by subst hi; cases hd)⟩
  | bank b k hb hw => exact .inl ⟨rfl, fun v hi => (by subst hi; cases hb), fun hi => (by subst hi; cases hb)⟩
  | hash u hw => exact .inr hw

/-- A bank write changes the length only as `BCREATE`, to a requested length that is not 0 (R24, R120). -/
theorem BankWrite.blen_cases {b : BankNo} {k : Bank} (h : BankWrite i s b k) :
    k.blen = (s.bank b).blen ∨ ∃ r, i = .bcreate b r ∧ k.blen = s.reg r ∧ k.blen ≠ 0 := by
  cases h with
  | create r hi hsize hcap =>
    refine .inr ⟨r, hi, rfl, fun h0 => ?_⟩
    have hidx : s.index r = 0 := congrArg BitVec.toNat h0
    simp [hidx, badSize] at hsize
  | insert n hn => exact .inl (Bank.insert_blen ..)
  | orWord w v hw => exact .inl (Bank.orWord_blen ..)
  | orFrom src => exact .inl (Bank.orFrom_blen ..)

/-! ### What a step can do -/

/-- What a step can do: the host takes the waiting response, or waits, or the block runs the next word, or refuses it. -/
inductive StepEffect (s : State) : State → Prop
  | took (r : Response) (hr : s.rsp = some r) : StepEffect s s.takeRsp
  | waited (hr : s.rsp = none) (hc : s.cmds = []) : StepEffect s s
  | ran (c : Cmd) (rest : List Cmd) (i : Instr) (t : State) (hr : s.rsp = none) (hc : s.cmds = c :: rest)
    (hd : decodeWord s.cfg.nbank c = .ok i) (he : Effect i { s with cmds := rest } t) : StepEffect s t
  | refused (c : Cmd) (rest : List Cmd) (e : DecodeError) (hr : s.rsp = none) (hc : s.cmds = c :: rest)
    (hd : decodeWord s.cfg.nbank c = .error e) :
    StepEffect s (State.respond { s with cmds := rest } ⟨.error .illegalCommand, 0⟩)

/-- Every step has one of these effects. -/
theorem step_effect (h : step s = .next t) : StepEffect s t := by
  unfold step at h
  split at h
  next r hr =>
    cases h
    exact .took r hr
  next hr =>
    split at h
    next hp =>
      cases h
      exact .waited hr ((State.present_eq_none s).1 hp)
    next c s' hp =>
      obtain ⟨rest, hc, rfl⟩ := (State.present_eq_some s c s').1 hp
      split at h
      next i hd => exact .ran c rest i t hr hc hd (exec_effect h)
      next e hd =>
        obtain rfl := (raise_eq_next ..).1 h
        exact .refused c rest e hr hc hd

end

/-! ### The statements about every command -/

/-- Settles O14: of the effects only a register write touches a register, and that one is the destination. -/
theorem onlyTheDestinationIsWritten : Obligations.OnlyTheDestinationIsWritten :=
  fun _ _ _ r h hne => ((exec_effect h).reg_cases r).resolve_left hne

/-- Settles O53: only a bank write touches a bank, and it writes the one `ba` names, so a bank `bb` names beside it stays. -/
theorem atMostOneBankChanges : Obligations.AtMostOneBankChanges := by
  intro i s t h
  have hchanged : ∀ b, t.bank b ≠ s.bank b → i.bankA = some b := fun b hne =>
    (((exec_effect h).bank_cases b).resolve_left hne).1
  exact ⟨hchanged, fun b _ hne => by_contra fun hb => hne (hchanged b hb)⟩

/-- Settles O54: of the bank writes only `create` has a length of its own. -/
theorem onlyBcreateChangesALength : Obligations.OnlyBcreateChangesALength := by
  intro i s t b h hne
  obtain hsame | ⟨_, hw, hdone⟩ := (exec_effect h).bank_cases b
  · exact absurd (congrArg Bank.blen hsame) hne
  · obtain ⟨r, hi, hlen, hpos⟩ := hw.blen_cases.resolve_left hne
    exact ⟨r, hi, hdone, hlen, hpos⟩

/-- Settles O40, by cases on whether the hash unit was written. -/
theorem hashStatusTransitions : Obligations.HashStatusTransitions := by
  intro i s t h
  obtain ⟨hsame, hinit, hfin⟩ | hw := (exec_effect h).hash_cases
  · refine ⟨?_, fun hne => absurd hsame hne⟩
    rw [hsame]
    cases i with
    | hinit v => exact absurd rfl (hinit v)
    | hfin =>
      have hidle := hfin rfl
      cases hst : s.hash.hst with
      | active => exact absurd hst hidle
      | idle | final => rfl
    | _ => rfl
  · generalize t.hash = u at hw ⊢
    cases hw with
    | start v hi =>
      subst hi
      exact ⟨rfl, fun _ => .inl ⟨v, rfl⟩⟩
    | feed r k hi ha =>
      subst hi
      exact ⟨HashUnit.feed_hst .., fun _ => .inr ⟨ha, .inl ⟨r, k, rfl⟩⟩⟩
    | finish hi ha =>
      subst hi
      exact ⟨by rw [ha, HashUnit.finish_hst], fun _ => .inr ⟨ha, .inr rfl⟩⟩

end Sys2Proof.Machine
end

section
/-! The invariants I1 to I6 of `10_state.md` R37: reset meets them and every step keeps them; and I7, that bits and counts
only grow. -/

namespace Sys2Proof

/-- A word decodes only to a command whose bank fields are below `NBANK` (R88, R89). -/
theorem wellFormed_of_decodeWord {nbank : Nat} {c : Cmd} {i : Instr} (h : decodeWord nbank c = .ok i) :
    i.wellFormed nbank = true := by
  unfold decodeWord at h
  split at h
  next => cases h
  next =>
    split at h
    next => cases h
    next o _ =>
      split at h
      next => cases h
      next =>
        split at h
        next => cases h
        next j _ =>
          split at h
          next hwf =>
            cases h
            exact hwf
          next => cases h

/-- The bank a well-formed command names in `ba` is a bank of the block (R88). -/
theorem Instr.bankA_lt {nbank : Nat} {i : Instr} {b : BankNo} (h : i.wellFormed nbank = true) (hb : i.bankA = some b) :
    b.val < nbank := by
  rw [Instr.wellFormed, hb, Bool.and_eq_true] at h
  exact of_decide_eq_true h.1

end Sys2Proof

namespace Sys2Proof.Machine

/-! ### Reset (R36) -/

@[simp] theorem State.resetWith_reg (p : Config.Params) (r : RegNo) : (State.resetWith p).reg r = 0 := by
  simp [State.reg, State.resetWith]

@[simp] theorem State.resetWith_bank (p : Config.Params) (b : BankNo) : (State.resetWith p).bank b = Bank.invalid := by
  simp [State.bank, State.resetWith]

/-- The state after reset meets the invariants for every legal choice of the parameters. -/
theorem State.resetWith_inv {p : Config.Params} (hp : p.Legal) : (State.resetWith p).Inv where
  params := hp
  banks b := (State.resetWith_bank p b).symm ▸ Bank.invalid_ok _
  absent b _ := State.resetWith_bank p b
  hash := HashUnit.reset_ok

/-- Settles O57: the default parameters are legal. -/
theorem resetMeetsTheInvariant : Obligations.ResetMeetsTheInvariant :=
  ⟨State.resetWith_inv (by decide), fun _ hp => State.resetWith_inv hp⟩

/-- Settles O58: `assertReset` is `resetWith` at the state's own parameters. -/
theorem resetValues : Obligations.ResetValues := by
  refine ⟨fun s => ⟨State.resetWith_reg s.cfg, fun b => ?_, rfl, rfl, fun i => ?_, rfl, rfl, rfl, rfl, rfl⟩, fun s hs => ?_⟩
  · rw [State.assertReset, State.resetWith_bank]
    exact ⟨rfl, rfl⟩
  · simp [State.assertReset, State.resetWith, HashUnit.reset]
  · rw [State.assertReset, hs, State.reset, Config.default]

/-! ### Each effect keeps the invariant -/

section
variable {i : Instr} {s t : State}

/-- The invariant speaks of the banks, the hash unit and the parameters alone. -/
theorem State.Inv.congr (h : s.Inv) (hbanks : t.banks = s.banks) (hhash : t.hash = s.hash) (hcfg : t.cfg = s.cfg) :
    t.Inv := by
  obtain ⟨params, banks, absent, hash⟩ := h
  unfold State.bank at banks absent
  refine ⟨?_, ?_, ?_, ?_⟩ <;> simp only [State.bank, hbanks, hhash, hcfg] <;> assumption

/-- A bank of the block may be replaced by any that meets the invariant. -/
theorem State.Inv.setBank (h : s.Inv) {b : BankNo} {k : Bank} (hb : b.val < s.cfg.nbank) (hk : k.Ok s.cfg.maxBits) :
    (s.setBank b k).Inv where
  params := h.params
  banks c := by
    rw [State.bank_setBank, State.setBank_cfg]
    split
    · exact hk
    · exact h.banks c
  absent c hc := by
    have hne : c ≠ b := fun e => Nat.not_le_of_lt hb (e ▸ hc)
    rw [State.bank_setBank, if_neg hne]
    exact h.absent c hc
  hash := h.hash

/-- The hash unit may be replaced by any that meets the invariant. -/
theorem State.Inv.setHash (h : s.Inv) {u : HashUnit} (hu : u.Ok) : (s.setHash u).Inv where
  params := h.params
  banks := h.banks
  absent := h.absent
  hash := hu

/-- What a command writes to a bank meets the invariant (R24, R25). -/
theorem BankWrite.ok {b : BankNo} {k : Bank} (h : BankWrite i s b k) (hs : s.Inv) : k.Ok s.cfg.maxBits := by
  cases h with
  | create r hi hsize hcap => exact Bank.create_ok _ _ hsize hcap
  | insert n hn => exact Bank.insert_ok (hs.banks b) n hn
  | orWord w v hw => exact Bank.orWord_ok (hs.banks b) w v hw
  | orFrom src => exact Bank.orFrom_ok (hs.banks b) (hs.banks src)

/-- What a command makes of the hash unit meets the invariant (R30, R31). -/
theorem HashWrite.ok {u : HashUnit} (h : HashWrite i s u) (hs : s.Inv) : u.Ok := by
  cases h with
  | start v hi => exact HashUnit.start_ok s.hash v
  | feed r k hi ha => exact HashUnit.feed_ok hs.hash ha _
  | finish hi ha => exact HashUnit.finish_ok hs.hash

/-- A well-formed command keeps the invariant. -/
theorem Effect.inv (h : Effect i s t) (hwf : i.wellFormed s.cfg.nbank = true) (hs : s.Inv) : t.Inv := by
  cases h with
  | raised | read | reg => exact hs.congr rfl rfl rfl
  | bank b k hb hw => exact (hs.setBank (Instr.bankA_lt hwf hb) (hw.ok hs)).congr rfl rfl rfl
  | hash u hw => exact (hs.setHash (hw.ok hs)).congr rfl rfl rfl

/-- Settles O56: the word a step runs is well formed, and every effect of such a command keeps the invariant. -/
theorem invariantKeptByStep : Obligations.InvariantKeptByStep := by
  intro s t hs h
  cases step_effect h with
  | took | waited | refused => exact hs.congr rfl rfl rfl
  | ran c rest i t hr hc hd he => exact he.inv (wellFormed_of_decodeWord hd) (hs.congr rfl rfl rfl)

/-! ### Bits and counts only grow (R37 I7) -/

/-- More cells, a higher count. -/
theorem Memory.countBits_mono {m m' : Memory} (h : ∀ n, Memory.bit m n = true → Memory.bit m' n = true) (len : Nat) :
    Memory.countBits m len ≤ Memory.countBits m' len :=
  List.countP_mono_left fun n _ => h n

/-- Of two bitmaps of one length, the one that has all the bits of the other has at least its count. -/
theorem Bank.Ok.scnt_le {M : Nat} {k k' : Bank} (h : k.Ok M) (h' : k'.Ok M) (hl : k'.blen = k.blen)
    (hb : k.KeepsBits k') : k.scnt.toNat ≤ k'.scnt.toNat := by
  rw [h.count, h'.count, Bank.bits, Bank.bits, hl]
  exact Memory.countBits_mono hb _

/-- Every bank write but `BCREATE` keeps the length and every bit that is set (R26). -/
theorem BankWrite.grows {b : BankNo} {k : Bank} (h : BankWrite i s b k) (hs : s.Inv) :
    (k.blen = (s.bank b).blen ∧ (s.bank b).KeepsBits k) ∨ ∃ r, i = .bcreate b r := by
  have hcanon := (hs.banks b).canonical
  cases h with
  | create r hi hsize hcap => exact .inr ⟨r, hi⟩
  | insert n hn => exact .inl ⟨Bank.insert_blen .., Bank.insert_keepsBits hcanon n⟩
  | orWord w v hw => exact .inl ⟨Bank.orWord_blen .., Bank.orWord_keepsBits hcanon w v⟩
  | orFrom src => exact .inl ⟨Bank.orFrom_blen .., Bank.orFrom_keepsBits (hs.banks src).canonical hcanon⟩

/-- Over a command the bits and the count of a bank grow, or the command is a `BCREATE` of it that completes. -/
theorem Effect.grows (h : Effect i s t) (hs : s.Inv) (b : BankNo) :
    ((s.bank b).KeepsBits (t.bank b) ∧ (s.bank b).scnt.toNat ≤ (t.bank b).scnt.toNat) ∨
      ((∃ r, i = .bcreate b r) ∧ Completed t) := by
  obtain hsame | ⟨_, hw, hdone⟩ := h.bank_cases b
  · rw [hsame]
    exact .inl ⟨fun _ hn => hn, le_rfl⟩
  · obtain ⟨hl, hb⟩ | hcreate := hw.grows hs
    · exact .inl ⟨hb, (hs.banks b).scnt_le (hw.ok hs) hl hb⟩
    · exact .inr ⟨hcreate, hdone⟩

end

/-- Settles O55: only the step that runs a command can change a bank. -/
theorem bitsAndCountsOnlyGrow : Obligations.BitsAndCountsOnlyGrow := by
  intro s t b hs h
  cases step_effect h with
  | took | waited | refused => exact .inl ⟨fun _ hn => hn, le_rfl⟩
  | ran c rest i t hr hc hd he =>
    obtain hgrows | ⟨⟨r, rfl⟩, hdone⟩ := he.grows (hs.congr rfl rfl rfl) b
    · exact .inl hgrows
    · exact .inr ⟨c, rest, r, hr, hc, hd, hdone⟩

end Sys2Proof.Machine
end

section
/-! A storage word as the number its cells are the binary digits of (`20_memory.md` R51). -/

namespace Sys2Proof.Machine

/-- The lowest `n` bits of a number are the sum of the weights of those that are 1. -/
theorem mod_two_pow_eq_sum_testBit (v n : Nat) :
    v % 2 ^ n = ((List.range n).map (fun j => if v.testBit j then 2 ^ j else 0)).sum := by
  induction n with
  | zero => rw [Nat.pow_zero, Nat.mod_one, List.range_zero, List.map_nil, List.sum_nil]
  | succ n ih =>
    have hbit : 2 ^ n * (v / 2 ^ n % 2) = if v.testBit n then 2 ^ n else 0 := by
      rw [Nat.testBit_eq_decide_div_mod_eq]
      rcases Nat.mod_two_eq_zero_or_one (v / 2 ^ n) with h | h <;> simp [h]
    rw [List.sum_range_succ, Nat.mod_pow_succ, ih, hbit]

/-- Settles O22: bit `j` of the word is cell `64w + j`, and a 64-bit number is the sum of its bits. -/
theorem wordIsTheSumOfItsBits : Obligations.WordIsTheSumOfItsBits := by
  intro m w
  calc (Memory.word m w).toNat
    _ = (Memory.word m w).toNat % 2 ^ 64 := (Nat.mod_eq_of_lt (Memory.word m w).isLt).symm
    _ = ((List.range 64).map (fun j => if (Memory.word m w).toNat.testBit j then 2 ^ j else 0)).sum :=
        mod_two_pow_eq_sum_testBit _ 64
    _ = ((List.range 64).map (fun j => if Memory.bit m (64 * w + j) then 2 ^ j else 0)).sum := by
        congr 1
        refine List.map_congr_left fun j hj => ?_
        rw [BitVec.testBit_toNat, Memory.word_getLsbD m w j (List.mem_range.1 hj)]

end Sys2Proof.Machine
end

section
/-! The writes of a bank are idempotent (`20_memory.md` R57; `44_lpcounter_merge.md` R191 b): the checks of a command that
is run again answer as before, and its write finds the bank as it would leave it. -/

namespace Sys2Proof.Machine

/-! ### Repeating a bank operation -/

@[simp] theorem Bank.orWord_words (k : Bank) (w : Nat) (v : Word) : (k.orWord w v).words = k.words := rfl

section
variable {M : Nat} {k : Bank}

/-- Inserting a cell twice is inserting it once: the second time it is found set. -/
theorem Bank.insert_idem (h : Memory.wf k.bm = true) (n : Nat) : (k.insert n).insert n = k.insert n := by
  have hset : Memory.bit (k.insert n).bm n = true := by simp [Bank.bit_insert k n n h]
  rw [Bank.insert, if_pos hset]

/-- ORing the same word in twice is ORing it in once. -/
theorem Bank.orWord_idem (h : k.Ok M) {w : Nat} (v : Word) (hw : w < k.words) :
    (k.orWord w v).orWord w v = k.orWord w v := by
  have h1 := Bank.orWord_ok h w v hw
  refine (Bank.orWord_ok h1 w v hw).ext h1 rfl fun i _ => ?_
  rw [Bank.bit_orWord _ _ _ _ h1.canonical, Bank.bit_orWord _ _ _ _ h.canonical, Bool.or_assoc, Bool.or_self]

/-- ORing a bitmap into itself changes nothing: its count is already exact. -/
theorem Bank.orFrom_self (h : k.Ok M) : k.orFrom k = k :=
  (Bank.orFrom_ok h h).ext h rfl fun i hi => by
    rw [Bank.bit_orFrom_inside h h hi, Bool.or_self]

end

/-! ### Repeating a command -/

section
variable {i : Instr} {s t : State}

/-- Of two writes of one bank the second stays. -/
@[simp] theorem State.setBank_setBank (s : State) (b : BankNo) (k k' : Bank) :
    (s.setBank b k).setBank b k' = s.setBank b k' := by
  simp [State.setBank]

@[simp] theorem State.index_setBank (s : State) (b : BankNo) (k : Bank) (r : RegNo) :
    (s.setBank b k).index r = s.index r := rfl

/-- A command does not read the response that is held, and replaces it. -/
theorem exec_respond (i : Instr) (s : State) (r : Response) : exec i (s.respond r) = exec i s := by
  cases i <;> rfl

/-- A check of a command that is run again: where it failed, the same error is raised, and where it passed the rest of the
command decides. -/
theorem exec_again_of_check {c : Prop} [Decidable c] {e : LcbError} {rest : Result} (hs : exec i s = .next t)
    (h : (if c then raise e s else rest) = .next t) (hrest : ¬ c → rest = .next t → exec i t = .next t) :
    exec i t = .next t := by
  split at h
  case isTrue =>
    obtain rfl := (raise_eq_next e s t).1 h
    rwa [exec_respond]
  case isFalse hc => exact hrest hc h

/-- A bank write that is run again changes nothing if it completes with the same bank. -/
theorem exec_again_of_setBank {b : BankNo} {k : Bank} (h : complete (s.setBank b k) = .next t)
    (hk : exec i (s.setBank b k) = complete (s.setBank b k)) : exec i t = .next t := by
  obtain rfl := (complete_eq_next _ t).1 h
  rw [exec_respond, hk, h]

/-! ### The four writes: once their checks pass, and run again (R57, R191 b) -/

/-- `BSET` of a cell inside a valid bank. -/
theorem exec_bset_of_lt {ba : BankNo} {rs1 : RegNo} (hv : (s.bank ba).blen ≠ 0) (hr : s.index rs1 < (s.bank ba).bits) :
    exec (.bset ba rs1) s = complete (s.setBank ba ((s.bank ba).insert (s.index rs1))) := by
  rw [exec, execBset, if_neg hv, if_neg (Nat.not_le_of_lt hr)]

/-- `BPUT` on a valid bank. -/
theorem exec_bput_of_valid {ba : BankNo} {rs1 : RegNo} (hv : (s.bank ba).blen ≠ 0) :
    exec (.bput ba rs1) s = complete (s.setBank ba ((s.bank ba).insert ((s.bank ba).reduce (s.index rs1)))) := by
  rw [exec, execBput, if_neg hv]

/-- `BOR` of two valid banks of one length. -/
theorem exec_bor_of_blen_eq {ba bb : BankNo} (hv : ¬ ((s.bank ba).blen = 0 ∨ (s.bank bb).blen = 0))
    (hl : (s.bank ba).blen = (s.bank bb).blen) :
    exec (.bor ba bb) s = complete (s.setBank ba ((s.bank ba).orFrom (s.bank bb))) := by
  rw [exec, execBor, if_neg hv, if_neg (not_not.2 hl)]

/-- `BORW` into a word inside a valid bank. -/
theorem exec_borw_of_lt {ba : BankNo} {rs1 rs2 : RegNo} (hv : (s.bank ba).blen ≠ 0)
    (hr : s.index rs1 < (s.bank ba).words) :
    exec (.borw ba rs1 rs2) s = complete (s.setBank ba ((s.bank ba).orWord (s.index rs1) (s.reg rs2))) := by
  rw [exec, execBorw, if_neg hv, if_neg (Nat.not_le_of_lt hr)]

theorem exec_bset_again {ba : BankNo} {rs1 : RegNo} (hwf : Memory.wf (s.bank ba).bm = true)
    (h : exec (.bset ba rs1) s = .next t) : exec (.bset ba rs1) t = .next t :=
  exec_again_of_check h h fun hv h' => exec_again_of_check h h' fun hr h' => exec_again_of_setBank h' <| by
    rw [exec_bset_of_lt (by simpa using hv) (by simpa using hr)]
    simp [Bank.insert_idem hwf]

theorem exec_bput_again {ba : BankNo} {rs1 : RegNo} (hwf : Memory.wf (s.bank ba).bm = true)
    (h : exec (.bput ba rs1) s = .next t) : exec (.bput ba rs1) t = .next t :=
  exec_again_of_check h h fun hv h' => exec_again_of_setBank h' <| by
    rw [exec_bput_of_valid (by simpa using hv)]
    simp [Bank.reduce, Bank.insert_idem hwf]

/-- The source is as it was the second time, or it is the target, which a `BOR` with itself leaves alone. -/
theorem exec_bor_again {M : Nat} {ba bb : BankNo} (hok : ∀ b, (s.bank b).Ok M) (h : exec (.bor ba bb) s = .next t) :
    exec (.bor ba bb) t = .next t :=
  exec_again_of_check h h fun hv h' => exec_again_of_check h h' fun hl h' => exec_again_of_setBank h' <| by
    by_cases hb : bb = ba
    · subst hb
      rw [Bank.orFrom_self (hok bb), exec_bor_of_blen_eq (by simpa using hv) rfl]
      simp [Bank.orFrom_self (hok bb)]
    · rw [exec_bor_of_blen_eq (by simpa [hb] using hv) (by simpa [hb] using hl)]
      simp [hb, Bank.orFrom_idem (hok ba) (hok bb)]

theorem exec_borw_again {M : Nat} {ba : BankNo} {rs1 rs2 : RegNo} (hok : (s.bank ba).Ok M)
    (h : exec (.borw ba rs1 rs2) s = .next t) : exec (.borw ba rs1 rs2) t = .next t :=
  exec_again_of_check h h fun hv h' => exec_again_of_check h h' fun hr h' => exec_again_of_setBank h' <| by
    have hw : s.index rs1 < (s.bank ba).words := Nat.lt_of_not_ge hr
    rw [exec_borw_of_lt (by simpa using hv) (by simpa using hw)]
    simp [Bank.orWord_idem hok _ hw]

end

/-- Settles O46, by cases on the command: after the first run its checks answer as before, and its write finds the bank as
it would leave it. -/
theorem writesAreIdempotent : Obligations.WritesAreIdempotent := by
  intro i s t u hs hi ht hu
  have hagain : exec i t = .next t := by
    obtain ⟨b, r, rfl⟩ | ⟨b, r, rfl⟩ | ⟨a, b, rfl⟩ | ⟨b, r, q, rfl⟩ := hi
    · exact exec_bset_again (hs.banks b).canonical ht
    · exact exec_bput_again (hs.banks b).canonical ht
    · exact exec_bor_again hs.banks ht
    · exact exec_borw_again (hs.banks b) ht
  rw [hagain] at hu
  cases hu
  rfl

end Sys2Proof.Machine
end

section
/-! The words that select an opcode: fields, the mask table of R85, and the decoder's five checks put as one condition
(`30_encoding.md` R80, R84 to R89). -/

namespace Sys2Proof

open Machine

/-! ### A word is its nine fields (R80) -/

/-- The lowest bit of an operand field (R80). -/
def CmdField.lo : CmdField → Nat
  | .rd => 8
  | .rs1 => 12
  | .rs2 => 16
  | .ba => 20
  | .bb => 24
  | .n => 28
  | .imm => 64

/-- The width of an operand field (R80). -/
def CmdField.width : CmdField → Nat
  | .imm => 64
  | .rd | .rs1 | .rs2 | .ba | .bb | .n => 4

/-- The operand field `f` of a word, for statements about every field at once. -/
def fieldOf (c : Cmd) (f : CmdField) : BitVec f.width := c.extractLsb' f.lo f.width

/-- `fieldOf` reads the fields that the model reads. -/
theorem fieldOf_eq_zero_iff {c : Cmd} {f : CmdField} : fieldOf c f = 0 ↔ fieldIsZero c f = true := by
  have hzero {w : Nat} (v : BitVec w) : v = 0 ↔ (v == 0) = true := beq_iff_eq.symm
  cases f <;> exact hzero _

/-- Words that agree on a range of bits agree on each bit of it. -/
theorem getLsbD_of_extractLsb'_eq {c d : Cmd} {lo width : Nat}
    (h : c.extractLsb' lo width = d.extractLsb' lo width) {i : Nat} (hlo : lo ≤ i) (hhi : i < lo + width) :
    c.getLsbD i = d.getLsbD i := by
  have hbit := congrArg (·.getLsbD (i - lo)) h
  have hlt : i - lo < width := by omega
  simpa [BitVec.getLsbD_extractLsb', hlt, Nat.add_sub_cancel' hlo] using hbit

/-- Every bit of a word lies in `op`, in the reserved field or in an operand field. -/
theorem bit_in_field {i : Nat} (hi : i < 128) :
    i < 8 ∨ (32 ≤ i ∧ i < 64) ∨ ∃ f : CmdField, f.lo ≤ i ∧ i < f.lo + f.width := by
  have hranges : i < 8 ∨ (32 ≤ i ∧ i < 64) ∨ (8 ≤ i ∧ i < 12) ∨ (12 ≤ i ∧ i < 16) ∨ (16 ≤ i ∧ i < 20) ∨
      (20 ≤ i ∧ i < 24) ∨ (24 ≤ i ∧ i < 28) ∨ (28 ≤ i ∧ i < 32) ∨ (64 ≤ i ∧ i < 128) := by omega
  obtain hop | hzero | hrd | hrs1 | hrs2 | hba | hbb | hn | himm := hranges
  · exact .inl hop
  · exact .inr (.inl hzero)
  · exact .inr (.inr ⟨.rd, hrd⟩)
  · exact .inr (.inr ⟨.rs1, hrs1⟩)
  · exact .inr (.inr ⟨.rs2, hrs2⟩)
  · exact .inr (.inr ⟨.ba, hba⟩)
  · exact .inr (.inr ⟨.bb, hbb⟩)
  · exact .inr (.inr ⟨.n, hn⟩)
  · exact .inr (.inr ⟨.imm, himm⟩)

/-- Two words are equal exactly when their nine fields are. -/
theorem cmd_eq_iff {c d : Cmd} :
    c = d ↔ opOf c = opOf d ∧ zeroOf c = zeroOf d ∧ ∀ f, fieldOf c f = fieldOf d f := by
  refine ⟨by rintro rfl; exact ⟨rfl, rfl, fun _ => rfl⟩, fun ⟨hop, hzero, hfield⟩ => ?_⟩
  refine BitVec.eq_of_getLsbD_eq fun i hi => ?_
  obtain h | ⟨hlo, hhi⟩ | ⟨f, hlo, hhi⟩ := bit_in_field hi
  · exact getLsbD_of_extractLsb'_eq hop (Nat.zero_le i) (by omega)
  · exact getLsbD_of_extractLsb'_eq hzero hlo hhi
  · exact getLsbD_of_extractLsb'_eq (hfield f) hlo hhi

/-- A word with an opcode in `op` and 0 in the reserved field is what `cmdOf` builds of its operand fields. -/
theorem cmdOf_fields {c : Cmd} {o : Opcode} (hop : opOf c = o.code) (hzero : zeroOf c = 0) :
    cmdOf o (rdOf c) (rs1Of c) (rs2Of c) (baOf c) (bbOf c) (nOf c) (immOf c) = c := by
  refine cmd_eq_iff.2 ⟨by rw [opOf_cmdOf, hop], by rw [zeroOf_cmdOf, hzero], fun f => ?_⟩
  cases f with
  | rd => exact rdOf_cmdOf ..
  | rs1 => exact rs1Of_cmdOf ..
  | rs2 => exact rs2Of_cmdOf ..
  | ba => exact baOf_cmdOf ..
  | bb => exact bbOf_cmdOf ..
  | n => exact nOf_cmdOf ..
  | imm => exact immOf_cmdOf ..

/-! ### Words of the shape of an opcode (R84, R85) -/

/-- The word has the shape of the opcode: its value in `op`, and 0 in the reserved field and in every field it does not
use. These are the checks (a) to (c) of R86. -/
structure HasShape (c : Cmd) (o : Opcode) : Prop where
  op : opOf c = o.code
  zero : zeroOf c = 0
  unused : ∀ f, f ∉ o.uses → fieldIsZero c f = true

@[simp] theorem opOf_and (c d : Cmd) : opOf (c &&& d) = opOf c &&& opOf d := BitVec.extractLsb'_and
@[simp] theorem zeroOf_and (c d : Cmd) : zeroOf (c &&& d) = zeroOf c &&& zeroOf d := BitVec.extractLsb'_and
@[simp] theorem fieldOf_and (c d : Cmd) (f : CmdField) : fieldOf (c &&& d) f = fieldOf c f &&& fieldOf d f :=
  BitVec.extractLsb'_and

/-- The masks of R85 keep `op`. -/
@[simp] theorem opOf_mask (o : Opcode) : opOf o.mask = BitVec.allOnes 8 := by cases o <;> decide
/-- The masks of R85 keep the reserved field. -/
@[simp] theorem zeroOf_mask (o : Opcode) : zeroOf o.mask = BitVec.allOnes 32 := by cases o <;> decide
/-- The masks of R85 drop the fields the opcode uses and keep the others. -/
@[simp] theorem fieldOf_mask (o : Opcode) (f : CmdField) :
    fieldOf o.mask f = if f ∈ o.uses then 0 else BitVec.allOnes f.width := by cases o <;> cases f <;> decide

@[simp] theorem opOf_matchWord (o : Opcode) : opOf o.matchWord = o.code := by cases o <;> decide
@[simp] theorem zeroOf_matchWord (o : Opcode) : zeroOf o.matchWord = 0 := by cases o <;> decide
@[simp] theorem fieldOf_matchWord (o : Opcode) (f : CmdField) : fieldOf o.matchWord f = 0 := by
  cases o <;> cases f <;> decide

/-- The mask table of R85, read field by field, is the shape of the opcode. -/
theorem and_mask_eq_matchWord_iff {c : Cmd} {o : Opcode} : c &&& o.mask = o.matchWord ↔ HasShape c o := by
  have hfield : ∀ f, fieldOf (c &&& o.mask) f = fieldOf o.matchWord f ↔ (f ∉ o.uses → fieldIsZero c f = true) := by
    intro f
    by_cases hf : f ∈ o.uses <;> simp [hf, ← fieldOf_eq_zero_iff]
  rw [cmd_eq_iff, forall_congr' hfield]
  simp only [opOf_and, opOf_mask, opOf_matchWord, zeroOf_and, zeroOf_mask, zeroOf_matchWord, BitVec.and_allOnes]
  exact ⟨fun ⟨hop, hzero, hun⟩ => ⟨hop, hzero, hun⟩, fun ⟨hop, hzero, hun⟩ => ⟨hop, hzero, hun⟩⟩

/-! ### The decoder's checks -/

/-- No two opcodes have one code, and the table of R84 finds each of them by it. -/
theorem Opcode.ofCode_eq_some {v : BitVec 8} {o : Opcode} : Opcode.ofCode v = some o ↔ v = o.code := by
  refine ⟨fun h => ?_, fun h => h ▸ Opcode.ofCode_code o⟩
  have hcode : (o.code == v) = true := List.find?_some (p := fun o : Opcode => o.code == v) h
  exact (beq_iff_eq.1 hcode).symm

theorem Opcode.code_injective {o o' : Opcode} (h : o.code = o'.code) : o = o' :=
  Option.some.inj ((Opcode.ofCode_code o).symm.trans (Opcode.ofCode_eq_some.2 h))

/-- The unused-field check of R89 looks at every operand field. -/
theorem unusedField_check_iff {c : Cmd} {o : Opcode} :
    operandFields.any (fun f => !o.uses.contains f && !fieldIsZero c f) = false ↔
      ∀ f, f ∉ o.uses → fieldIsZero c f = true := by
  have hall : ∀ f : CmdField, f ∈ operandFields := by intro f; cases f <;> decide
  simp [List.any_eq_false, hall]

/-- The five checks of R89 in one condition: a word decodes to the command that its opcode's operands make, when it has the
shape of that opcode and the command is well formed. -/
theorem decodeWord_eq_ok_iff {nbank : Nat} {c : Cmd} {i : Instr} :
    decodeWord nbank c = .ok i ↔ ∃ o, HasShape c o ∧ assembleOperands c o = some i ∧ i.wellFormed nbank = true := by
  constructor
  · intro h
    have hwf : i.wellFormed nbank = true := wellFormed_of_decodeWord h
    unfold decodeWord at h
    split at h
    next => cases h
    next hzero =>
      split at h
      next => cases h
      next o hop =>
        split at h
        next => cases h
        next hun =>
          have hun := unusedField_check_iff.1 (Bool.eq_false_of_not_eq_true hun)
          refine ⟨o, ⟨Opcode.ofCode_eq_some.1 hop, not_not.1 hzero, hun⟩, ?_, hwf⟩
          split at h
          next => cases h
          next j hj =>
            split at h
            next =>
              cases h
              exact hj
            next => cases h
  · rintro ⟨o, ⟨hop, hzero, hun⟩, hi, hwf⟩
    simp only [decodeWord, hzero, hop, Opcode.ofCode_code, unusedField_check_iff.2 hun, hi, hwf, ne_eq,
      not_true_eq_false, Bool.false_eq_true, ↓reduceIte]

/-! ### The operands an opcode's fields make (R82, R87, R88) -/

@[simp] theorem nibble_numOf (f : BitVec 4) : nibble (numOf f) = f := BitVec.ofNat_toNat 4 f

/-- `n` names a variant exactly when it is that variant's value (R87). -/
theorem variantOfN_eq_some {n : BitVec 4} {v : Variant} : variantOfN n = some v ↔ n = v.code := by
  refine ⟨fun h => ?_, fun h => h ▸ variantOfN_code v⟩
  unfold variantOfN at h
  split at h
  next hn => cases h; exact BitVec.eq_of_toNat_eq hn
  next hn => cases h; exact BitVec.eq_of_toNat_eq hn
  next hn => cases h; exact BitVec.eq_of_toNat_eq hn
  next => cases h

/-- `n` names a digest selector exactly when it is that selector's value (R87). -/
theorem selOfN_eq_some {n : BitVec 4} {sel : DigestSel} : selOfN n = some sel ↔ n = sel.code := by
  refine ⟨fun h => ?_, fun h => h ▸ selOfN_code sel⟩
  unfold selOfN at h
  split at h
  next hn => cases h; exact BitVec.eq_of_toNat_eq hn
  next hn => cases h; exact BitVec.eq_of_toNat_eq hn
  next hn => cases h; exact BitVec.eq_of_toNat_eq hn
  next => cases h

/-- `n` gives a byte count exactly when it is that count (R87). -/
theorem countOfN_eq_some {n : BitVec 4} {k : ByteCount} : countOfN n = some k ↔ n = BitVec.ofNat 4 k.val := by
  refine ⟨fun h => ?_, fun h => h ▸ countOfN_ofNat k⟩
  unfold countOfN at h
  split at h
  next => cases h; exact (BitVec.ofNat_toNat 4 n).symm
  next => cases h

/-- `HINIT`'s range of `n` (R87). -/
theorem exists_variantOfN_iff {n : BitVec 4} : (∃ v, variantOfN n = some v) ↔ n.toNat ≤ 2 := by
  simp only [variantOfN_eq_some]
  refine ⟨?_, fun hle => ?_⟩
  · rintro ⟨v, rfl⟩
    cases v <;> decide
  · obtain hn | hn | hn : n.toNat = 0 ∨ n.toNat = 1 ∨ n.toNat = 2 := by omega
    · exact ⟨.x86_32, BitVec.eq_of_toNat_eq hn⟩
    · exact ⟨.x86_128, BitVec.eq_of_toNat_eq hn⟩
    · exact ⟨.x64_128, BitVec.eq_of_toNat_eq hn⟩

/-- `HDIG`'s range of `n` (R87). -/
theorem exists_selOfN_iff {n : BitVec 4} : (∃ sel, selOfN n = some sel) ↔ n.toNat ≤ 2 := by
  simp only [selOfN_eq_some]
  refine ⟨?_, fun hle => ?_⟩
  · rintro ⟨sel, rfl⟩
    cases sel <;> decide
  · obtain hn | hn | hn : n.toNat = 0 ∨ n.toNat = 1 ∨ n.toNat = 2 := by omega
    · exact ⟨.lo, BitVec.eq_of_toNat_eq hn⟩
    · exact ⟨.hi, BitVec.eq_of_toNat_eq hn⟩
    · exact ⟨.fold, BitVec.eq_of_toNat_eq hn⟩

/-- `HPUT`'s range of `n` (R87). -/
theorem exists_countOfN_iff {n : BitVec 4} : (∃ k, countOfN n = some k) ↔ n.toNat ≤ 8 := by
  simp [countOfN, Nat.lt_succ_iff]

/-- The operands assemble exactly when `n` is in the opcode's range (R87). -/
theorem exists_assembleOperands_iff {c : Cmd} {o : Opcode} :
    (∃ i, assembleOperands c o = some i) ↔ NLegal o (nOf c).toNat := by
  cases o with
  | hinit => simp [assembleOperands, NLegal, exists_comm (α := Instr), exists_variantOfN_iff]
  | hput => simp [assembleOperands, NLegal, exists_comm (α := Instr), exists_countOfN_iff]
  | hdig => simp [assembleOperands, NLegal, exists_comm (α := Instr), exists_selOfN_iff]
  | _ => exact iff_of_true ⟨_, rfl⟩ ⟨nofun, nofun, nofun⟩

section
variable {c : Cmd} {o : Opcode} {i : Instr}

/-- The assembled command has the opcode, and its banks are the bank fields that the opcode uses. -/
theorem assembleOperands_spec (h : assembleOperands c o = some i) :
    i.opcode = o ∧ i.bankA = (if .ba ∈ o.uses then some (numOf (baOf c)) else none) ∧
      i.bankB = (if .bb ∈ o.uses then some (numOf (bbOf c)) else none) := by
  cases o with
  | hinit =>
    obtain ⟨v, _, rfl⟩ := Option.map_eq_some_iff.1 h
    exact ⟨rfl, rfl, rfl⟩
  | hput =>
    obtain ⟨k, _, rfl⟩ := Option.map_eq_some_iff.1 h
    exact ⟨rfl, rfl, rfl⟩
  | hdig =>
    obtain ⟨sel, _, rfl⟩ := Option.map_eq_some_iff.1 h
    exact ⟨rfl, rfl, rfl⟩
  | _ =>
    cases h
    exact ⟨rfl, rfl, rfl⟩

/-- The assembled command is well formed exactly when the bank fields the opcode uses are below `NBANK` (R88). -/
theorem wellFormed_iff_banksLegal {nbank : Nat} (h : assembleOperands c o = some i) :
    i.wellFormed nbank = true ↔ BanksLegal nbank o c := by
  have hfield : ∀ (p : Prop) [Decidable p] (f : BitVec 4),
      bankBelow nbank (if p then some (numOf f) else none) = true ↔ (p → f.toNat < nbank) := by
    intro p _ f
    by_cases hp : p <;> simp [hp, bankBelow, numOf]
  obtain ⟨_, hA, hB⟩ := assembleOperands_spec h
  rw [Instr.wellFormed, Bool.and_eq_true, hA, hB, hfield, hfield, BanksLegal]

/-- Encoding the operands of a word of the opcode's shape gives the word: each operand goes back to its field, and the
fields that get 0 were 0. -/
theorem encode_of_assembleOperands (hc : HasShape c o) (h : assembleOperands c o = some i) : encode i = c := by
  obtain ⟨hop, hzero, hun⟩ := hc
  have hrd : .rd ∉ o.uses → rdOf c = 0 := fun hf => beq_iff_eq.1 (hun .rd hf)
  have hrs1 : .rs1 ∉ o.uses → rs1Of c = 0 := fun hf => beq_iff_eq.1 (hun .rs1 hf)
  have hrs2 : .rs2 ∉ o.uses → rs2Of c = 0 := fun hf => beq_iff_eq.1 (hun .rs2 hf)
  have hba : .ba ∉ o.uses → baOf c = 0 := fun hf => beq_iff_eq.1 (hun .ba hf)
  have hbb : .bb ∉ o.uses → bbOf c = 0 := fun hf => beq_iff_eq.1 (hun .bb hf)
  have hn : .n ∉ o.uses → nOf c = 0 := fun hf => beq_iff_eq.1 (hun .n hf)
  have himm : .imm ∉ o.uses → immOf c = 0 := fun hf => beq_iff_eq.1 (hun .imm hf)
  rw [← cmdOf_fields hop hzero]
  cases o with
  | hinit =>
    obtain ⟨v, hv, rfl⟩ := Option.map_eq_some_iff.1 h
    simp [encode, Opcode.uses, hrd, hrs1, hrs2, hba, hbb, himm, variantOfN_eq_some.1 hv]
  | hput =>
    obtain ⟨k, hk, rfl⟩ := Option.map_eq_some_iff.1 h
    simp [encode, Opcode.uses, hrd, hrs2, hba, hbb, himm, countOfN_eq_some.1 hk]
  | hdig =>
    obtain ⟨sel, hsel, rfl⟩ := Option.map_eq_some_iff.1 h
    simp [encode, Opcode.uses, hrs1, hrs2, hba, hbb, himm, selOfN_eq_some.1 hsel]
  | _ =>
    cases h
    simp [encode, Opcode.uses, hrd, hrs1, hrs2, hba, hbb, hn, himm]

end

/-! ### The statements about the encoding -/

/-- Settles O1: the round trip on the word, carried to its sixteen bytes. -/
theorem decodeInvertsEncode : Obligations.DecodeInvertsEncode := by
  intro nbank i hwf
  have hword : decodeWord nbank (encode i) = .ok i := decodeWord_encode hwf
  exact ⟨hword, (decode_cmdBytes nbank (encode i)).trans hword⟩

/-- Settles O2: a word that decodes has its opcode's shape, so encoding its operands builds it again. -/
theorem encodeInvertsDecode : Obligations.EncodeInvertsDecode := by
  intro nbank c i h
  obtain ⟨o, hc, hi, hwf⟩ := decodeWord_eq_ok_iff.1 h
  exact ⟨hwf, encode_of_assembleOperands hc hi⟩

/-- A word decodes to a command of the opcode exactly when it has its shape and its ranges hold. -/
theorem exists_decodeWord_opcode_iff {nbank : Nat} {c : Cmd} {o : Opcode} :
    (∃ i, decodeWord nbank c = .ok i ∧ i.opcode = o) ↔
      HasShape c o ∧ NLegal o (nOf c).toNat ∧ BanksLegal nbank o c := by
  constructor
  · rintro ⟨i, hd, rfl⟩
    obtain ⟨o, hc, hi, hwf⟩ := decodeWord_eq_ok_iff.1 hd
    obtain ⟨rfl, _⟩ := assembleOperands_spec hi
    exact ⟨hc, exists_assembleOperands_iff.1 ⟨i, hi⟩, (wellFormed_iff_banksLegal hi).1 hwf⟩
  · rintro ⟨hc, hn, hb⟩
    obtain ⟨i, hi⟩ := exists_assembleOperands_iff.2 hn
    exact ⟨i, decodeWord_eq_ok_iff.2 ⟨o, hc, hi, (wellFormed_iff_banksLegal hi).2 hb⟩, (assembleOperands_spec hi).1⟩

/-- Settles O3: the mask table says that the word has the opcode's shape. -/
theorem decodeIsTheMaskTable : Obligations.DecodeIsTheMaskTable := by
  intro nbank c o
  rw [exists_decodeWord_opcode_iff, and_mask_eq_matchWord_iff]

/-- The cases (a) to (e) of R86 are what keeps a word from having an opcode's shape and ranges. -/
theorem illegalWord_iff {nbank : Nat} {c : Cmd} :
    IllegalWord nbank c ↔ ¬ ∃ o, HasShape c o ∧ NLegal o (nOf c).toNat ∧ BanksLegal nbank o c := by
  constructor
  · rintro hill ⟨o, ⟨hop, hzero, hun⟩, hn, hb⟩
    obtain hnone | hres | ⟨o', hop', hcase⟩ := hill
    · exact hnone o hop
    · exact hres hzero
    · obtain rfl : o = o' := Opcode.code_injective (hop.symm.trans hop')
      obtain ⟨f, hf, hne⟩ | hnot | hnot := hcase
      · exact Bool.false_ne_true (hne.symm.trans (hun f hf))
      · exact hnot hn
      · exact hnot hb
  · intro hnone
    by_contra hill
    simp only [IllegalWord, not_or, not_forall, not_exists, not_and, not_not, ne_eq] at hill
    obtain ⟨⟨o, hop⟩, hzero, hlegal⟩ := hill
    obtain ⟨hun, hn, hb⟩ := hlegal o hop
    exact hnone ⟨o, ⟨hop, hzero, fun f hf => Bool.eq_true_of_not_eq_false (hun f hf)⟩, hn, hb⟩

/-- Every word selects a command or is illegal (R86). -/
theorem exists_decodeWord_iff {nbank : Nat} {c : Cmd} : (∃ i, decodeWord nbank c = .ok i) ↔ ¬ IllegalWord nbank c := by
  rw [illegalWord_iff, not_not, ← exists_congr fun _ => exists_decodeWord_opcode_iff, exists_comm]
  exact exists_congr fun i => ⟨fun h => ⟨i.opcode, h, rfl⟩, fun ⟨_, h, _⟩ => h⟩

/-- A word that is the encoding of a well-formed command decodes to it. -/
theorem decodeWord_of_encode {nbank : Nat} {c : Cmd} {i : Instr} (hc : encode i = c) (hwf : i.wellFormed nbank = true) :
    decodeWord nbank c = .ok i := hc ▸ decodeWord_encode hwf

/-- Settles O5: each word is the encoding of its command. -/
theorem specWordsDecode : Obligations.SpecWordsDecode :=
  ⟨decodeWord_of_encode rfl rfl, decodeWord_of_encode rfl rfl, decodeWord_of_encode rfl rfl, decodeWord_of_encode rfl rfl,
    decodeWord_of_encode rfl rfl, decodeWord_of_encode rfl rfl, decodeWord_of_encode rfl rfl, decodeWord_of_encode rfl rfl⟩

end Sys2Proof
end

section
/-! The response of a command and of a step, and the run of a whole stream (`30_encoding.md` R91, R95, R97;
`60_exceptions.md` R200, R201). -/

namespace Sys2Proof.Machine

/-! ### Every command answers -/

/-- A check raises its error and so answers; with the rest of the command answering, the command does. -/
theorem exists_next_of_check {c : Prop} [Decidable c] {e : LcbError} {s : State} {rest : Result}
    (h : ∃ t, rest = .next t) : ∃ t, (if c then raise e s else rest) = .next t := by
  by_cases hc : c
  · exact ⟨_, if_pos hc⟩
  · rwa [if_neg hc]

/-- No command is stuck: the checks are passed or raise an error, and what follows them completes (R200, R246). -/
theorem exec_exists_next (i : Instr) (s : State) : ∃ t, exec i s = .next t := by
  cases i with
  | ldi | rdr | fmix32 | fmix64 | hinit => exact ⟨_, rfl⟩
  | bpop | hput | hfin | hdig | bput | bcnt | bsize => exact exists_next_of_check ⟨_, rfl⟩
  | bcreate | bget | bset | bor | borw | brdw => exact exists_next_of_check (exists_next_of_check ⟨_, rfl⟩)

section
variable {i : Instr} {s t : State}

/-- No command touches the streams (R95, R97). -/
theorem Effect.sameStreams (h : Effect i s t) : SameStreams s t := by
  cases h with
  | raised | read | reg | bank | hash => exact ⟨rfl, rfl⟩

/-- No command changes the parameters (R35). -/
theorem Effect.cfg_eq (h : Effect i s t) : t.cfg = s.cfg := by
  cases h with
  | raised | read | reg | bank | hash => rfl

/-- A command holds one response, whose data is 0 unless it is `RDR` (R91). -/
theorem Effect.exists_rsp (h : Effect i s t) : ∃ r, t.rsp = some r ∧ ((∀ rs1, i ≠ .rdr rs1) → r.data = 0) := by
  cases h with
  | read rs1 hi => exact ⟨_, rfl, fun hne => absurd hi (hne rs1)⟩
  | raised | reg | bank | hash => exact ⟨_, rfl, fun _ => rfl⟩

/-- Settles O9: every effect of a command holds a response, and only the one of `RDR` carries data. -/
theorem oneResponsePerCommand : Obligations.OneResponsePerCommand := by
  intro i s
  obtain ⟨t, ht⟩ := exec_exists_next i s
  have he : Effect i s t := exec_effect ht
  obtain ⟨r, hr, hdata⟩ := he.exists_rsp
  refine ⟨t, r, ht, hr, he.sameStreams, he.cfg_eq, ?_⟩
  cases i with
  | rdr rs1 =>
    obtain rfl := (completeWith_eq_next (s.reg rs1) s t).1 ht
    obtain rfl := Option.some.inj hr
    rfl
  | _ => exact hdata nofun

/-! ### The steps -/

/-- The step while a response waits: the host takes it (R95 c). -/
theorem step_of_rsp {r : Response} (hr : s.rsp = some r) : step s = .next s.takeRsp := by
  simp only [step, hr]

/-- The step with nothing waiting and nothing presented (R95 d). -/
theorem step_of_idle (hr : s.rsp = none) (hc : s.cmds = []) : step s = .next s := by
  simp only [step, hr, (State.present_eq_none s).2 hc]

/-- The step on a word that does not decode raises `IllegalCommand` (R86, R205). -/
theorem step_of_decodeWord_error {c : Cmd} {rest : List Cmd} {e : DecodeError} (hr : s.rsp = none)
    (hc : s.cmds = c :: rest) (hd : decodeWord s.cfg.nbank c = .error e) :
    step s = raise .illegalCommand { s with cmds := rest } := by
  have hp : s.present = some (c, { s with cmds := rest }) := (State.present_eq_some ..).2 ⟨rest, hc, rfl⟩
  simp only [step, hr, hp, hd]

/-- The step on an illegal word raises `IllegalCommand`. -/
theorem step_of_illegalWord {c : Cmd} {rest : List Cmd} (hr : s.rsp = none) (hc : s.cmds = c :: rest)
    (hill : IllegalWord s.cfg.nbank c) : step s = raise .illegalCommand { s with cmds := rest } := by
  cases hd : decodeWord s.cfg.nbank c with
  | ok i => exact absurd hill (exists_decodeWord_iff.1 ⟨i, hd⟩)
  | error e => exact step_of_decodeWord_error hr hc hd

/-- Settles O4: a word either has an opcode's shape and ranges or is illegal, and the step raises the error on it. -/
theorem illegalWordsAreRefused : Obligations.IllegalWordsAreRefused :=
  ⟨fun _ _ => exists_decodeWord_iff, fun _ _ _ hr hc hill =>
    ⟨_, step_of_illegalWord hr hc hill, ⟨rfl, rfl, rfl, rfl⟩, rfl, rfl, rfl, rfl⟩⟩

/-- Settles O7: the branches of the step that run no word. -/
theorem otherStepsChangeNoState : Obligations.OtherStepsChangeNoState := by
  refine ⟨fun s r hr => ⟨s.takeRsp, step_of_rsp hr, ⟨rfl, rfl, rfl, rfl⟩, rfl, rfl, ?_⟩, fun s => step_of_idle⟩
  rw [State.takeRsp_trace, hr, Option.toList_some]

/-! ### Whole runs -/

/-- The step that presents a word takes it from the stream and holds its response, whether or not it decodes. -/
theorem step_presents {c : Cmd} {rest : List Cmd} (hr : s.rsp = none) (hc : s.cmds = c :: rest) :
    ∃ t r, step s = .next t ∧ t.cmds = rest ∧ t.trace = s.trace ∧ t.rsp = some r := by
  cases hd : decodeWord s.cfg.nbank c with
  | error e => exact ⟨_, _, step_of_decodeWord_error hr hc hd, rfl, rfl, rfl⟩
  | ok i =>
    obtain ⟨t, r, ht, hrsp, ⟨hcmds, htrace⟩, _⟩ := oneResponsePerCommand i { s with cmds := rest }
    exact ⟨t, r, (step_of_decodeWord hr hc hd).trans ht, hcmds, htrace, hrsp⟩

/-- A run goes on from the state its first step answers. -/
theorem run_succ_of_step {M : Host.Core} {s t : M.State} (h : M.step s = .next t) (k : Nat) :
    M.run (k + 1) s = M.run k t := by
  rw [Host.Core.run, h]

/-- Two steps present one word and take its response. -/
theorem run_transaction {c : Cmd} {rest : List Cmd} (hr : s.rsp = none) (hc : s.cmds = c :: rest) :
    ∃ (t : State) (r : Response), t.rsp = none ∧ t.cmds = rest ∧ t.trace = s.trace ++ [r] ∧
      ∀ k, core.run (k + 2) s = core.run k t := by
  obtain ⟨u, r, hs, hcmds, htrace, hrsp⟩ := step_presents hr hc
  refine ⟨u.takeRsp, r, rfl, hcmds, ?_, fun k => ?_⟩
  · rw [State.takeRsp_trace, hrsp, htrace, Option.toList_some]
  · exact (run_succ_of_step (M := core) hs (k + 1)).trans (run_succ_of_step (M := core) (step_of_rsp hrsp) k)

end

/-- Settles O8, by induction on the stream: two steps shorten it by one word and lengthen the trace by one response. -/
theorem everyRunEnds : Obligations.EveryRunEnds := by
  intro s
  generalize hcs : s.cmds = cs
  induction cs generalizing s with
  | nil => exact fun hr => ⟨s, rfl, hcs, hr, rfl⟩
  | cons c rest ih =>
    intro hr
    obtain ⟨u, r, hur, hucmds, hutrace, hrun⟩ := run_transaction hr hcs
    obtain ⟨t, ht, hcmds, hrsp, hlen⟩ := ih u hucmds hur
    refine ⟨t, (hrun _).trans ht, hcmds, hrsp, ?_⟩
    rw [hlen, hutrace, List.length_append, List.length_singleton, List.length_cons]
    omega

/-! ### The response word (R91, R201) -/

theorem Response.word_status (r : Response) : r.word.extractLsb' 0 8 = r.status.code :=
  BitVec.extractLsb'_append_eq_right

theorem Response.word_data (r : Response) : r.word.extractLsb' 8 64 = r.data :=
  BitVec.extractLsb'_append_eq_left

/-- The statuses in the order of the table of R201. -/
def allStatuses : List Status :=
  [.ok, .error .sizeError, .error .sizeMismatchError, .error .emptyInputError, .error .illegalCommand,
    .error .bankInvalid, .error .rangeError, .error .hashStateError, .error .capacityError]

theorem mem_allStatuses (a : Status) : a ∈ allStatuses := by
  cases a with
  | ok => decide
  | error e => cases e <;> decide

/-- Settles O11: no two statuses share a code because the nine codes of the table are distinct. -/
theorem responseWordLayout : Obligations.ResponseWordLayout := by
  have hcodes : (allStatuses.map Status.code).Nodup := by decide
  exact ⟨fun r => ⟨r.word_status, r.word_data⟩, rfl,
    fun a b => List.inj_on_of_nodup_map hcodes (mem_allStatuses a) (mem_allStatuses b)⟩

end Sys2Proof.Machine
end

section
/-! The parts that the statements about one command share: the fields of its word, the words of its opcode that are refused,
and the frame of a register write (`30_encoding.md` R80, R85, R87; `10_state.md` R21; `60_exceptions.md` R205). -/

namespace Sys2Proof.Machine

/-! ### The command's word -/

/-- A register or bank number below 16 is the number of its four-bit field. -/
@[simp] theorem nibble_toNat (r : Fin 16) : (nibble r).toNat = r.val := Nat.mod_eq_of_lt r.isLt

/-- A word built by `cmdOf` has the fields it was built from; a field that gets 0 is the field of register or bank 0. -/
theorem hasFields_cmdOf (o : Opcode) (rd rs1 rs2 ba bb : Fin 16) (n : BitVec 4) (imm : Word) :
    HasFields (cmdOf o (nibble rd) (nibble rs1) (nibble rs2) (nibble ba) (nibble bb) n imm) o.code rd rs1 rs2 ba bb n.toNat
      imm where
  op := opOf_cmdOf ..
  rd := by rw [rdOf_cmdOf, nibble_toNat]
  rs1 := by rw [rs1Of_cmdOf, nibble_toNat]
  rs2 := by rw [rs2Of_cmdOf, nibble_toNat]
  ba := by rw [baOf_cmdOf, nibble_toNat]
  bb := by rw [bbOf_cmdOf, nibble_toNat]
  n := by rw [nOf_cmdOf]
  zero := zeroOf_cmdOf ..
  imm := immOf_cmdOf ..

/-! ### What a response leaves unchanged -/

theorem State.sameCore_respond (s : State) (r : Response) : SameCore s (s.respond r) := ⟨rfl, rfl, rfl, rfl⟩

theorem State.sameStreams_respond (s : State) (r : Response) : SameStreams s (s.respond r) := ⟨rfl, rfl⟩

/-! ### The refused words of an opcode -/

/-- A word of the opcode with a non-zero field outside those it uses, or with `n` above the range, is refused: it is illegal
by case (c) or (d) of R86. Where the opcode does not use `n`, a non-zero `n` is such a field. -/
theorem othersRefused_of_nRange {o : Opcode} {nmax : Nat} (hrange : .n ∈ o.uses → ∀ n, nmax < n → ¬ NLegal o n) :
    OthersRefused o.code o.uses nmax := by
  intro s c rest hr hc hop hbad
  have hcase : (∃ f, f ∉ o.uses ∧ fieldIsZero c f = false) ∨ ¬ NLegal o (nOf c).toNat := by
    obtain hfield | hn := hbad
    · exact .inl hfield
    · by_cases huse : .n ∈ o.uses
      · exact .inr (hrange huse _ hn)
      · have hne : nOf c ≠ 0 := fun h0 => Nat.not_lt_zero nmax (by rwa [h0] at hn)
        exact .inl ⟨.n, huse, beq_eq_false_iff_ne.2 hne⟩
  have hill : IllegalWord s.cfg.nbank c := .inr (.inr ⟨o, hop, hcase.imp_right .inl⟩)
  exact ⟨_, step_of_illegalWord hr hc hill, State.sameCore_respond .., State.sameStreams_respond .., rfl⟩

/-- The refused words of an opcode that does not use `n`. -/
theorem othersRefused_of_n_unused {o : Opcode} (hn : .n ∉ o.uses) : OthersRefused o.code o.uses 0 :=
  othersRefused_of_nRange fun huse => absurd huse hn

/-! ### A register write -/

/-- Writing a register and answering touches no other register and no other part of the state (R21). -/
theorem State.onlyReg_setReg_respond (s : State) (rd : RegNo) (v : Word) (r : Response) :
    OnlyReg rd s ((s.setReg rd v).respond r) where
  others q hq := by rw [State.respond_reg, State.reg_setReg, if_neg hq]
  banks := rfl
  hash := rfl
  cfg := rfl
  streams := ⟨rfl, rfl⟩

/-- A command that ends in a register write completes, with the value in that register and nothing else changed. -/
theorem complete_setReg_spec (s : State) (rd : RegNo) (v : Word) :
    ∃ t, complete (s.setReg rd v) = .next t ∧ t.reg rd = v ∧ OnlyReg rd s t ∧ Completed t := by
  refine ⟨(s.setReg rd v).respond ⟨.ok, 0⟩, rfl, ?_, s.onlyReg_setReg_respond rd v _, rfl⟩
  rw [State.respond_reg, State.reg_setReg, if_pos rfl]

end Sys2Proof.Machine
end

section
/-! The data-register commands `LDI` and `RDR` (`40_data_registers.md` R110, R111). -/

namespace Sys2Proof.Machine

theorem exec_ldi (rd : RegNo) (imm : Word) (s : State) : exec (.ldi rd imm) s = complete (s.setReg rd imm) := rfl

theorem exec_rdr (rs1 : RegNo) (s : State) : exec (.rdr rs1) s = .next (s.respond ⟨.ok, s.reg rs1⟩) := rfl

/-- Settles O12: `LDI` is a register write, of the immediate. -/
theorem ldiLoadsTheImmediate : Obligations.LdiLoadsTheImmediate := by
  intro rd imm s
  refine ⟨hasFields_cmdOf .ldi rd 0 0 0 0 0 imm, othersRefused_of_n_unused (o := .ldi) (by decide), ?_⟩
  rw [exec_ldi]
  exact complete_setReg_spec s rd imm

/-- Settles O13: `RDR` is a response alone, with the register's value as its data. -/
theorem rdrAnswersTheRegister : Obligations.RdrAnswersTheRegister := by
  intro rs1 s
  refine ⟨hasFields_cmdOf .rdr 0 rs1 0 0 0 0 0, othersRefused_of_n_unused (o := .rdr) (by decide), ?_⟩
  exact ⟨_, exec_rdr rs1 s, s.sameCore_respond _, s.sameStreams_respond _, rfl⟩

end Sys2Proof.Machine
end

section
/-! The rules of the bitmap unit that its commands share: what ORing a word or a bitmap in does to storage words, bytes and
counts, and what a command that raises an error or writes one bank answers (`20_memory.md` R51, R52; `41_bitset.md` R124,
R125, R128; `10_state.md` R27). -/

namespace Sys2Proof.Machine

/-! ### Bytes and words after a write -/

/-- Setting a cell leaves every byte but the one that holds it (R52). -/
theorem Memory.read_setBit_of_ne {m : Memory} (h : Memory.wf m = true) {i a : Nat} (ha : a ≠ i / 8) :
    Memory.read (Memory.setBit m i) a = Memory.read m a := by
  rw [Memory.setBit, Memory.read_write m _ _ a h, if_neg ha]

/-- ORing a word in leaves every byte outside that word (R125). -/
theorem Memory.read_orWord_of_ne {m : Memory} (h : Memory.wf m = true) (v : Word) {w a : Nat} (ha : a / 8 ≠ w) :
    Memory.read (Memory.orWord m w v) a = Memory.read m a := by
  rw [Memory.orWord, (Memory.orWord_fold m w v 8 h).2, if_neg (by omega)]

/-- ORing a word in changes that storage word alone (R125). -/
theorem Memory.word_orWord {m : Memory} (h : Memory.wf m = true) (w : Nat) (v : Word) (n : Nat) :
    Memory.word (Memory.orWord m w v) n = if n = w then Memory.word m w ||| v else Memory.word m n := by
  refine BitVec.eq_of_getLsbD_eq fun j hj => ?_
  have hdiv : (64 * n + j) / 64 = n := by omega
  have hmod : (64 * n + j) % 64 = j := by omega
  rw [Memory.word_getLsbD _ n j hj, Memory.bit_orWord m w v _ h, hdiv, hmod]
  split
  next hn =>
    subst hn
    simp [Memory.word_getLsbD m n j hj]
  next hn => simp [hn, Memory.word_getLsbD m n j hj]

@[simp] theorem Memory.word_nil (w : Nat) : Memory.word [] w = 0 :=
  BitVec.eq_of_getLsbD_eq fun j hj => by simp [Memory.word_getLsbD [] w j hj]

/-- The bulk OR leaves every byte at or above the image's length (R124). -/
theorem Memory.read_orImage_of_le {m src : Memory} (hs : Memory.wf src = true) (h : Memory.wf m = true) {n a : Nat}
    (ha : n ≤ a) : Memory.read (Memory.orImage n m src) a = Memory.read m a := by
  rw [(Memory.orImage_spec n src m hs h).2, if_neg (Nat.not_lt_of_le ha)]

/-- Inserting a cell leaves every byte but the one that holds it (R122). -/
theorem Bank.read_insert_of_ne {k : Bank} (h : Memory.wf k.bm = true) {i a : Nat} (ha : a ≠ i / 8) :
    Memory.read (k.insert i).bm a = Memory.read k.bm a := by
  unfold Bank.insert
  split
  · rfl
  · exact Memory.read_setBit_of_ne h ha

/-- Inserting a cell counts it exactly when it was 0 (R122). -/
theorem Bank.scnt_insert (k : Bank) (i : Nat) :
    (k.insert i).scnt = if Memory.bit k.bm i then k.scnt else k.scnt + 1 := by
  unfold Bank.insert
  split <;> rfl

/-! ### Counts (R128) -/

/-- The cells of one more storage word. -/
theorem Memory.countBits_add_word (m : Memory) (n : Nat) :
    Memory.countBits m (64 * (n + 1)) = Memory.countBits m (64 * n) + popcount (Memory.word m n) := by
  unfold Memory.countBits popcount
  rw [Nat.mul_succ, List.range_add, List.countP_append, List.countP_map]
  congr 1
  refine List.countP_congr fun j hj => ?_
  rw [Function.comp_apply, Memory.word_getLsbD m n j (List.mem_range.1 hj)]

/-- The count of the cells of `n` storage words is the sum of the words' own counts. -/
theorem Memory.countBits_eq_sum_popcount (m : Memory) (n : Nat) :
    Memory.countBits m (64 * n) = ((List.range n).map (fun w => popcount (Memory.word m w))).sum := by
  induction n with
  | zero => rfl
  | succ n ih => rw [Memory.countBits_add_word, ih, List.sum_range_succ]

/-- A bitmap whose cells are all cells of one of two others counts at most as many as both together. -/
theorem Memory.countBits_le_add {m a b : Memory} (len : Nat)
    (h : ∀ i, i < len → Memory.bit m i = (Memory.bit a i || Memory.bit b i)) :
    Memory.countBits m len ≤ Memory.countBits a len + Memory.countBits b len := by
  induction len with
  | zero => exact Nat.zero_le _
  | succ n ih =>
    have hcell : ∀ p q : Bool,
        (if (p || q) = true then 1 else 0) ≤ (if p = true then 1 else 0) + (if q = true then 1 else 0) := by decide
    have hle := ih fun i hi => h i (Nat.lt_succ_of_lt hi)
    unfold Memory.countBits at hle ⊢
    simp only [List.range_succ, List.countP_append, List.countP_singleton, h n (Nat.lt_succ_self n)]
    have := hcell (Memory.bit a n) (Memory.bit b n)
    omega

/-- Settles O24: `PopBank` is the cell-by-cell count, which the storage words share out among them. -/
theorem popBankIsExact : Obligations.PopBankIsExact := by
  intro M k h
  have hcells : k.pop.toNat = Memory.countBits k.bm k.bits := Bank.pop_toNat k h.canonical h.whole.1
  refine ⟨hcells, ?_, hcells.trans_le (Memory.countBits_le k.bm k.bits)⟩
  rw [hcells, h.whole.2, Memory.countBits_eq_sum_popcount]
  rfl

/-! ### Banks that meet the invariant -/

section
variable {M : Nat} {k src : Bank}

/-- A bank with a storage word in range holds a bitmap. -/
theorem Bank.valid_of_lt_words {w : Nat} (h : w < k.words) : k.blen ≠ 0 := by
  intro h0
  simp [Bank.words, Bank.bits, h0] at h

/-- A bank with a cell in range holds a bitmap. -/
theorem Bank.valid_of_lt_bits {i : Nat} (h : i < k.bits) : k.blen ≠ 0 := by
  intro h0
  simp [Bank.bits, h0] at h

/-- Of two bitmaps of one length either may be ORed into the other. -/
theorem Bank.orFrom_comm (h : k.Ok M) (hs : src.Ok M) (hl : k.blen = src.blen) : k.orFrom src = src.orFrom k := by
  refine (Bank.orFrom_ok h hs).ext (Bank.orFrom_ok hs h) hl fun i hi => ?_
  have hi' : i < src.bits := by simpa [Bank.bits, hl] using hi
  rw [Bank.bit_orFrom_inside h hs hi, Bank.bit_orFrom_inside hs h hi', Bool.or_comm]

/-- The count of a union is at least the target's. -/
theorem Bank.scnt_le_orFrom (h : k.Ok M) (hs : src.Ok M) : k.scnt.toNat ≤ (k.orFrom src).scnt.toNat :=
  h.scnt_le (Bank.orFrom_ok h hs) rfl (Bank.orFrom_keepsBits hs.canonical h.canonical)

/-- The count of a union is at most the sum of the counts. -/
theorem Bank.orFrom_scnt_le_add (h : k.Ok M) (hs : src.Ok M) (hl : k.blen = src.blen) :
    (k.orFrom src).scnt.toNat ≤ k.scnt.toNat + src.scnt.toNat := by
  have hbits : src.bits = k.bits := by rw [Bank.bits, Bank.bits, hl]
  rw [(Bank.orFrom_ok h hs).count, h.count, hs.count, hbits]
  exact Memory.countBits_le_add k.bits fun i hi => Bank.bit_orFrom_inside h hs hi

/-- The count of a bitmap is at most its length. -/
theorem Bank.Ok.scnt_le_bits (h : k.Ok M) : k.scnt.toNat ≤ k.bits :=
  h.count.trans_le (Memory.countBits_le k.bm k.bits)

end

/-! ### What a command answers -/

section
variable {i : Instr} {s : State}

/-- A command that ends in raising an error changes nothing (R213). -/
theorem exists_raised {e : LcbError} (h : exec i s = raise e s) : ∃ t, exec i s = .next t ∧ Raised e s t :=
  ⟨_, h, s.sameCore_respond _, s.sameStreams_respond _, rfl⟩

/-- Replacing a bank and answering touches no other bank and no other part of the state (R27). -/
theorem State.onlyBank_setBank_respond (s : State) (b : BankNo) (k : Bank) (r : Response) :
    OnlyBank b s ((s.setBank b k).respond r) where
  x := rfl
  others c hc := by rw [State.respond_bank, State.bank_setBank, if_neg hc]
  hash := rfl
  cfg := rfl
  streams := ⟨rfl, rfl⟩

/-- A command that ends in a bank write completes, with that bank in its place and nothing else changed. -/
theorem exists_of_setBank {b : BankNo} {k : Bank} (h : exec i s = complete (s.setBank b k)) :
    ∃ t, exec i s = .next t ∧ t.bank b = k ∧ OnlyBank b s t ∧ Completed t := by
  refine ⟨(s.setBank b k).respond ⟨.ok, 0⟩, h, ?_, s.onlyBank_setBank_respond b k _, rfl⟩
  rw [State.respond_bank, State.bank_setBank, if_pos rfl]

/-- A command that ends in a register write completes, with the value there and nothing else changed. -/
theorem exists_of_setReg {rd : RegNo} {v : Word} (h : exec i s = complete (s.setReg rd v)) :
    ∃ t, exec i s = .next t ∧ t.reg rd = v ∧ OnlyReg rd s t ∧ Completed t := by
  rw [h]
  exact complete_setReg_spec s rd v

end

end Sys2Proof.Machine
end

section
/-! The commands of the bitmap unit, `BCREATE`, `BGET`, `BSET`, `BPOP`, `BOR`, `BORW`, `BRDW` (`41_bitset.md` R120 to R127):
what each is once its checks fail or pass, and the statements about each. -/

namespace Sys2Proof.Machine

section
variable {s : State} {rd rs1 rs2 : RegNo} {ba bb : BankNo}

/-! ### BCREATE (R120) -/

/-- `badSize` is the condition of R202. -/
theorem badSize_iff {len : Nat} : badSize len = true ↔ len = 0 ∨ len % 8192 ≠ 0 := by
  simp [badSize, Config.gran]

theorem badSize_eq_false_iff {len : Nat} : badSize len = false ↔ len ≠ 0 ∧ len % 8192 = 0 := by
  simp [badSize, Config.gran]

theorem exec_bcreate_of_badSize (h : badSize (s.index rs1) = true) : exec (.bcreate ba rs1) s = raise .sizeError s := by
  rw [exec, execBcreate, if_pos h]

theorem exec_bcreate_of_tooLong (h : badSize (s.index rs1) = false) (hM : s.cfg.maxBits < s.index rs1) :
    exec (.bcreate ba rs1) s = raise .capacityError s := by
  rw [exec, execBcreate, h, if_neg Bool.false_ne_true, if_pos hM]

theorem exec_bcreate_of_legal (h : badSize (s.index rs1) = false) (hM : s.index rs1 ≤ s.cfg.maxBits) :
    exec (.bcreate ba rs1) s = complete (s.setBank ba (Bank.create (s.reg rs1))) := by
  rw [exec, execBcreate, h, if_neg Bool.false_ne_true, if_neg (Nat.not_lt_of_le hM)]

/-! ### The commands on an invalid bank, and past the end of a valid one (R127, R206, R207) -/

theorem exec_bget_of_invalid (h : (s.bank ba).blen = 0) : exec (.bget rd ba rs1) s = raise .bankInvalid s := if_pos h

theorem exec_bget_of_le (hv : (s.bank ba).blen ≠ 0) (hr : (s.bank ba).bits ≤ s.index rs1) :
    exec (.bget rd ba rs1) s = raise .rangeError s := by
  rw [exec, execBget, if_neg hv, if_pos hr]

theorem exec_bset_of_invalid (h : (s.bank ba).blen = 0) : exec (.bset ba rs1) s = raise .bankInvalid s := if_pos h

theorem exec_bset_of_le (hv : (s.bank ba).blen ≠ 0) (hr : (s.bank ba).bits ≤ s.index rs1) :
    exec (.bset ba rs1) s = raise .rangeError s := by
  rw [exec, execBset, if_neg hv, if_pos hr]

theorem exec_bpop_of_invalid (h : (s.bank ba).blen = 0) : exec (.bpop rd ba) s = raise .bankInvalid s := if_pos h

theorem exec_bor_of_invalid (h : (s.bank ba).blen = 0 ∨ (s.bank bb).blen = 0) :
    exec (.bor ba bb) s = raise .bankInvalid s := if_pos h

theorem exec_bor_of_blen_ne (hv : ¬ ((s.bank ba).blen = 0 ∨ (s.bank bb).blen = 0))
    (hl : (s.bank ba).blen ≠ (s.bank bb).blen) : exec (.bor ba bb) s = raise .sizeMismatchError s := by
  rw [exec, execBor, if_neg hv, if_pos hl]

theorem exec_borw_of_invalid (h : (s.bank ba).blen = 0) : exec (.borw ba rs1 rs2) s = raise .bankInvalid s := if_pos h

theorem exec_borw_of_le (hv : (s.bank ba).blen ≠ 0) (hr : (s.bank ba).words ≤ s.index rs1) :
    exec (.borw ba rs1 rs2) s = raise .rangeError s := by
  rw [exec, execBorw, if_neg hv, if_pos hr]

theorem exec_brdw_of_invalid (h : (s.bank ba).blen = 0) : exec (.brdw rd ba rs1) s = raise .bankInvalid s := if_pos h

theorem exec_brdw_of_le (hv : (s.bank ba).blen ≠ 0) (hr : (s.bank ba).words ≤ s.index rs1) :
    exec (.brdw rd ba rs1) s = raise .rangeError s := by
  rw [exec, execBrdw, if_neg hv, if_pos hr]

/-! ### The reads, once their checks pass -/

theorem exec_bget_of_lt (hr : s.index rs1 < (s.bank ba).bits) :
    exec (.bget rd ba rs1) s = complete (s.setReg rd (bitWord (Memory.bit (s.bank ba).bm (s.index rs1)))) := by
  rw [exec, execBget, if_neg (Bank.valid_of_lt_bits hr), if_neg (Nat.not_le_of_lt hr)]

theorem exec_bpop_of_valid (hv : (s.bank ba).blen ≠ 0) :
    exec (.bpop rd ba) s = complete (s.setReg rd (s.bank ba).pop) := if_neg hv

theorem exec_brdw_of_lt (hr : s.index rs1 < (s.bank ba).words) :
    exec (.brdw rd ba rs1) s = complete (s.setReg rd (Memory.word (s.bank ba).bm (s.index rs1))) := by
  rw [exec, execBrdw, if_neg (Bank.valid_of_lt_words hr), if_neg (Nat.not_le_of_lt hr)]

/-- A bit, zero-extended, is 1 or 0. -/
theorem bitWord_eq (b : Bool) : bitWord b = if b then 1 else 0 := by cases b <;> rfl

end

/-! ### The statements -/

/-- Settles O15: a bank without a listed byte has every cell 0. -/
theorem bcreateMakesAZeroBitmap : Obligations.BcreateMakesAZeroBitmap := by
  intro ba rs1 s
  refine ⟨hasFields_cmdOf .bcreate 0 rs1 0 ba 0 0 0, othersRefused_of_n_unused (o := .bcreate) (by decide),
    fun hsize => ?_, fun h0 hmod hcap => ?_, fun h0 hmod hcap => ?_⟩
  · exact exists_raised (exec_bcreate_of_badSize (badSize_iff.2 hsize))
  · exact exists_raised (exec_bcreate_of_tooLong (badSize_eq_false_iff.2 ⟨h0, hmod⟩) hcap)
  · have hsize : badSize (s.index rs1) = false := badSize_eq_false_iff.2 ⟨h0, hmod⟩
    obtain ⟨t, ht, hk, hframe, hdone⟩ := exists_of_setBank (exec_bcreate_of_legal (ba := ba) hsize hcap)
    refine ⟨t, ht, ?_, ?_, fun i _ => ?_, hframe, hdone⟩ <;> rw [hk]
    · rfl
    · rfl
    · exact Memory.bit_nil i

/-- Settles O16. -/
theorem bgetReadsTheBit : Obligations.BgetReadsTheBit := by
  intro rd ba rs1 s
  refine ⟨hasFields_cmdOf .bget rd rs1 0 ba 0 0 0, othersRefused_of_n_unused (o := .bget) (by decide),
    fun hinv => exists_raised (exec_bget_of_invalid hinv), fun hv hle => exists_raised (exec_bget_of_le hv hle),
    fun hlt => ?_⟩
  obtain ⟨t, ht, hbit, hframe, hdone⟩ := exists_of_setReg (exec_bget_of_lt (rd := rd) (ba := ba) hlt)
  exact ⟨t, ht, hbit.trans (bitWord_eq _), hframe, hdone⟩

/-- Settles O17: the command is the bank operation `insert`. -/
theorem bsetSetsAndCountsTheBit : Obligations.BsetSetsAndCountsTheBit := by
  intro ba rs1 s
  refine ⟨hasFields_cmdOf .bset 0 rs1 0 ba 0 0 0, othersRefused_of_n_unused (o := .bset) (by decide),
    fun hinv => exists_raised (exec_bset_of_invalid hinv), fun hv hle => exists_raised (exec_bset_of_le hv hle),
    fun hwf hlt => ?_⟩
  obtain ⟨t, ht, hk, hframe, hdone⟩ := exists_of_setBank (exec_bset_of_lt (Bank.valid_of_lt_bits hlt) hlt)
  refine ⟨t, ht, ?_, fun j => ?_, fun a ha => ?_, ?_, hframe, hdone⟩ <;> rw [hk]
  · exact Bank.insert_blen ..
  · exact Bank.bit_insert _ _ j hwf
  · exact Bank.read_insert_of_ne hwf ha
  · exact Bank.scnt_insert ..

/-- Settles O18: the machine's count of the listed bytes is the count of the cells. -/
theorem bpopCountsTheCells : Obligations.BpopCountsTheCells := by
  intro rd ba s
  refine ⟨hasFields_cmdOf .bpop rd 0 0 ba 0 0 0, othersRefused_of_n_unused (o := .bpop) (by decide),
    fun hinv => exists_raised (exec_bpop_of_invalid hinv), fun hv hok => ?_⟩
  obtain ⟨t, ht, hpop, hframe, hdone⟩ := exists_of_setReg (exec_bpop_of_valid (rd := rd) hv)
  refine ⟨t, ht, ?_, hframe, hdone⟩
  rw [hpop]
  exact (popBankIsExact _ _ hok).1

/-- Settles O19: the command is the bank operation `orFrom`. -/
theorem borUnitesTheBitmaps : Obligations.BorUnitesTheBitmaps := by
  intro ba bb s
  refine ⟨hasFields_cmdOf .bor 0 0 0 ba bb 0 0, othersRefused_of_n_unused (o := .bor) (by decide),
    fun hinv => exists_raised (exec_bor_of_invalid hinv),
    fun ha hb hne => exists_raised (exec_bor_of_blen_ne (not_or.2 ⟨ha, hb⟩) hne), fun ha hl hok hok' => ?_⟩
  have hb : (s.bank bb).blen ≠ 0 := hl ▸ ha
  obtain ⟨t, ht, hk, hframe, hdone⟩ := exists_of_setBank (exec_bor_of_blen_eq (not_or.2 ⟨ha, hb⟩) hl)
  refine ⟨t, ht, ?_, ?_, fun a hle => ?_, ?_, hframe, hdone⟩ <;> rw [hk]
  · exact Bank.orFrom_blen ..
  · exact (Bank.orFrom_isUnionOf hok hok').cells
  · exact Memory.read_orImage_of_le hok'.canonical hok.canonical hle
  · exact (Bank.orFrom_ok hok hok').count

/-- Settles O20: the command is the bank operation `orWord`. -/
theorem borwOrsTheWord : Obligations.BorwOrsTheWord := by
  intro ba rs1 rs2 s
  refine ⟨hasFields_cmdOf .borw 0 rs1 rs2 ba 0 0 0, othersRefused_of_n_unused (o := .borw) (by decide),
    fun hinv => exists_raised (exec_borw_of_invalid hinv), fun hv hle => exists_raised (exec_borw_of_le hv hle),
    fun hlt hok => ?_⟩
  obtain ⟨t, ht, hk, hframe, hdone⟩ :=
    exists_of_setBank (exec_borw_of_lt (rs2 := rs2) (Bank.valid_of_lt_words hlt) hlt)
  refine ⟨t, ht, ?_, ?_, fun a ha => ?_, ?_, hframe, hdone⟩ <;> rw [hk]
  · exact Bank.orWord_blen ..
  · exact (Memory.word_orWord hok.canonical _ _ _).trans (if_pos rfl)
  · exact Memory.read_orWord_of_ne hok.canonical _ ha
  · exact (Bank.orWord_ok hok _ _ hlt).count

/-- Settles O21: bit `j` of a storage word is its cell `j`. -/
theorem brdwReadsTheWord : Obligations.BrdwReadsTheWord := by
  intro rd ba rs1 s
  refine ⟨hasFields_cmdOf .brdw rd rs1 0 ba 0 0 0, othersRefused_of_n_unused (o := .brdw) (by decide),
    fun hinv => exists_raised (exec_brdw_of_invalid hinv), fun hv hle => exists_raised (exec_brdw_of_le hv hle),
    fun hlt => ?_⟩
  obtain ⟨t, ht, hword, hframe, hdone⟩ := exists_of_setReg (exec_brdw_of_lt (rd := rd) (ba := ba) hlt)
  refine ⟨t, ht, fun j hj => ?_, hframe, hdone⟩
  rw [hword]
  exact Memory.word_getLsbD _ _ j hj

end Sys2Proof.Machine
end

section
/-! The laws of the bitmap unit that join two commands (`41_bitset.md` R124, R129, R131 b, e). -/

namespace Sys2Proof.Machine

section
variable {s t u : State}

/-- Two `BOR`s of one target, with sources of its length other than it: the second finds its source as it was. -/
theorem exec_bor_bor {a b c : BankNo} (hc : c ≠ a) (ha : (s.bank a).blen ≠ 0) (hlb : (s.bank a).blen = (s.bank b).blen)
    (hlc : (s.bank a).blen = (s.bank c).blen) (ht : exec (.bor a b) s = .next t) (hu : exec (.bor a c) t = .next u) :
    u = (s.setBank a (((s.bank a).orFrom (s.bank b)).orFrom (s.bank c))).respond ⟨.ok, 0⟩ := by
  rw [exec_bor_of_blen_eq (not_or.2 ⟨ha, hlb ▸ ha⟩) hlb, complete_eq_next] at ht
  subst ht
  rw [exec_respond, exec_bor_of_blen_eq (by simpa [hc] using ⟨ha, hlc ▸ ha⟩) (by simpa [hc] using hlc),
    complete_eq_next] at hu
  simpa [hc] using hu

/-- A `BOR` that completes has passed its checks. -/
theorem exec_bor_completed {ba bb : BankNo} (h : exec (.bor ba bb) s = .next t) (hdone : Completed t) :
    (s.bank ba).blen = (s.bank bb).blen ∧ t.bank ba = (s.bank ba).orFrom (s.bank bb) := by
  by_cases hv : (s.bank ba).blen = 0 ∨ (s.bank bb).blen = 0
  · obtain rfl := (raise_eq_next ..).1 ((exec_bor_of_invalid hv).symm.trans h)
    simp [Completed] at hdone
  · by_cases hl : (s.bank ba).blen = (s.bank bb).blen
    · obtain rfl := (complete_eq_next ..).1 ((exec_bor_of_blen_eq hv hl).symm.trans h)
      exact ⟨hl, by simp⟩
    · obtain rfl := (raise_eq_next ..).1 ((exec_bor_of_blen_ne hv hl).symm.trans h)
      simp [Completed] at hdone

end

/-- Settles O25: 0 ORed with the data word is the data word, and the `BRDW` finds it in the bank that the `BORW` left. -/
theorem orIntoAZeroWordStoresIt : Obligations.OrIntoAZeroWordStoresIt := by
  intro ba rd rs1 rs2 s hlt hok hzero
  obtain ⟨t, ht, hk, hframe, -⟩ := exists_of_setBank (exec_borw_of_lt (rs2 := rs2) (Bank.valid_of_lt_words hlt) hlt)
  have hidx : t.index rs1 = s.index rs1 := by rw [State.index, State.reg, hframe.x]; rfl
  have hlt' : t.index rs1 < (t.bank ba).words := by rwa [hidx, hk]
  obtain ⟨u, hu, hread, -, -⟩ := exists_of_setReg (exec_brdw_of_lt (rd := rd) hlt')
  refine ⟨t, u, ht, hu, ?_⟩
  calc u.reg rd
    _ = Memory.word (Memory.orWord (s.bank ba).bm (s.index rs1) (s.reg rs2)) (s.index rs1) := by
        rw [hread, hidx, hk]; rfl
    _ = Memory.word (s.bank ba).bm (s.index rs1) ||| s.reg rs2 :=
        (Memory.word_orWord hok.canonical _ _ _).trans (if_pos rfl)
    _ = s.reg rs2 := by
        rw [State.index, hzero]; exact BitVec.zero_or

/-- Settles O27: on the target the two commands are `orFrom` twice, and nothing else is written. -/
theorem borOrderDoesNotMatter : Obligations.BorOrderDoesNotMatter := by
  intro a b c s t u t' u' hs hb hc ha hlb hlc ht hu ht' hu'
  rw [exec_bor_bor hc ha hlb hlc ht hu, exec_bor_bor hb ha hlc hlb ht' hu',
    Bank.orFrom_right_comm (hs.banks a) (hs.banks b) (hs.banks c)]

/-- Settles O28: a union has the bits of both bitmaps and no others, and is the same whichever is ORed into which. -/
theorem borCountBounds : Obligations.BorCountBounds := by
  intro ba bb s t hs h hdone
  obtain ⟨hl, hk⟩ := exec_bor_completed h hdone
  have ha := hs.banks ba
  have hb := hs.banks bb
  rw [hk]
  refine ⟨Bank.scnt_le_orFrom ha hb, ?_, Bank.orFrom_scnt_le_add ha hb hl, (Bank.orFrom_ok ha hb).scnt_le_bits⟩
  rw [Bank.orFrom_comm ha hb hl]
  exact Bank.scnt_le_orFrom hb ha

/-- Settles O44: both commands make the same check, and the cached count is the population count. -/
theorem bcntAndBpopAgree : Obligations.BcntAndBpopAgree := by
  intro rd ba s hok
  rw [exec, exec, execBcnt, execBpop, hok.countIsPop]

end Sys2Proof.Machine
end

section
/-! Sessions of the host (`30_encoding.md` R95, R96): what a session leaves unchanged, and what one transaction does, by
what its command writes. -/

namespace Sys2Proof

/-- A command that names one bank, below `NBANK`, is well formed (R88). -/
theorem Instr.wellFormed_of_bankA {nbank : Nat} {i : Instr} {b : BankNo} (hA : i.bankA = some b) (hB : i.bankB = none)
    (hb : b.val < nbank) : i.wellFormed nbank = true := by
  rw [Instr.wellFormed, hA, hB]
  simpa [bankBelow] using hb

end Sys2Proof

namespace Sys2Proof.Machine

/-! ### What a session leaves unchanged -/

/-- A session of the host that writes no register but those of `regs` and no bank but those of `banks`: every other
register and bank, the hash unit and the parameters are as before. -/
structure KeepsOthers (regs : List RegNo) (banks : List BankNo) (s t : State) : Prop where
  reg : ∀ r, r ∉ regs → t.reg r = s.reg r
  bank : ∀ b, b ∉ banks → t.bank b = s.bank b
  hash : t.hash = s.hash
  cfg : t.cfg = s.cfg

section
variable {regs regs' : List RegNo} {banks banks' : List BankNo} {s t u : State}

theorem KeepsOthers.refl (regs : List RegNo) (banks : List BankNo) (s : State) : KeepsOthers regs banks s s :=
  ⟨fun _ _ => rfl, fun _ _ => rfl, rfl, rfl⟩

theorem KeepsOthers.mono (h : KeepsOthers regs banks s t) (hr : regs ⊆ regs') (hb : banks ⊆ banks') :
    KeepsOthers regs' banks' s t :=
  ⟨fun r hn => h.reg r fun hm => hn (hr hm), fun b hn => h.bank b fun hm => hn (hb hm), h.hash, h.cfg⟩

theorem KeepsOthers.trans (h : KeepsOthers regs banks s t) (h' : KeepsOthers regs banks t u) :
    KeepsOthers regs banks s u :=
  ⟨fun r hn => (h'.reg r hn).trans (h.reg r hn), fun b hn => (h'.bank b hn).trans (h.bank b hn), h'.hash.trans h.hash,
    h'.cfg.trans h.cfg⟩

/-- One session and then another write what either writes. -/
theorem KeepsOthers.append (h : KeepsOthers regs banks s t) (h' : KeepsOthers regs' banks' t u) :
    KeepsOthers (regs ++ regs') (banks ++ banks') s u :=
  (h.mono (by simp) (by simp)).trans (h'.mono (by simp) (by simp))

/-- A session that writes no bank leaves the banks. -/
theorem KeepsOthers.banks_eq (h : KeepsOthers regs [] s t) : t.banks = s.banks :=
  Vector.ext fun i hi => h.bank ⟨i, hi⟩ List.not_mem_nil

/-! ### One transaction -/

/-- A command that writes a register, as a transaction: the host is answered `OK`. -/
theorem run_send_setReg {i : Instr} {rd : RegNo} {v : Word} (hwf : i.wellFormed s.cfg.nbank = true)
    (h : exec i s.takeRsp = complete (s.takeRsp.setReg rd v)) :
    ∃ t, (send i).run s = some (.ok 0, t) ∧ t.reg rd = v ∧ KeepsOthers [rd] [] s t := by
  refine ⟨_, run_send (decodeWord_encode hwf) h rfl, by simp, fun r hr => ?_, fun b _ => rfl, rfl, rfl⟩
  simp [List.mem_singleton.not.1 hr]

/-- A command that writes a bank, as a transaction: the host is answered `OK`. -/
theorem run_send_setBank {i : Instr} {b : BankNo} {k : Bank} (hwf : i.wellFormed s.cfg.nbank = true)
    (h : exec i s.takeRsp = complete (s.takeRsp.setBank b k)) :
    ∃ t, (send i).run s = some (.ok 0, t) ∧ t.bank b = k ∧ KeepsOthers [] [b] s t := by
  refine ⟨_, run_send (decodeWord_encode hwf) h rfl, by simp, fun r _ => rfl, fun c hc => ?_, rfl, rfl⟩
  simp [List.mem_singleton.not.1 hc]

/-- `RDR` as a transaction: the host is answered the register. -/
theorem run_send_rdr (s : State) (rs1 : RegNo) :
    ∃ t, (send (.rdr rs1)).run s = some (.ok (s.reg rs1), t) ∧ KeepsOthers [] [] s t :=
  ⟨_, run_send (decodeWord_encode rfl) (exec_rdr rs1 s.takeRsp) rfl, fun _ _ => rfl, fun _ _ => rfl, rfl, rfl⟩

/-- `LDI` as a transaction. -/
theorem run_send_ldi (s : State) (rd : RegNo) (imm : Word) :
    ∃ t, (send (.ldi rd imm)).run s = some (.ok 0, t) ∧ t.reg rd = imm ∧ KeepsOthers [rd] [] s t :=
  run_send_setReg rfl (exec_ldi rd imm s.takeRsp)

/-- A register that was loaded with an index that fits it holds that index. -/
theorem State.index_of_reg {r : RegNo} {n : Nat} (h : s.reg r = BitVec.ofNat 64 n) (hn : n < 2 ^ 64) : s.index r = n := by
  rw [State.index, h, BitVec.toNat_ofNat, Nat.mod_eq_of_lt hn]

end

end Sys2Proof.Machine
end

section
/-! Banks and their storage words: the image, the size and the count are fixed by the words, and ORing the words of a
bitmap into a fresh one makes it (`20_memory.md` R52; `41_bitset.md` R129, R131 c; `44_lpcounter_merge.md` R182). -/

namespace Sys2Proof.Machine

/-- A word index of a bank fits a register. -/
theorem Bank.lt_of_lt_words {k : Bank} {w : Nat} (h : w < k.words) : w < 2 ^ 64 :=
  h.trans ((Nat.div_le_self k.bits 64).trans_lt k.blen.isLt)

/-- The size the host reads from a bank of legal length gives the number of its storage words (R182). -/
theorem Bank.Ok.words_of_kib {M : Nat} {k : Bank} (h : k.Ok M) : 8192 * k.kib.toNat / 64 = k.words := by
  have hkib : k.kib.toNat = k.bits / 8192 := BitVec.toNat_udiv
  have hlen : k.bits % 8192 = 0 := by
    obtain h0 | ⟨hmod, _⟩ := h.length
    · simp [Bank.bits, h0]
    · exact hmod
  rw [hkib, Bank.words]
  omega

/-- The bytes of a bitmap are the bytes of its storage words. -/
theorem Bank.Ok.image_eq {M : Nat} {k : Bank} (h : k.Ok M) :
    Memory.image k.bm k.bytes = bytesOfWords ((List.range k.words).map (Memory.word k.bm)) := by
  obtain ⟨hbytes, hwords⟩ := h.whole
  rw [bytesOfWords_words, show k.bytes = 8 * k.words by omega]

/-- A valid bank that meets the invariant has a length that `BCREATE` grants (R37 I1, R120). -/
theorem Bank.Ok.legalSize {M : Nat} {k : Bank} (h : k.Ok M) (hv : k.blen ≠ 0) : badSize k.bits = false ∧ k.bits ≤ M := by
  obtain ⟨hmod, hge, hle⟩ := h.length.resolve_left hv
  exact ⟨badSize_eq_false_iff.2 ⟨by omega, hmod⟩, hle⟩

/-! ### What an import makes of a bank (R129) -/

/-- The words of a list ORed into successive storage words, from word `w` on. -/
def Bank.orWords (k : Bank) (w : Nat) : List Word → Bank
  | [] => k
  | v :: vs => (k.orWord w v).orWords (w + 1) vs

section
variable {M : Nat} {k src : Bank}

/-- ORing the word 0 in changes nothing, so that an import may skip it (R129). -/
theorem Bank.orWord_zero (h : k.Ok M) {w : Nat} (hw : w < k.words) : k.orWord w 0 = k :=
  (Bank.orWord_ok h w 0 hw).ext h rfl fun i _ => by
    rw [Bank.bit_orWord k w 0 i h.canonical]
    simp

/-- Of banks that meet the invariant a copy is one with the same length and words: the words fix the count. -/
theorem Bank.Ok.copyOf_of_words (h : k.Ok M) (hs : src.Ok M) (hl : k.blen = src.blen)
    (hw : ∀ w, w < src.words → Memory.word k.bm w = Memory.word src.bm w) : k.CopyOf src := by
  have hbits : k.bits = src.bits := by rw [Bank.bits, Bank.bits, hl]
  have hsums : (List.range src.words).map (fun w => popcount (Memory.word k.bm w)) =
      (List.range src.words).map (fun w => popcount (Memory.word src.bm w)) :=
    List.map_congr_left fun w hmem => by rw [hw w (List.mem_range.1 hmem)]
  refine ⟨hl, BitVec.eq_of_toNat_eq ?_, hw⟩
  rw [h.count, hs.count, hbits, hs.whole.2, Memory.countBits_eq_sum_popcount, Memory.countBits_eq_sum_popcount, hsums]

/-- ORing the words of a bitmap from word `w` on into a bank of its length that has the words below `w` already, and no
bit from word `w` on, makes the bitmap. -/
theorem Bank.orWords_eq (h : k.Ok M) (hs : src.Ok M) (hl : k.blen = src.blen) {w n : Nat} (hn : w + n = src.words)
    (hlow : ∀ j, j < w → Memory.word k.bm j = Memory.word src.bm j) (hhigh : ∀ j, w ≤ j → Memory.word k.bm j = 0) :
    k.orWords w ((List.range' w n).map (Memory.word src.bm)) = src := by
  induction n generalizing k w with
  | zero => exact h.eq_of_copyOf hs (h.copyOf_of_words hs hl fun j hj => hlow j (by omega))
  | succ n ih =>
    have hwords : k.words = src.words := by rw [Bank.words, Bank.words, Bank.bits, Bank.bits, hl]
    have hw : w < k.words := by omega
    have hword : ∀ j, Memory.word (k.orWord w (Memory.word src.bm w)).bm j = _ := Memory.word_orWord h.canonical w _
    refine ih (Bank.orWord_ok h w _ hw) hl (by omega) (fun j hj => ?_) (fun j hj => ?_)
    · rw [hword]
      split
      next hjw => rw [hhigh w le_rfl, hjw]; exact BitVec.zero_or
      next hjw => exact hlow j (by omega)
    · rw [hword, if_neg (by omega)]
      exact hhigh j (by omega)

/-- A fresh bitmap into which all words of a bitmap of its length are ORed is that bitmap (R129, R131 c). -/
theorem Bank.orWords_create (hs : src.Ok M) (hM : (Bank.create src.blen).Ok M) :
    (Bank.create src.blen).orWords 0 ((List.range src.words).map (Memory.word src.bm)) = src := by
  rw [List.range_eq_range']
  exact Bank.orWords_eq hM hs rfl (Nat.zero_add _) nofun fun j _ => Memory.word_nil j

end

end Sys2Proof.Machine
end

section
/-! `dump` and `restore` (`41_bitset.md` R129, R130; `44_lpcounter_merge.md` R184, R187) and their round trip (R131 c). -/

namespace Sys2Proof.Machine

section
variable {s : State}

/-! ### dump (R130, R187) -/

theorem exec_bsize_of_valid {rd : RegNo} {ba : BankNo} (hv : (s.bank ba).blen ≠ 0) :
    exec (.bsize rd ba) s = complete (s.setReg rd (s.bank ba).kib) := if_neg hv

/-- `size()` answers the bank's size and leaves the banks. -/
theorem run_size {a : BankNo} (xd : RegNo) (ha : a.val < s.cfg.nbank) (hv : (s.bank a).blen ≠ 0) :
    ∃ t, (size a xd).run s = some (.ok (s.bank a).kib.toNat, t) ∧ KeepsOthers [xd] [] s t := by
  obtain ⟨t, ht, hkib, hkeep⟩ := run_send_setReg (i := .bsize xd a) (Instr.wellFormed_of_bankA rfl rfl ha)
    (exec_bsize_of_valid (s := s.takeRsp) hv)
  obtain ⟨u, hu, hkeep'⟩ := run_send_rdr t xd
  refine ⟨u, ?_, hkeep.append hkeep'⟩
  rw [size, HostOp.run_andThen_ok ht, HostOp.run_andThen_ok hu, hkib]
  rfl

/-- Reading a storage word in range answers it and leaves the banks. -/
theorem run_readWord {a : BankNo} (xw xd : RegNo) {w : Nat} (ha : a.val < s.cfg.nbank) (hw : w < (s.bank a).words) :
    ∃ t, (readWord a xw xd w).run s = some (.ok (Memory.word (s.bank a).bm w), t) ∧ KeepsOthers [xw, xd] [] s t := by
  obtain ⟨t, ht, hxw, hkeep⟩ := run_send_ldi s xw (BitVec.ofNat 64 w)
  have hbank : t.bank a = s.bank a := hkeep.bank a List.not_mem_nil
  have hidx : t.takeRsp.index xw = w := State.index_of_reg hxw (Bank.lt_of_lt_words hw)
  have hlt : t.takeRsp.index xw < (t.takeRsp.bank a).words := by rwa [hidx, State.takeRsp_bank, hbank]
  obtain ⟨u, hu, hword, hkeep'⟩ := run_send_setReg (i := .brdw xd a xw)
    (Instr.wellFormed_of_bankA rfl rfl (by rwa [hkeep.cfg])) (exec_brdw_of_lt hlt)
  obtain ⟨v, hv, hkeep''⟩ := run_send_rdr u xd
  rw [hidx, State.takeRsp_bank, hbank] at hword
  have hall : (sendAll [.ldi xw (BitVec.ofNat 64 w), .brdw xd a xw]).run s = some (.ok (), u) :=
    (run_sendAll_cons ht).trans (run_sendAll_cons hu)
  refine ⟨v, ?_, hkeep.append (hkeep'.append hkeep'')⟩
  rw [readWord, HostOp.run_andThen_ok hall, hv, hword]

/-- Reading storage words in range answers them in order and leaves the banks. -/
theorem run_readWords {a : BankNo} (xw xd : RegNo) {w n : Nat} (ha : a.val < s.cfg.nbank)
    (hw : w + n ≤ (s.bank a).words) :
    ∃ t, (readWords a xw xd w n).run s = some (.ok ((List.range' w n).map (Memory.word (s.bank a).bm)), t) ∧
      KeepsOthers [xw, xd] [] s t := by
  induction n generalizing s w with
  | zero => exact ⟨s, rfl, .refl ..⟩
  | succ n ih =>
    obtain ⟨t, ht, hkeep⟩ := run_readWord xw xd ha (show w < (s.bank a).words by omega)
    have hbank : t.bank a = s.bank a := hkeep.bank a List.not_mem_nil
    obtain ⟨u, hu, hkeep'⟩ := ih (s := t) (w := w + 1) (by rwa [hkeep.cfg]) (by rw [hbank]; omega)
    refine ⟨u, ?_, hkeep.trans hkeep'⟩
    rw [readWords, HostOp.run_andThen_ok ht, HostOp.run_andThen_ok hu, hbank]
    rfl

/-- `dump()` of a valid bank answers its dump image and leaves the banks (R130, R187). -/
theorem run_dump {M : Nat} {a : BankNo} (xw xd : RegNo) (ha : a.val < s.cfg.nbank) (hok : (s.bank a).Ok M)
    (hv : (s.bank a).blen ≠ 0) :
    ∃ t, (dump a xw xd).run s = some (.ok (Memory.image (s.bank a).bm (s.bank a).bytes), t) ∧
      KeepsOthers [xw, xd] [] s t := by
  obtain ⟨t, ht, hkeep⟩ := run_size xd ha hv
  have hbank : t.bank a = s.bank a := hkeep.bank a List.not_mem_nil
  obtain ⟨u, hu, hkeep'⟩ := run_readWords (s := t) (w := 0) (n := (s.bank a).words) xw xd (by rwa [hkeep.cfg])
    (by rw [hbank, Nat.zero_add])
  refine ⟨u, ?_, (hkeep.mono (by simp) (by simp)).trans hkeep'⟩
  rw [dump, HostOp.run_andThen_ok ht, hok.words_of_kib, HostOp.run_andThen_ok hu, hbank, hok.image_eq,
    List.range_eq_range']
  rfl

/-! ### restore (R129, R184) -/

/-- Creating a bitmap of a legal length that fits a register succeeds. -/
theorem run_createBits {c : BankNo} (xl : RegNo) {n : Nat} (hc : c.val < s.cfg.nbank) (hn : n < 2 ^ 64)
    (hsize : badSize n = false) (hcap : n ≤ s.cfg.maxBits) :
    ∃ t, (createBits c xl n).run s = some (.ok (), t) ∧ t.bank c = Bank.create (BitVec.ofNat 64 n) ∧
      KeepsOthers [xl] [c] s t := by
  obtain ⟨t, ht, hreg, hkeep⟩ := run_send_ldi s xl (BitVec.ofNat 64 n)
  have hidx : t.takeRsp.index xl = n := State.index_of_reg hreg hn
  obtain ⟨u, hu, hbank, hkeep'⟩ := run_send_setBank (i := .bcreate c xl)
    (Instr.wellFormed_of_bankA rfl rfl (by rwa [hkeep.cfg]))
    (exec_bcreate_of_legal (by rwa [hidx]) (by rwa [hidx, State.takeRsp_cfg, hkeep.cfg]))
  refine ⟨u, ?_, ?_, hkeep.append hkeep'⟩
  · rw [createBits, if_pos hn]
    exact (run_sendAll_cons ht).trans (run_sendAll_cons hu)
  · rw [hbank, State.takeRsp_reg, hreg]

/-- Importing one word: its index and its value are loaded and ORed in (R129). -/
theorem run_importWord {c : BankNo} {xw xd : RegNo} (hx : xw ≠ xd) {w : Nat} (v : Word) (hc : c.val < s.cfg.nbank)
    (hw : w < (s.bank c).words) :
    ∃ t, (sendAll [.ldi xw (BitVec.ofNat 64 w), .ldi xd v, .borw c xw xd]).run s = some (.ok (), t) ∧
      t.bank c = (s.bank c).orWord w v ∧ KeepsOthers [xw, xd] [c] s t := by
  obtain ⟨t, ht, hxw, hkeep⟩ := run_send_ldi s xw (BitVec.ofNat 64 w)
  obtain ⟨u, hu, hxd, hkeep'⟩ := run_send_ldi t xd v
  have hbank : u.bank c = s.bank c := (hkeep'.bank c List.not_mem_nil).trans (hkeep.bank c List.not_mem_nil)
  have hidx : u.takeRsp.index xw = w :=
    State.index_of_reg ((hkeep'.reg xw (by simpa using hx)).trans hxw) (Bank.lt_of_lt_words hw)
  have hlt : u.takeRsp.index xw < (u.takeRsp.bank c).words := by rwa [hidx, State.takeRsp_bank, hbank]
  obtain ⟨q, hq, hk, hkeep''⟩ := run_send_setBank (i := .borw c xw xd)
    (Instr.wellFormed_of_bankA rfl rfl (by rwa [hkeep'.cfg, hkeep.cfg]))
    (exec_borw_of_lt (Bank.valid_of_lt_words hlt) hlt)
  refine ⟨q, (run_sendAll_cons ht).trans ((run_sendAll_cons hu).trans (run_sendAll_cons hq)), ?_,
    hkeep.append (hkeep'.append hkeep'')⟩
  rw [hk, hidx, State.takeRsp_bank, hbank, State.takeRsp_reg, hxd]

/-- Skipping a word that is 0 leaves the bank as importing it would (R129). -/
theorem run_importWordOrSkip {M : Nat} {c : BankNo} {xw xd : RegNo} (hx : xw ≠ xd) {w : Nat} (v : Word)
    (hc : c.val < s.cfg.nbank) (hok : (s.bank c).Ok M) (hw : w < (s.bank c).words) :
    ∃ t, (sendAll (if v = 0 then [] else [.ldi xw (BitVec.ofNat 64 w), .ldi xd v, .borw c xw xd])).run s =
        some (.ok (), t) ∧ t.bank c = (s.bank c).orWord w v ∧ KeepsOthers [xw, xd] [c] s t := by
  by_cases hv : v = 0
  · rw [if_pos hv, hv, Bank.orWord_zero hok hw]
    exact ⟨s, rfl, rfl, .refl ..⟩
  · rw [if_neg hv]
    exact run_importWord hx v hc hw

/-- Importing words in range ORs each into its place, the skipped ones included (R129). -/
theorem run_importCmds {M : Nat} {c : BankNo} {xw xd : RegNo} (hx : xw ≠ xd) {w : Nat} {ws : List Word}
    (hc : c.val < s.cfg.nbank) (hok : (s.bank c).Ok M) (hw : w + ws.length ≤ (s.bank c).words) :
    ∃ t, (sendAll (importCmds c xw xd w ws)).run s = some (.ok (), t) ∧ t.bank c = (s.bank c).orWords w ws ∧
      KeepsOthers [xw, xd] [c] s t := by
  induction ws generalizing s w with
  | nil => exact ⟨s, rfl, rfl, .refl ..⟩
  | cons v vs ih =>
    rw [List.length_cons] at hw
    have hlt : w < (s.bank c).words := by omega
    obtain ⟨t, ht, hk, hkeep⟩ := run_importWordOrSkip hx v hc hok hlt
    obtain ⟨u, hu, hk', hkeep'⟩ := ih (s := t) (w := w + 1) (by rwa [hkeep.cfg])
      (by rw [hk]; exact Bank.orWord_ok hok w v hlt) (by rw [hk, Bank.orWord_words]; omega)
    refine ⟨u, ?_, by rw [hk', hk, Bank.orWords], hkeep.trans hkeep'⟩
    rw [importCmds, run_sendAll_append ht, hu]

/-- Restoring the dump image of a valid bitmap into a bank succeeds and makes that bank the bitmap (R131 c). -/
theorem run_restore {src : Bank} {c : BankNo} {xw xd : RegNo} (hx : xw ≠ xd) (hc : c.val < s.cfg.nbank)
    (hs : src.Ok s.cfg.maxBits) (hv : src.blen ≠ 0) :
    ∃ t, (restore c xw xd (Memory.image src.bm src.bytes)).run s = some (.ok (), t) ∧ t.bank c = src ∧
      KeepsOthers [xw, xd] [c] s t := by
  obtain ⟨hsize, hcap⟩ := hs.legalSize hv
  have hlen : 8 * (Memory.image src.bm src.bytes).length = src.bits := by
    rw [Memory.image, List.length_map, List.length_range, hs.whole.1]
  obtain ⟨t, ht, hk, hkeep⟩ := run_createBits (n := src.bits) xw hc src.blen.isLt hsize hcap
  rw [Bank.bits, BitVec.ofNat_toNat, BitVec.setWidth_eq] at hk
  have hnew : (Bank.create src.blen).Ok s.cfg.maxBits := Bank.create_ok _ _ hsize hcap
  obtain ⟨u, hu, hk', hkeep'⟩ := run_importCmds (s := t) (w := 0) (ws := (List.range src.words).map (Memory.word src.bm))
    hx (by rwa [hkeep.cfg]) (by rw [hk]; exact hnew) (by rw [hk, List.length_map, List.length_range, Nat.zero_add]; rfl)
  refine ⟨u, ?_, ?_, (hkeep.mono (by simp) (by simp)).trans hkeep'⟩
  · rw [restore, hlen, HostOp.run_andThen_ok ht, hs.image_eq, wordsOfBytes_bytesOfWords, hu]
  · rw [hk', hk, Bank.orWords_create hs hnew]

end

/-- Settles O26: the image of a bitmap makes any bank that bitmap, and so that bank's dump is the same image. -/
theorem restoreOfADumpIsACopy : Obligations.RestoreOfADumpIsACopy := by
  intro s a c xw xd hs ha hc hv hx
  have hok := hs.banks a
  obtain ⟨t, ht, hkeep⟩ := run_dump xw xd ha hok hv
  obtain ⟨u, hu, hcopy, hkeep'⟩ := run_restore (s := t) hx (by rwa [hkeep.cfg]) (by rwa [hkeep.cfg]) hv
  obtain ⟨v, hv', hkeep''⟩ := run_dump (s := u) (a := c) xw xd (by rwa [hkeep'.cfg, hkeep.cfg]) (by rwa [hcopy])
    (by rwa [hcopy])
  rw [hcopy] at hv'
  have hall : KeepsOthers [xw, xd] [c] s v :=
    (hkeep.mono (by simp) (by simp)).trans (hkeep'.trans (hkeep''.mono (by simp) (by simp)))
  refine ⟨_, t, u, v, ht, rfl, hkeep.banks_eq, hu, ?_, ?_, fun w _ => ?_, hv', hkeep''.banks_eq,
    fun b hb => hall.bank b (by simpa using hb), fun r hw hd => hall.reg r (by simp [hw, hd]), hall.hash, hall.cfg⟩ <;>
    rw [hcopy]

end Sys2Proof.Machine
end

section
/-! The finalizer unit: its two functions are bijections that keep 0, because each of their steps is one, and its two
commands are register writes (`42_fmix.md` R140 to R144). -/

namespace Sys2Proof.Machine

/-! ### The steps of the finalizers (R144) -/

section
variable {n : Nat}

theorem xorShift_zero (s : Nat) : xorShift (0 : BitVec n) s = 0 := by simp [xorShift]

/-- The xor-shift is linear over xor. -/
theorem xorShift_xor (a b : BitVec n) (s : Nat) : xorShift (a ^^^ b) s = xorShift a s ^^^ xorShift b s := by
  simp only [xorShift, BitVec.ushiftRight_xor_distrib]
  ac_rfl

/-- Only 0 is its own right shift by at least one place. -/
theorem eq_zero_of_eq_ushiftRight {h : BitVec n} {s : Nat} (hs : 0 < s) (heq : h = h >>> s) : h = 0 := by
  have hdiv : h.toNat = h.toNat / 2 ^ s := by
    conv_lhs => rw [heq, BitVec.toNat_ushiftRight, Nat.shiftRight_eq_div_pow]
  have hnat : h.toNat = 0 := by
    by_contra hne
    have hlt : h.toNat / 2 ^ s < h.toNat := Nat.div_lt_self (Nat.pos_of_ne_zero hne) (Nat.one_lt_two_pow hs.ne')
    omega
  exact BitVec.eq_of_toNat_eq hnat

/-- Two words of one xor-shift differ by a word whose xor-shift is 0, and that is 0 alone. -/
theorem xorShift_bijective {s : Nat} (hs : 0 < s) : Function.Bijective (fun h : BitVec n => xorShift h s) := by
  refine Finite.injective_iff_bijective.1 fun a b hab => ?_
  have hdiff : xorShift (a ^^^ b) s = 0 := (xorShift_xor a b s).trans (BitVec.xor_eq_zero_iff.2 hab)
  have hself : a ^^^ b = (a ^^^ b) >>> s := BitVec.xor_eq_zero_iff.1 hdiff
  exact BitVec.xor_eq_zero_iff.1 (eq_zero_of_eq_ushiftRight hs hself)

/-- An odd factor is coprime to the power of two, and so cancels. -/
theorem mul_bijective_of_odd {c : BitVec n} (hc : Odd c.toNat) : Function.Bijective (fun h : BitVec n => h * c) := by
  refine Finite.injective_iff_bijective.1 fun a b hab => BitVec.eq_of_toNat_eq ?_
  have hcop : (2 ^ n).Coprime c.toNat := (Nat.coprime_two_left.2 hc).pow_left n
  have hprod : a.toNat * c.toNat ≡ b.toNat * c.toNat [MOD 2 ^ n] := by
    rw [Nat.ModEq, ← BitVec.toNat_mul, ← BitVec.toNat_mul]
    exact congrArg BitVec.toNat hab
  exact (hprod.cancel_right_of_coprime hcop).eq_of_lt_of_lt a.isLt b.isLt

end

/-! ### The finalizers -/

theorem fmix32_bijective : Function.Bijective fmix32 :=
  (xorShift_bijective (s := 16) (by decide)).comp <|
    (mul_bijective_of_odd (c := 0xc2b2ae35) (by decide)).comp <|
    (xorShift_bijective (s := 13) (by decide)).comp <|
    (mul_bijective_of_odd (c := 0x85ebca6b) (by decide)).comp <|
    xorShift_bijective (s := 16) (by decide)

theorem fmix64_bijective : Function.Bijective fmix64 :=
  (xorShift_bijective (s := 33) (by decide)).comp <|
    (mul_bijective_of_odd (c := 0xc4ceb9fe1a85ec53) (by decide)).comp <|
    (xorShift_bijective (s := 33) (by decide)).comp <|
    (mul_bijective_of_odd (c := 0xff51afd7ed558ccd) (by decide)).comp <|
    xorShift_bijective (s := 33) (by decide)

theorem fmix32_zero : fmix32 0 = 0 := by simp only [fmix32, xorShift_zero, zero_mul]

theorem fmix64_zero : fmix64 0 = 0 := by simp only [fmix64, xorShift_zero, zero_mul]

/-- Settles O31: both finalizers are composed of xor-shifts and odd multiplications. -/
theorem finalizersAreBijective : Obligations.FinalizersAreBijective :=
  ⟨fmix32_bijective, fmix64_bijective, fmix32_zero, fmix64_zero⟩

/-! ### The commands (R142, R143) -/

theorem exec_fmix32 (rd rs1 : RegNo) (s : State) :
    exec (.fmix32 rd rs1) s = complete (s.setReg rd ((fmix32 (s.low32 rs1)).setWidth 64)) := rfl

theorem exec_fmix64 (rd rs1 : RegNo) (s : State) :
    exec (.fmix64 rd rs1) s = complete (s.setReg rd (fmix64 (s.reg rs1))) := rfl

/-- The low half of a register is its bits 31:0. -/
theorem State.low32_eq_extractLsb' (s : State) (r : RegNo) : s.low32 r = (s.reg r).extractLsb' 0 32 :=
  BitVec.setWidth_eq_extractLsb' (by decide)

/-- Zero extension puts 32 zero bits above a 32-bit word. -/
theorem setWidth_eq_zero_append (v : Word32) : v.setWidth 64 = (0#32 ++ v : BitVec 64) :=
  BitVec.setWidth_eq_append (by decide)

/-- Settles O29: `FMIX32` is a register write, of the zero extension of `fmix32` of the source's low half. -/
theorem fmix32MixesTheLowHalf : Obligations.Fmix32MixesTheLowHalf := by
  intro rd rs1 s
  refine ⟨hasFields_cmdOf .fmix32 rd rs1 0 0 0 0 0, othersRefused_of_n_unused (o := .fmix32) (by decide), ?_⟩
  obtain ⟨t, ht, hval, hframe, hdone⟩ := exists_of_setReg (exec_fmix32 rd rs1 s)
  refine ⟨t, ht, hframe, hdone, ?_⟩
  rw [hval, setWidth_eq_zero_append, State.low32_eq_extractLsb']
  rfl

/-- Settles O30: `FMIX64` is a register write, of `fmix64` of the source. -/
theorem fmix64MixesTheRegister : Obligations.Fmix64MixesTheRegister := by
  intro rd rs1 s
  refine ⟨hasFields_cmdOf .fmix64 rd rs1 0 0 0 0 0, othersRefused_of_n_unused (o := .fmix64) (by decide), ?_⟩
  obtain ⟨t, ht, hval, hframe, hdone⟩ := exists_of_setReg (exec_fmix64 rd rs1 s)
  exact ⟨t, ht, hframe, hdone, hval⟩

end Sys2Proof.Machine
end

section
/-! The words and the mixing of the block-hash unit (`43_blockhash.md` R150, R151, R154 to R160): a block word is the
little-endian number of its held bytes, and the rounds and finalizations in those words. -/

namespace Sys2Proof.Machine

/-! ### Words of a block (R151) -/

/-- An append is its low part and, above it, its high part. -/
theorem toNat_append_eq_add {m n : Nat} (a : BitVec m) (b : BitVec n) : (a ++ b).toNat = b.toNat + 2 ^ n * a.toNat := by
  rw [BitVec.toNat_append, ← Nat.shiftLeft_add_eq_or_of_lt b.isLt, Nat.shiftLeft_eq, Nat.add_comm, Nat.mul_comm]

/-- A number with a byte below it is the append of the two. -/
theorem ofNat_byte_add (n x : Nat) (b : Byte) :
    BitVec.ofNat (n + 8) (b.toNat + 256 * x) = BitVec.ofNat n x ++ b := by
  have hlow : (b.toNat + 256 * x) % 2 ^ 8 = b.toNat := by omega
  have hhigh : (b.toNat + 256 * x) / 2 ^ 8 = x := by omega
  apply BitVec.eq_of_toNat_eq
  rw [toNat_append_eq_add, BitVec.toNat_ofNat, BitVec.toNat_ofNat, Nat.pow_add, Nat.mul_comm (2 ^ n), Nat.mod_mul, hlow,
    hhigh]

/-- Above a byte, a number of no bits is nothing. -/
theorem ofNat_zero_append (x : Nat) (b : Byte) : (BitVec.ofNat 0 x ++ b : BitVec (0 + 8)) = b :=
  BitVec.zero_width_append _ b

section
variable (buf : Residual) (held : Nat)

/-- The byte `k` of the held bytes is the held byte `k`, 0 where none is held. -/
theorem getElem?_take_getD (k : Nat) : ((buf.toList.take held)[k]?).getD 0 = heldByte buf held k := by
  rw [heldByte, List.getElem?_take]
  split
  · rw [Vector.getElem?_toList]
  · rfl

/-- A word of the held bytes from byte `k` on is the word from byte `k + 1` on, above byte `k`. -/
theorem heldBytes_succ (n k m : Nat) :
    BitVec.ofNat (n + 8) (littleEndian (((buf.toList.take held).drop k).take (m + 1))) =
      BitVec.ofNat n (littleEndian (((buf.toList.take held).drop (k + 1)).take m)) ++ heldByte buf held k := by
  rw [← getElem?_take_getD]
  generalize buf.toList.take held = bs
  by_cases hk : k < bs.length
  · rw [List.drop_eq_getElem_cons hk, List.take_succ_cons, littleEndian, List.getElem?_eq_getElem hk, Option.getD_some,
      ofNat_byte_add]
  · have hnil : bs.drop k = [] := List.drop_eq_nil_of_le (by omega)
    have hnil' : bs.drop (k + 1) = [] := List.drop_eq_nil_of_le (by omega)
    rw [hnil, hnil', List.getElem?_eq_none (by omega)]
    simp [littleEndian]

theorem blockWord32_eq_heldWord (i : Nat) : blockWord32 buf held i = heldWord 32 buf held i :=
  calc blockWord32 buf held i
    _ = BitVec.ofNat (0 + 8 + 8 + 8 + 8) (littleEndian (((buf.toList.take held).drop (4 * i)).take 4)) := by
      simp only [heldBytes_succ, ofNat_zero_append, blockWord32]
    _ = heldWord 32 buf held i := rfl

theorem blockWord64_eq_heldWord (i : Nat) : blockWord64 buf held i = heldWord 64 buf held i :=
  calc blockWord64 buf held i
    _ = BitVec.ofNat (0 + 8 + 8 + 8 + 8 + 8 + 8 + 8 + 8) (littleEndian (((buf.toList.take held).drop (8 * i)).take 8)) := by
      simp only [heldBytes_succ, ofNat_zero_append, blockWord64]
    _ = heldWord 64 buf held i := rfl

end

/-! ### Rotations and lanes (R14, R30) -/

/-- The rotation of R14 is the library's, for every count below the width. -/
theorem rotl_eq_rotateLeft {n r : Nat} (hr : r < n) (a : BitVec n) : rotl a r = a.rotateLeft r := by
  rw [rotl, BitVec.rotateLeft_def, Nat.mod_eq_of_lt hr]

theorem Lanes.set_zero (h : Lanes) (a : Word) : h.set 0 a = #v[a, h[1], h[2], h[3]] := by
  apply Vector.ext
  intro i hi
  match i with
  | 0 | 1 | 2 | 3 => simp

theorem Lanes.set_zero_set_one (h : Lanes) (a b : Word) : (h.set 0 a).set 1 b = #v[a, b, h[2], h[3]] := by
  rw [Lanes.set_zero]
  rfl

/-! ### The statements -/

/-- Settles O32: each round is the rule's, once its words are the held words and its rotations the library's. -/
theorem roundsFollowTheRules : Obligations.RoundsFollowTheRules := by
  intro h buf
  refine ⟨?_, ?_, ?_⟩
  · simp (disch := decide) only [roundOf, round0, mixk0, rotl_eq_rotateLeft, blockWord32_eq_heldWord, Lanes.set_zero]
    rfl
  · simp (disch := decide) only [roundOf, round1, laneStep1, mixk1_0, mixk1_1, mixk1_2, mixk1_3, rotl_eq_rotateLeft,
      blockWord32_eq_heldWord]
    rfl
  · simp (disch := decide) only [roundOf, round2, mixk2_0, mixk2_1, rotl_eq_rotateLeft, blockWord64_eq_heldWord,
      Lanes.set_zero_set_one]

/-- Settles O33: each finalization is the rule's, once its partial words are the held words. -/
theorem finalizationFollowsTheRules : Obligations.FinalizationFollowsTheRules := by
  intro h buf n len
  refine ⟨?_, ?_, ?_⟩
  · simp (disch := decide) only [finalOf, final0, mixk0, rotl_eq_rotateLeft, blockWord32_eq_heldWord, Lanes.set_zero]
    rfl
  · simp (disch := decide) only [finalOf, final1, cross1, mixk1_0, mixk1_1, mixk1_2, mixk1_3, rotl_eq_rotateLeft,
      blockWord32_eq_heldWord]
    rfl
  · simp (disch := decide) only [finalOf, final2, cross2, mixk2_0, mixk2_1, rotl_eq_rotateLeft,
      blockWord64_eq_heldWord, Lanes.set_zero_set_one]

end Sys2Proof.Machine
end

section
/-! The commands of the block-hash unit, `HINIT`, `HPUT`, `HFIN`, `HDIG` (`43_blockhash.md` R152, R153, R157, R161 to R163,
R166): what each is once its check fails or passes, and the statements about each. -/

namespace Sys2Proof.Machine

section
variable {i : Instr} {s : State} {rd rs1 : RegNo} {k : ByteCount} {sel : DigestSel}

/-! ### The commands, by status (R164) -/

theorem exec_hinit (v : Variant) (s : State) : exec (.hinit v) s = complete (s.setHash (s.hash.start v)) := rfl

theorem exec_hput_of_not_active (h : s.hash.hst ≠ .active) : exec (.hput rs1 k) s = raise .hashStateError s := if_pos h

theorem exec_hput_of_active (h : s.hash.hst = .active) :
    exec (.hput rs1 k) s = complete (s.setHash (s.hash.feed (chunk (s.reg rs1) k.val))) := if_neg (not_not.2 h)

theorem exec_hfin_of_not_active (h : s.hash.hst ≠ .active) : exec .hfin s = raise .hashStateError s := if_pos h

theorem exec_hfin_of_active (h : s.hash.hst = .active) : exec .hfin s = complete (s.setHash s.hash.finish) :=
  if_neg (not_not.2 h)

theorem exec_hdig_of_not_final (h : s.hash.hst ≠ .final) : exec (.hdig rd sel) s = raise .hashStateError s := if_pos h

theorem exec_hdig_of_final (h : s.hash.hst = .final) :
    exec (.hdig rd sel) s = complete (s.setReg rd (digestHalf s.hash.dg sel)) := if_neg (not_not.2 h)

/-- A command that ends in a write of the hash unit completes, with that unit in place and nothing else changed. -/
theorem exists_of_setHash {u : HashUnit} (h : exec i s = complete (s.setHash u)) :
    ∃ t, exec i s = .next t ∧ t.hash = u ∧ OnlyHash s t ∧ Completed t :=
  ⟨(s.setHash u).respond ⟨.ok, 0⟩, h, rfl, ⟨rfl, rfl, rfl, ⟨rfl, rfl⟩⟩, rfl⟩

end

/-! ### HINIT (R152) -/

theorem HashUnit.start_h (u : HashUnit) (v : Variant) : (u.start v).h = Vector.replicate 4 0 := rfl

/-- Settles O34: `HINIT` puts the fresh unit in place, in every status. -/
theorem hinitStartsAfresh : Obligations.HinitStartsAfresh := by
  intro v s
  refine ⟨?_, othersRefused_of_nRange (o := .hinit) fun _ _ hn ⟨hle, _, _⟩ => Nat.not_le_of_lt hn (hle rfl), ?_⟩
  · cases v <;> exact hasFields_cmdOf .hinit 0 0 0 0 0 _ 0
  · obtain ⟨t, ht, hu, hframe, hdone⟩ := exists_of_setHash (exec_hinit v s)
    refine ⟨t, ht, ?_⟩
    rw [hu]
    exact ⟨rfl, fun i => by rw [HashUnit.start_h, Fin.getElem_fin, Vector.getElem_replicate], rfl, rfl, rfl, rfl, hframe,
      hdone⟩

/-! ### HPUT (R153, R163) -/

/-- One byte is fed by the loop body of R153. -/
theorem HashUnit.fedByte_feedByte (u : HashUnit) (b : Byte) : FedByte u b (u.feedByte b) := by
  have hbuf : (u.feedByte b).rbuf = u.rbuf.set u.rlen b := by rw [HashUnit.feedByte]; split <;> rfl
  refine ⟨?_, fun i hi => ?_, u.feedByte_tlen b, u.feedByte_hst b, u.feedByte_hvar b, u.feedByte_dg b,
    fun hfull => ?_, fun hshort => ?_⟩
  · rw [hbuf]
    exact Vector.getElem_set_self _
  · rw [hbuf]
    exact Vector.getElem_set_ne _ _ (fun h => hi (Fin.ext h.symm))
  · rw [HashUnit.feedByte, if_pos hfull]
    exact ⟨rfl, rfl⟩
  · have hlt : u.rlen.val + 1 < 16 := Nat.lt_of_lt_of_le hshort (blk_le u.hvar)
    rw [HashUnit.feedByte, if_neg hshort.ne]
    exact ⟨Fin.val_add_one_of_lt' hlt, rfl⟩

/-- Bytes are fed by the loop body of R153, one after another. -/
theorem HashUnit.fedBytes_feed (u : HashUnit) (bs : List Byte) : FedBytes u bs (u.feed bs) := by
  induction bs generalizing u with
  | nil => rfl
  | cons b bs ih => exact ⟨u.feedByte b, u.fedByte_feedByte b, ih _⟩

/-- Settles O35: an active unit is fed the chunk. -/
theorem hputFeedsTheBytes : Obligations.HputFeedsTheBytes := by
  intro rs1 k s
  have hk : (BitVec.ofNat 4 k.val).toNat = k.val := Nat.mod_eq_of_lt (by omega)
  have hfields := hasFields_cmdOf .hput 0 rs1 0 0 0 (BitVec.ofNat 4 k.val) 0
  rw [hk] at hfields
  refine ⟨hfields, othersRefused_of_nRange (o := .hput) fun _ _ hn ⟨_, hle, _⟩ => Nat.not_le_of_lt hn (hle rfl),
    fun hne => exists_raised (exec_hput_of_not_active hne), fun ha => ?_⟩
  obtain ⟨t, ht, hu, hframe, hdone⟩ := exists_of_setHash (exec_hput_of_active ha)
  exact ⟨t, ht, hu ▸ s.hash.fedBytes_feed _, hframe, hdone⟩

/-- A chunk whose bytes are those of two shorter chunks is the one and then the other (R53). -/
theorem chunk_eq_append {v v1 v2 : Word} {k1 k2 : Nat} (h1 : ∀ j, j < k1 → chunkByte v j = chunkByte v1 j)
    (h2 : ∀ j, j < k2 → chunkByte v (k1 + j) = chunkByte v2 j) : chunk v (k1 + k2) = chunk v1 k1 ++ chunk v2 k2 := by
  rw [chunk, List.range_add, List.map_append, List.map_map]
  congr 1
  · exact List.map_congr_left fun j hj => h1 j (List.mem_range.1 hj)
  · exact List.map_congr_left fun j hj => h2 j (List.mem_range.1 hj)

/-- Settles O38: the chunk of the one `HPUT` is the chunks of the two joined, and feeding respects joining. -/
theorem chunkingDoesNotMatter : Obligations.ChunkingDoesNotMatter := by
  intro r1 r2 r3 k1 k2 k3 s ha hk h1 h2
  obtain ⟨t1, ht1, hu1, hframe1, -⟩ := exists_of_setHash (exec_hput_of_active (rs1 := r1) (k := k1) ha)
  have ha1 : t1.hash.hst = .active := by rw [hu1, HashUnit.feed_hst, ha]
  have hr2 : t1.reg r2 = s.reg r2 := by rw [State.reg, hframe1.x, State.reg]
  obtain ⟨t2, ht2, hu2, -, -⟩ := exists_of_setHash (exec_hput_of_active (rs1 := r2) (k := k2) ha1)
  obtain ⟨t3, ht3, hu3, -, -⟩ := exists_of_setHash (exec_hput_of_active (rs1 := r3) (k := k3) ha)
  refine ⟨t1, t2, t3, ht1, ht2, ht3, ?_⟩
  rw [hu2, hu1, hr2, hu3, ← hk, chunk_eq_append h1 h2, HashUnit.feed_append]

/-! ### HFIN (R157, R161, R166) -/

theorem Lanes.lane32_toNat (h : Lanes) (i : Fin 4) : (h.lane32 i).toNat = (h[i]).toNat % 2 ^ 32 := BitVec.toNat_setWidth ..

theorem digestOf_x86_32_toNat (h : Lanes) : (digestOf .x86_32 h).toNat = (h[0]).toNat % 2 ^ 32 := by
  have hlt := (h.lane32 0).isLt
  rw [digestOf, BitVec.toNat_setWidth, Nat.mod_eq_of_lt (by omega), Lanes.lane32_toNat]
  rfl

theorem digestOf_x86_128_toNat (h : Lanes) :
    (digestOf .x86_128 h).toNat = (h[0]).toNat % 2 ^ 32 + 2 ^ 32 * ((h[1]).toNat % 2 ^ 32)
      + 2 ^ 64 * ((h[2]).toNat % 2 ^ 32) + 2 ^ 96 * ((h[3]).toNat % 2 ^ 32) := by
  have h0 : (h.lane32 0).toNat = (h[0]).toNat % 2 ^ 32 := h.lane32_toNat 0
  have h1 : (h.lane32 1).toNat = (h[1]).toNat % 2 ^ 32 := h.lane32_toNat 1
  have h2 : (h.lane32 2).toNat = (h[2]).toNat % 2 ^ 32 := h.lane32_toNat 2
  have h3 : (h.lane32 3).toNat = (h[3]).toNat % 2 ^ 32 := h.lane32_toNat 3
  rw [digestOf, toNat_append_eq_add, toNat_append_eq_add, toNat_append_eq_add, h0, h1, h2, h3]
  ring

theorem digestOf_x64_128_toNat (h : Lanes) :
    (digestOf .x64_128 h).toNat = (h[0]).toNat + 2 ^ 64 * (h[1]).toNat := toNat_append_eq_add ..

theorem HashUnit.finish_dg (u : HashUnit) : u.finish.dg = digestOf u.hvar u.finish.h := rfl

/-- The digest has no more bytes than its byte string (R53, R161). -/
theorem digestOf_lt (v : Variant) (h : Lanes) : (digestOf v h).toNat < 256 ^ digestLen v := by
  cases v with
  | x86_32 =>
    rw [digestOf, BitVec.toNat_setWidth]
    exact Nat.lt_of_le_of_lt (Nat.mod_le _ _) (h.lane32 0).isLt
  | x86_128 => exact (digestOf .x86_128 h).isLt
  | x64_128 => exact (digestOf .x64_128 h).isLt

@[simp] theorem length_digestBytes (v : Variant) (dg : Digest) : (digestBytes v dg).length = digestLen v := by
  rw [digestBytes, List.length_map, List.length_range]

/-- The byte string of a digest carries the digest. -/
theorem littleEndian_digestBytes_digestOf (v : Variant) (h : Lanes) :
    littleEndian (digestBytes v (digestOf v h)) = (digestOf v h).toNat := by
  rw [digestBytes, littleEndian_bytes, Nat.mod_eq_of_lt (digestOf_lt v h)]

/-- Settles O36: an active unit is finished, and its digest is that of the finalized lanes. -/
theorem hfinTakesTheDigest : Obligations.HfinTakesTheDigest := by
  intro s
  refine ⟨hasFields_cmdOf .hfin 0 0 0 0 0 0 0, othersRefused_of_n_unused (o := .hfin) (by decide),
    fun hne => exists_raised (exec_hfin_of_not_active hne), fun ha => ?_⟩
  obtain ⟨t, ht, hu, hframe, hdone⟩ := exists_of_setHash (exec_hfin_of_active ha)
  refine ⟨t, ht, ?_⟩
  rw [hu, HashUnit.finish_dg, HashUnit.finish_hvar, length_digestBytes]
  refine ⟨rfl, ?_, rfl, rfl, rfl, rfl, rfl, ?_, littleEndian_digestBytes_digestOf .., hframe, hdone⟩
  · generalize s.hash.finish.h = h
    cases s.hash.hvar with
    | x86_32 => exact digestOf_x86_32_toNat h
    | x86_128 => exact digestOf_x86_128_toNat h
    | x64_128 => exact digestOf_x64_128_toNat h
  · cases s.hash.hvar <;> rfl

theorem lanesOf_zero : lanesOf 0#64 0#64 0#64 0#64 = Vector.replicate 4 0#64 := rfl

/-- Finalization of an empty input keeps all lanes 0: nothing is held, and the finalizers keep 0 (R144, R166). -/
theorem finalOf_empty (v : Variant) (buf : Residual) :
    finalOf v (Vector.replicate 4 0) buf 0 0 = Vector.replicate 4 0 := by
  have h32 : fmix32 0#32 = 0#32 := fmix32_zero
  have h64 : fmix64 0#64 = 0#64 := fmix64_zero
  cases v with
  | x86_32 => simp [finalOf, final0, Lanes.lane32, laneWord, h32]
  | x86_128 => simp [finalOf, final1, Lanes.lane32, cross1, laneWord, lanesOf_zero, h32]
  | x64_128 => simp [finalOf, final2, cross2, h64]

theorem digestOf_zero (v : Variant) : digestOf v (Vector.replicate 4 0) = 0 := by
  cases v <;> rfl

/-- Settles O39: a fresh unit has no byte held and all its lanes 0, and the digest of such lanes is 0. -/
theorem emptyInputHashesToZero : Obligations.EmptyInputHashesToZero := by
  intro v s
  obtain ⟨t, ht, hu, -, -⟩ := exists_of_setHash (exec_hinit v s)
  obtain ⟨u, hfin, hu', -, -⟩ := exists_of_setHash (exec_hfin_of_active (s := t) (by rw [hu, HashUnit.start_hst]))
  refine ⟨t, u, ht, hfin, ?_⟩
  have hlanes : (s.hash.start v).finish.h = Vector.replicate 4 0 := finalOf_empty v s.hash.rbuf
  rw [hu', hu, HashUnit.finish_dg, hlanes, digestOf_zero]

/-! ### HDIG (R162) -/

/-- The high half of the digest is its quotient by 2^64. -/
theorem digestHalf_hi (dg : Digest) : digestHalf dg .hi = BitVec.ofNat 64 (dg.toNat / 2 ^ 64) :=
  congrArg (BitVec.ofNat 64) (Nat.shiftRight_eq_div_pow dg.toNat 64)

theorem digestHalf_lo (dg : Digest) : digestHalf dg .lo = BitVec.ofNat 64 dg.toNat := rfl

theorem digestHalf_fold (dg : Digest) : digestHalf dg .fold = digestHalf dg .lo ^^^ digestHalf dg .hi := rfl

/-- Settles O37: `HDIG` is a register write, of the selected half or fold. -/
theorem hdigReadsTheDigest : Obligations.HdigReadsTheDigest := by
  intro rd sel s
  refine ⟨?_, othersRefused_of_nRange (o := .hdig) fun _ _ hn ⟨_, _, hle⟩ => Nat.not_le_of_lt hn (hle rfl),
    fun hne => exists_raised (exec_hdig_of_not_final hne), fun hf => ?_⟩
  · cases sel <;> exact hasFields_cmdOf .hdig rd 0 0 0 0 _ 0
  · obtain ⟨t, ht, hval, hframe, hdone⟩ := exists_of_setReg (exec_hdig_of_final hf)
    refine ⟨t, ht, hval.trans ?_, hframe, hdone⟩
    cases sel with
    | lo => exact digestHalf_lo s.hash.dg
    | hi => exact digestHalf_hi s.hash.dg
    | fold => rw [digestHalf_fold, digestHalf_lo, digestHalf_hi]

end Sys2Proof.Machine
end

section
/-! The commands of the counter, `BPUT`, `BCNT`, `BSIZE` (`44_lpcounter_merge.md` R180 to R182). -/

namespace Sys2Proof.Machine

section
variable {s : State} {rd rs1 : RegNo} {ba : BankNo}

/-! ### The commands, by the validity of the bank -/

theorem exec_bput_of_invalid (h : (s.bank ba).blen = 0) : exec (.bput ba rs1) s = raise .bankInvalid s := if_pos h

theorem exec_bcnt_of_invalid (h : (s.bank ba).blen = 0) : exec (.bcnt rd ba) s = raise .bankInvalid s := if_pos h

theorem exec_bcnt_of_valid (hv : (s.bank ba).blen ≠ 0) :
    exec (.bcnt rd ba) s = complete (s.setReg rd (s.bank ba).scnt) := if_neg hv

theorem exec_bsize_of_invalid (h : (s.bank ba).blen = 0) : exec (.bsize rd ba) s = raise .bankInvalid s := if_pos h

theorem Bank.kib_toNat (k : Bank) : k.kib.toNat = k.bits / 8192 := BitVec.toNat_udiv

end

/-! ### The statements -/

/-- Settles O41: the command is the bank operation `insert`, at the reduced index. -/
theorem bputInsertsTheReducedIndex : Obligations.BputInsertsTheReducedIndex := by
  intro ba rs1 s
  refine ⟨hasFields_cmdOf .bput 0 rs1 0 ba 0 0 0, othersRefused_of_n_unused (o := .bput) (by decide),
    fun hinv => exists_raised (exec_bput_of_invalid hinv), fun hv hwf => ?_⟩
  obtain ⟨t, ht, hk, hframe, hdone⟩ := exists_of_setBank (exec_bput_of_valid (rs1 := rs1) hv)
  refine ⟨t, ht, ?_, fun j => ?_, fun a ha => ?_, ?_, hframe, hdone⟩ <;> rw [hk]
  · exact Bank.insert_blen ..
  · exact Bank.bit_insert _ _ j hwf
  · exact Bank.read_insert_of_ne hwf ha
  · exact Bank.scnt_insert ..

/-- Settles O42: `BCNT` is a register write, of the cached count. -/
theorem bcntReadsTheCount : Obligations.BcntReadsTheCount := by
  intro rd ba s
  exact ⟨hasFields_cmdOf .bcnt rd 0 0 ba 0 0 0, othersRefused_of_n_unused (o := .bcnt) (by decide),
    fun hinv => exists_raised (exec_bcnt_of_invalid hinv), fun hv => exists_of_setReg (exec_bcnt_of_valid hv)⟩

/-- Settles O43: a length that is a multiple of 8192 is recovered from its quotient. -/
theorem bsizeReadsTheKib : Obligations.BsizeReadsTheKib := by
  intro rd ba s
  refine ⟨hasFields_cmdOf .bsize rd 0 0 ba 0 0 0, othersRefused_of_n_unused (o := .bsize) (by decide),
    fun hinv => exists_raised (exec_bsize_of_invalid hinv), fun hv hok => ?_⟩
  obtain ⟨t, ht, hval, hframe, hdone⟩ := exists_of_setReg (exec_bsize_of_valid (rd := rd) hv)
  obtain ⟨hmod, hge, hle⟩ := hok.length.resolve_left hv
  have hkib : (t.reg rd).toNat = (s.bank ba).bits / 8192 := by rw [hval, Bank.kib_toNat]
  refine ⟨t, ht, hkib, ?_, ?_, ?_, hframe, hdone⟩ <;> rw [hkib]
  · exact Nat.mul_div_cancel' (Nat.dvd_of_mod_eq_zero hmod)
  · exact Nat.div_pos hge (by decide)
  · exact Nat.div_le_div_right hle

/-- Settles O45: the remainder is in range, so `BSET` inserts the cell that `BPUT` inserts. -/
theorem bputIsBsetOfTheRemainder : Obligations.BputIsBsetOfTheRemainder := by
  intro ba rs xr s hv hrem
  have hidx : s.index xr = (s.bank ba).reduce (s.index rs) := hrem
  have hlt : s.index xr < (s.bank ba).bits := hidx ▸ Bank.reduce_lt hv _
  rw [exec_bput_of_valid hv, exec_bset_of_lt hv hlt, hidx]

end Sys2Proof.Machine
end

section
/-! The host's estimator over the reals (`44_lpcounter_merge.md` R186). -/

namespace Sys2Proof.Machine

section
variable {m c : Nat}

/-- The estimate before rounding is at least the count, because `log x ≤ x - 1`. -/
theorem count_le_neg_mul_log (h : c < m) : (c : ℝ) ≤ -(m : ℝ) * Real.log (((m : ℝ) - c) / m) := by
  have hcm : (c : ℝ) < m := Nat.cast_lt.2 h
  have hm : (0 : ℝ) < m := (Nat.cast_nonneg c).trans_lt hcm
  have hlog : Real.log (((m : ℝ) - c) / m) ≤ ((m : ℝ) - c) / m - 1 :=
    Real.log_le_sub_one_of_pos (div_pos (sub_pos.2 hcm) hm)
  calc (c : ℝ)
    _ = -(m : ℝ) * (((m : ℝ) - c) / m - 1) := by field_simp; ring
    _ ≤ -(m : ℝ) * Real.log (((m : ℝ) - c) / m) := mul_le_mul_of_nonpos_left hlog (neg_nonpos.2 hm.le)

/-- The estimate of an empty bitmap is 0: the logarithm of 1 is 0, and 1/2 rounds down. -/
theorem IsEstimate.eq_zero {e : Int} (hm : 0 < m) (h : IsEstimate m 0 e) : e = 0 := by
  have hm' : (m : ℝ) ≠ 0 := Nat.cast_ne_zero.2 hm.ne'
  obtain ⟨rfl, -⟩ | ⟨-, rfl⟩ := h
  · exact absurd hm (lt_irrefl 0)
  · rw [Nat.cast_zero, sub_zero, div_self hm', Real.log_one, mul_zero, zero_add]
    norm_num

/-- The estimate of a saturated bitmap is its length (the fallback, U7). -/
theorem IsEstimate.eq_length {e : Int} (h : IsEstimate m m e) : e = m := by
  obtain ⟨-, he⟩ | ⟨hlt, -⟩ := h
  · exact he
  · exact absurd hlt (lt_irrefl m)

/-- Rounding does not bring the estimate below the count. -/
theorem IsEstimate.count_le {e : Int} (h : IsEstimate m c e) : (c : Int) ≤ e := by
  obtain ⟨rfl, rfl⟩ | ⟨hlt, rfl⟩ := h
  · exact le_rfl
  · refine Int.le_floor.2 ?_
    have := count_le_neg_mul_log hlt
    push_cast
    linarith

end

/-- Settles O60: of the two cases of the estimate, saturation answers the length and the logarithm at least the count. -/
theorem estimateProperties : Obligations.EstimateProperties := by
  intro m c e hm h
  refine ⟨?_, ?_, h.count_le⟩
  · rintro rfl
    exact h.eq_length
  · rintro rfl
    exact h.eq_zero hm

end Sys2Proof.Machine
end

section
/-! Saturation (`44_lpcounter_merge.md` R191 e; `70_reset_and_hazards.md` R245): the bitmap with every bit set, the two
sessions that make it, and the inserts that leave it as it is. -/

namespace Sys2Proof.Machine

/-! ### Inserting a list of cells -/

/-- The cells of a list inserted one after another. -/
def Bank.insertAll (k : Bank) (is : List Nat) : Bank := is.foldl Bank.insert k

section
variable {M : Nat} {k : Bank} {is : List Nat}

@[simp] theorem Bank.insertAll_nil (k : Bank) : k.insertAll [] = k := rfl

theorem Bank.insertAll_cons (k : Bank) (i : Nat) (is : List Nat) : k.insertAll (i :: is) = (k.insert i).insertAll is := rfl

@[simp] theorem Bank.insertAll_blen (k : Bank) (is : List Nat) : (k.insertAll is).blen = k.blen := by
  induction is generalizing k with
  | nil => rfl
  | cons i is ih => rw [Bank.insertAll_cons, ih, Bank.insert_blen]

/-- Inserting cells inside the bitmap keeps the invariant. -/
theorem Bank.insertAll_ok (h : k.Ok M) (his : ∀ i ∈ is, i < k.bits) : (k.insertAll is).Ok M := by
  induction is generalizing k with
  | nil => exact h
  | cons i is ih =>
    obtain ⟨hi, his⟩ := List.forall_mem_cons.1 his
    exact ih (Bank.insert_ok h i hi) (by rwa [Bank.insert_bits])

/-- Inserting cells makes them 1 and leaves every other cell. -/
theorem Bank.bit_insertAll (h : k.Ok M) (his : ∀ i ∈ is, i < k.bits) (j : Nat) :
    Memory.bit (k.insertAll is).bm j = (decide (j ∈ is) || Memory.bit k.bm j) := by
  induction is generalizing k with
  | nil => simp
  | cons i is ih =>
    obtain ⟨hi, his⟩ := List.forall_mem_cons.1 his
    rw [Bank.insertAll_cons, ih (Bank.insert_ok h i hi) (by rwa [Bank.insert_bits]), Bank.bit_insert k i j h.canonical]
    simp [Bool.or_left_comm, Bool.or_assoc]

end

/-! ### Saturated banks -/

/-- Every cell of the bitmap is 1. -/
abbrev Bank.Saturated (k : Bank) : Prop := k.Holds (fun _ => true)

section
variable {M : Nat} {k : Bank}

/-- A saturated bank that meets the invariant counts all its cells. -/
theorem Bank.Saturated.scnt_eq (h : k.Saturated) (hok : k.Ok M) : k.scnt = k.blen := by
  have hcount : Memory.countBits k.bm k.bits = (List.range k.bits).length :=
    List.countP_eq_length.2 fun i hi => h i (List.mem_range.1 hi)
  exact BitVec.eq_of_toNat_eq (by rw [hok.count, hcount, List.length_range, Bank.bits])

/-- The storage words of a saturated bank are all ones. -/
theorem Bank.Saturated.word_eq (h : k.Saturated) {w : Nat} (hw : w < k.words) :
    Memory.word k.bm w = BitVec.allOnes 64 := by
  refine BitVec.eq_of_getLsbD_eq fun j hj => ?_
  have hcell : 64 * w + j < k.bits := by rw [Bank.words] at hw; omega
  rw [Memory.word_getLsbD k.bm w j hj, h _ hcell, BitVec.getLsbD_allOnes, decide_eq_true hj]

/-- Inserting into a saturated bank changes nothing. -/
theorem Bank.Saturated.insert_eq (h : k.Saturated) {i : Nat} (hi : i < k.bits) : k.insert i = k := by
  rw [Bank.insert, if_pos (h i hi)]

end

/-- The bitmap of `len` bits with every bit inserted. -/
def Bank.full (len : Word) : Bank := (Bank.create len).insertAll (List.range len.toNat)

section
variable {M : Nat} {len : Word}

@[simp] theorem Bank.full_blen (len : Word) : (Bank.full len).blen = len := Bank.insertAll_blen ..

/-- The full bitmap of a legal length meets the invariant. -/
theorem Bank.full_ok (hsize : badSize len.toNat = false) (hcap : len.toNat ≤ M) : (Bank.full len).Ok M :=
  Bank.insertAll_ok (Bank.create_ok M len hsize hcap) fun _ => List.mem_range.1

theorem Bank.full_saturated (hsize : badSize len.toNat = false) : (Bank.full len).Saturated := by
  intro i hi
  have hmem : i ∈ List.range len.toNat := List.mem_range.2 (by rwa [Bank.bits, Bank.full_blen] at hi)
  have hcells : ∀ j ∈ List.range len.toNat, j < (Bank.create len).bits := fun _ => List.mem_range.1
  rw [Bank.full, Bank.bit_insertAll (Bank.create_ok _ len hsize le_rfl) hcells, decide_eq_true hmem, Bool.true_or]

end

/-! ### The sessions that saturate a bank -/

section
variable {s : State} {b : BankNo}

/-- The all-ones words of `saturateByWords` are the dump of the full bitmap, so that the session restores it (R129). -/
theorem saturateByWords_eq_restore (b : BankNo) (xw xd : RegNo) :
    saturateByWords b xw xd = restore b xw xd (Memory.image (Bank.full 8192).bm (Bank.full 8192).bytes) := by
  have hok : (Bank.full 8192).Ok 8192 := Bank.full_ok (by decide) (by decide)
  have hsat : (Bank.full 8192).Saturated := Bank.full_saturated (by decide)
  have hbits : (Bank.full 8192).bits = 8192 := by rw [Bank.bits, Bank.full_blen]; rfl
  have hnum : (Bank.full 8192).words = 128 := by rw [Bank.words, hbits]
  have hlen : 8 * (Memory.image (Bank.full 8192).bm (Bank.full 8192).bytes).length = 8192 := by
    rw [Memory.image, List.length_map, List.length_range, ← hok.whole.1, hbits]
  have hwords : (List.range (Bank.full 8192).words).map (Memory.word (Bank.full 8192).bm) =
      List.replicate 128 (BitVec.allOnes 64) := by
    rw [← hnum]
    refine List.eq_replicate_iff.2 ⟨by rw [List.length_map, List.length_range], fun v hv => ?_⟩
    obtain ⟨w, hw, rfl⟩ := List.mem_map.1 hv
    exact hsat.word_eq (List.mem_range.1 hw)
  rw [restore, hlen, hok.image_eq, wordsOfBytes_bytesOfWords, hwords, saturateByWords]

/-- Setting one bit: its index is loaded and the cell inserted. -/
theorem run_setBit (xi : RegNo) {i : Nat} (hb : b.val < s.cfg.nbank) (hi : i < (s.bank b).bits) :
    ∃ t, (sendAll [.ldi xi (BitVec.ofNat 64 i), .bset b xi]).run s = some (.ok (), t) ∧
      t.bank b = (s.bank b).insert i ∧ KeepsOthers [xi] [b] s t := by
  obtain ⟨t, ht, hxi, hkeep⟩ := run_send_ldi s xi (BitVec.ofNat 64 i)
  have hbank : t.takeRsp.bank b = s.bank b := hkeep.bank b List.not_mem_nil
  have hidx : t.takeRsp.index xi = i := State.index_of_reg hxi (hi.trans (s.bank b).blen.isLt)
  have hlt : t.takeRsp.index xi < (t.takeRsp.bank b).bits := by rwa [hidx, hbank]
  obtain ⟨u, hu, hk, hkeep'⟩ := run_send_setBank (i := .bset b xi)
    (Instr.wellFormed_of_bankA rfl rfl (by rwa [hkeep.cfg])) (exec_bset_of_lt (Bank.valid_of_lt_bits hlt) hlt)
  exact ⟨u, (run_sendAll_cons ht).trans (run_sendAll_cons hu), by rw [hk, hidx, hbank], hkeep.append hkeep'⟩

/-- Setting bits inside the bitmap one after another inserts each. -/
theorem run_setBits (xi : RegNo) {is : List Nat} (hb : b.val < s.cfg.nbank) (his : ∀ i ∈ is, i < (s.bank b).bits) :
    ∃ t, (sendAll (is.flatMap (fun i => [.ldi xi (BitVec.ofNat 64 i), .bset b xi]))).run s = some (.ok (), t) ∧
      t.bank b = (s.bank b).insertAll is ∧ KeepsOthers [xi] [b] s t := by
  induction is generalizing s with
  | nil => exact ⟨s, rfl, rfl, .refl ..⟩
  | cons i is ih =>
    obtain ⟨hi, his⟩ := List.forall_mem_cons.1 his
    obtain ⟨t, ht, hk, hkeep⟩ := run_setBit xi hb hi
    obtain ⟨u, hu, hk', hkeep'⟩ := ih (s := t) (by rwa [hkeep.cfg]) (by rwa [hk, Bank.insert_bits])
    refine ⟨u, ?_, by rw [hk', hk, Bank.insertAll_cons], hkeep.trans hkeep'⟩
    rw [List.flatMap_cons, run_sendAll_append ht, hu]

/-- 128 `BORW`s of all-ones words on a fresh bitmap of 8192 bits succeed and make it full. -/
theorem run_saturateByWords {xw xd : RegNo} (hx : xw ≠ xd) (hb : b.val < s.cfg.nbank) (hcap : 8192 ≤ s.cfg.maxBits) :
    ∃ t, (saturateByWords b xw xd).run s = some (.ok (), t) ∧ t.bank b = Bank.full 8192 ∧
      KeepsOthers [xw, xd] [b] s t := by
  rw [saturateByWords_eq_restore]
  exact run_restore hx hb (Bank.full_ok (by decide) hcap) (by rw [Bank.full_blen]; decide)

/-- 8192 `BSET`s on a fresh bitmap of 8192 bits succeed and make it full. -/
theorem run_saturateByBits (xi : RegNo) (hb : b.val < s.cfg.nbank) (hcap : 8192 ≤ s.cfg.maxBits) :
    ∃ t, (saturateByBits b xi).run s = some (.ok (), t) ∧ t.bank b = Bank.full 8192 ∧ KeepsOthers [xi] [b] s t := by
  obtain ⟨t, ht, hk, hkeep⟩ := run_createBits (n := 8192) xi hb (by decide) (by decide) hcap
  have hbits : (t.bank b).bits = 8192 := by rw [hk]; rfl
  obtain ⟨u, hu, hk', hkeep'⟩ := run_setBits (s := t) (is := List.range 8192) xi (by rwa [hkeep.cfg])
    (fun i hi => by rw [hbits]; exact List.mem_range.1 hi)
  refine ⟨u, ?_, ?_, hkeep.trans hkeep'⟩
  · rw [saturateByBits, HostOp.run_andThen_ok ht, hu]
  · rw [hk', hk]
    rfl

end

/-! ### Inserting into a saturated bank -/

section
variable {i : Instr} {s : State} {ba : BankNo} {rs1 : RegNo}

@[simp] theorem State.setBank_bank (s : State) (b : BankNo) : s.setBank b (s.bank b) = s := by
  simp [State.setBank, State.bank]

/-- A command that completes on the state it found changes nothing. -/
theorem exists_of_complete (h : exec i s = complete s) : ∃ t, exec i s = .next t ∧ SameCore s t ∧ Completed t :=
  ⟨_, h, s.sameCore_respond _, rfl⟩

theorem exec_bput_of_saturated (hv : (s.bank ba).blen ≠ 0) (h : (s.bank ba).Saturated) :
    exec (.bput ba rs1) s = complete s := by
  rw [exec_bput_of_valid hv, h.insert_eq (Bank.reduce_lt hv _), State.setBank_bank]

theorem exec_bset_of_saturated (hr : s.index rs1 < (s.bank ba).bits) (h : (s.bank ba).Saturated) :
    exec (.bset ba rs1) s = complete s := by
  rw [exec_bset_of_lt (Bank.valid_of_lt_bits hr) hr, h.insert_eq hr, State.setBank_bank]

end

/-- Settles O48: both sessions make the full bitmap of 8192 bits, which has no cell left to set. -/
theorem saturationIsReachable : Obligations.SaturationIsReachable := by
  intro s b xw xd hs hb hx
  have hcap : 8192 ≤ s.cfg.maxBits := by
    obtain ⟨-, -, hpos, hmod⟩ := hs.params
    exact Nat.le_of_dvd hpos (Nat.dvd_of_mod_eq_zero hmod)
  obtain ⟨t, ht, hk, -⟩ := run_saturateByWords hx hb hcap
  obtain ⟨u, hu, hk', -⟩ := run_saturateByBits xw hb hcap
  have hlen : (t.bank b).blen = 8192 := by rw [hk, Bank.full_blen]
  have hv : (t.bank b).blen ≠ 0 := by rw [hlen]; decide
  have hsat : (t.bank b).Saturated := hk ▸ Bank.full_saturated (by decide)
  have hscnt : (t.bank b).scnt = (t.bank b).blen := hsat.scnt_eq (hk ▸ Bank.full_ok (by decide) hcap)
  refine ⟨t, u, ht, hu, hlen, hscnt, hsat, hk'.trans hk.symm,
    fun r => exists_of_complete (exec_bput_of_saturated hv hsat), fun r hr => ?_, fun e he => ?_⟩
  · exact exists_of_complete (exec_bset_of_saturated (by rwa [Bank.bits, hlen]) hsat)
  · rw [hscnt, hlen] at he
    exact he.eq_length

end Sys2Proof.Machine
end

section
/-! The errors (`60_exceptions.md`): the condition of each, as R202, R203 and R206 to R209 give it; a command raises an error
exactly when its condition holds; and an error changes nothing (R213). -/

namespace Sys2Proof.Machine

/-! ### The condition of each error -/

/-- The command names, in `ba` or in `bb`, a bank that holds no bitmap (R127, R206). -/
def NamesInvalidBank (i : Instr) (s : State) : Prop :=
  ∃ b, (i.bankA = some b ∨ i.bankB = some b) ∧ (s.bank b).blen = 0

/-- When the command `i` raises the error `e` in the state `s`. No command raises `EmptyInputError`, which is the host's
(R204), or `IllegalCommand`, which is the decoder's (R205). -/
def ErrorCondition (i : Instr) (s : State) : LcbError → Prop
  | .sizeError => ∃ ba rs1, i = .bcreate ba rs1 ∧ ((s.reg rs1).toNat = 0 ∨ (s.reg rs1).toNat % 8192 ≠ 0)
  | .sizeMismatchError =>
    ∃ ba bb, i = .bor ba bb ∧ (s.bank ba).blen ≠ 0 ∧ (s.bank bb).blen ≠ 0 ∧ (s.bank ba).blen ≠ (s.bank bb).blen
  | .emptyInputError => False
  | .illegalCommand => False
  | .bankInvalid => (∀ b r, i ≠ .bcreate b r) ∧ NamesInvalidBank i s
  | .rangeError =>
    ∃ b r, (s.bank b).blen ≠ 0 ∧
      ((((∃ rd, i = .bget rd b r) ∨ i = .bset b r) ∧ (s.bank b).blen.toNat ≤ (s.reg r).toNat) ∨
       (((∃ rd, i = .brdw rd b r) ∨ (∃ q, i = .borw b r q)) ∧ (s.bank b).blen.toNat / 64 ≤ (s.reg r).toNat))
  | .hashStateError =>
    (((∃ r k, i = .hput r k) ∨ i = .hfin) ∧ s.hash.hst ≠ .active) ∨ ((∃ r l, i = .hdig r l) ∧ s.hash.hst ≠ .final)
  | .capacityError =>
    ∃ ba rs1, i = .bcreate ba rs1 ∧ (s.reg rs1).toNat ≠ 0 ∧ (s.reg rs1).toNat % 8192 = 0 ∧
      s.cfg.maxBits < (s.reg rs1).toNat

section
variable {i : Instr} {s t : State} {b : BankNo} {e : LcbError}

/-- A command with a field `ba` and no field `bb` names the one bank. -/
theorem namesInvalidBank_iff_of_bankA (hA : i.bankA = some b) (hB : i.bankB = none) :
    NamesInvalidBank i s ↔ (s.bank b).blen = 0 := by
  simp [NamesInvalidBank, hA, hB]

theorem not_namesInvalidBank_of_none (hA : i.bankA = none) (hB : i.bankB = none) : ¬ NamesInvalidBank i s := by
  simp [NamesInvalidBank, hA, hB]

theorem namesInvalidBank_bor {ba bb : BankNo} :
    NamesInvalidBank (.bor ba bb) s ↔ (s.bank ba).blen = 0 ∨ (s.bank bb).blen = 0 := by
  simp [NamesInvalidBank, Instr.bankA, Instr.bankB, or_and_right, exists_or]

/-! ### The condition suffices -/

/-- Every command but `BCREATE` raises `BankInvalid` when a bank it names is invalid (R206). -/
theorem exec_of_namesInvalidBank (hi : ∀ b r, i ≠ .bcreate b r) (h : NamesInvalidBank i s) :
    exec i s = raise .bankInvalid s := by
  cases i with
  | ldi | rdr | fmix32 | fmix64 | hinit | hput | hfin | hdig => exact absurd h (not_namesInvalidBank_of_none rfl rfl)
  | bcreate ba rs1 => exact absurd rfl (hi ba rs1)
  | bget => exact exec_bget_of_invalid ((namesInvalidBank_iff_of_bankA rfl rfl).1 h)
  | bset => exact exec_bset_of_invalid ((namesInvalidBank_iff_of_bankA rfl rfl).1 h)
  | bpop => exact exec_bpop_of_invalid ((namesInvalidBank_iff_of_bankA rfl rfl).1 h)
  | bor => exact exec_bor_of_invalid (namesInvalidBank_bor.1 h)
  | borw => exact exec_borw_of_invalid ((namesInvalidBank_iff_of_bankA rfl rfl).1 h)
  | brdw => exact exec_brdw_of_invalid ((namesInvalidBank_iff_of_bankA rfl rfl).1 h)
  | bput => exact exec_bput_of_invalid ((namesInvalidBank_iff_of_bankA rfl rfl).1 h)
  | bcnt => exact exec_bcnt_of_invalid ((namesInvalidBank_iff_of_bankA rfl rfl).1 h)
  | bsize => exact exec_bsize_of_invalid ((namesInvalidBank_iff_of_bankA rfl rfl).1 h)

/-- A command whose condition for an error holds raises it. -/
theorem ErrorCondition.exec_eq_raise (h : ErrorCondition i s e) : exec i s = raise e s := by
  cases e with
  | sizeError =>
    obtain ⟨ba, rs1, rfl, hsize⟩ := h
    exact exec_bcreate_of_badSize (badSize_iff.2 hsize)
  | sizeMismatchError =>
    obtain ⟨ba, bb, rfl, hva, hvb, hne⟩ := h
    exact exec_bor_of_blen_ne (not_or.2 ⟨hva, hvb⟩) hne
  | emptyInputError | illegalCommand => exact h.elim
  | bankInvalid =>
    obtain ⟨hi, hnames⟩ := h
    exact exec_of_namesInvalidBank hi hnames
  | rangeError =>
    obtain ⟨b, r, hv, ⟨⟨rd, rfl⟩ | rfl, hle⟩ | ⟨⟨rd, rfl⟩ | ⟨q, rfl⟩, hle⟩⟩ := h
    · exact exec_bget_of_le hv hle
    · exact exec_bset_of_le hv hle
    · exact exec_brdw_of_le hv hle
    · exact exec_borw_of_le hv hle
  | hashStateError =>
    obtain ⟨⟨r, k, rfl⟩ | rfl, hst⟩ | ⟨⟨rd, sel, rfl⟩, hst⟩ := h
    · exact exec_hput_of_not_active hst
    · exact exec_hfin_of_not_active hst
    · exact exec_hdig_of_not_final hst
  | capacityError =>
    obtain ⟨ba, rs1, rfl, hpos, hmod, hcap⟩ := h
    exact exec_bcreate_of_tooLong (badSize_eq_false_iff.2 ⟨hpos, hmod⟩) hcap

/-! ### The condition is necessary -/

/-- What a command answers: `OK`, or an error whose condition holds, with nothing else changed (R200, R213). -/
inductive Answer (i : Instr) (s : State) : State → Prop
  | ok {t : State} (d : Word) (hrsp : t.rsp = some ⟨.ok, d⟩) : Answer i s t
  | error (e : LcbError) (hc : ErrorCondition i s e) : Answer i s (s.respond ⟨.error e, 0⟩)

theorem Answer.of_complete {u : State} (h : complete u = .next t) : Answer i s t := by
  obtain rfl := (complete_eq_next u t).1 h
  exact .ok 0 rfl

/-- A check of a command: where it fails the condition of its error holds, and where it passes the rest of the command
decides. -/
theorem Answer.of_check {c : Prop} [Decidable c] {rest : Result} (h : (if c then raise e s else rest) = .next t)
    (he : c → ErrorCondition i s e) (hrest : ¬ c → rest = .next t → Answer i s t) : Answer i s t := by
  split at h
  case isTrue hc =>
    obtain rfl := (raise_eq_next e s t).1 h
    exact .error e (he hc)
  case isFalse hc => exact hrest hc h

/-- The check of the bank that `ba` names, with which every bitmap and counter command but `BCREATE` and `BOR` begins
(R127, R212). -/
theorem Answer.of_bankCheck {rest : Result} (h : (if (s.bank b).blen = 0 then raise .bankInvalid s else rest) = .next t)
    (hi : ∀ b r, i ≠ .bcreate b r) (hA : i.bankA = some b)
    (hrest : (s.bank b).blen ≠ 0 → rest = .next t → Answer i s t) : Answer i s t :=
  .of_check h (fun hv => ⟨hi, b, .inl hA, hv⟩) hrest

/-- Every command that answers next gives one of these answers: its checks, in the order in which it makes them. -/
theorem exec_answer (h : exec i s = .next t) : Answer i s t := by
  cases i with
  | ldi | fmix32 | fmix64 | hinit => exact .of_complete h
  | rdr rs1 =>
    obtain rfl := (completeWith_eq_next (s.reg rs1) s t).1 h
    exact .ok (s.reg rs1) rfl
  | bcreate ba rs1 =>
    refine .of_check h (fun hsize => ⟨ba, rs1, rfl, badSize_iff.1 hsize⟩) fun hsize h => ?_
    obtain ⟨hpos, hmod⟩ := badSize_eq_false_iff.1 (Bool.eq_false_of_not_eq_true hsize)
    exact .of_check h (fun hcap => ⟨ba, rs1, rfl, hpos, hmod, hcap⟩) fun _ => .of_complete
  | bget rd ba rs1 =>
    exact .of_bankCheck h nofun rfl fun hv h =>
      .of_check h (fun hle => ⟨ba, rs1, hv, .inl ⟨.inl ⟨rd, rfl⟩, hle⟩⟩) fun _ => .of_complete
  | bset ba rs1 =>
    exact .of_bankCheck h nofun rfl fun hv h =>
      .of_check h (fun hle => ⟨ba, rs1, hv, .inl ⟨.inr rfl, hle⟩⟩) fun _ => .of_complete
  | bor ba bb =>
    refine .of_check h (fun hv => ⟨nofun, namesInvalidBank_bor.2 hv⟩) fun hv h => ?_
    obtain ⟨hva, hvb⟩ := not_or.1 hv
    exact .of_check h (fun hne => ⟨ba, bb, rfl, hva, hvb, hne⟩) fun _ => .of_complete
  | borw ba rs1 rs2 =>
    exact .of_bankCheck h nofun rfl fun hv h =>
      .of_check h (fun hle => ⟨ba, rs1, hv, .inr ⟨.inr ⟨rs2, rfl⟩, hle⟩⟩) fun _ => .of_complete
  | brdw rd ba rs1 =>
    exact .of_bankCheck h nofun rfl fun hv h =>
      .of_check h (fun hle => ⟨ba, rs1, hv, .inr ⟨.inl ⟨rd, rfl⟩, hle⟩⟩) fun _ => .of_complete
  | bpop | bput | bcnt | bsize => exact .of_bankCheck h nofun rfl fun _ => .of_complete
  | hput rs1 k => exact .of_check h (fun hst => .inl ⟨.inl ⟨rs1, k, rfl⟩, hst⟩) fun _ => .of_complete
  | hfin => exact .of_check h (fun hst => .inl ⟨.inr rfl, hst⟩) fun _ => .of_complete
  | hdig rd sel => exact .of_check h (fun hst => .inr ⟨⟨rd, sel, rfl⟩, hst⟩) fun _ => .of_complete

/-! ### Errors, each exactly when its rule says -/

/-- A command that answers an error meets the error's condition and has changed nothing (R213). -/
theorem error_of_exec {d : Word} (h : exec i s = .next t) (hrsp : t.rsp = some ⟨.error e, d⟩) :
    ErrorCondition i s e ∧ Raised e s t := by
  cases exec_answer h with
  | ok d' hok =>
    rw [hok] at hrsp
    cases hrsp
  | error e' hc =>
    cases hrsp
    exact ⟨hc, s.sameCore_respond _, s.sameStreams_respond _, rfl⟩

/-- A command answers an error exactly when the error's condition holds. -/
theorem rsp_eq_error_iff (h : exec i s = .next t) : t.rsp = some ⟨.error e, 0⟩ ↔ ErrorCondition i s e := by
  refine ⟨fun hrsp => (error_of_exec h hrsp).1, fun hc => ?_⟩
  obtain rfl := (raise_eq_next e s t).1 (hc.exec_eq_raise.symm.trans h)
  rfl

end

/-- Settles O49: the conditions of R202, R209 and R203. -/
theorem lengthErrorsExactlyWhen : Obligations.LengthErrorsExactlyWhen :=
  fun _ _ _ h => ⟨rsp_eq_error_iff h, rsp_eq_error_iff h, rsp_eq_error_iff h⟩

/-- Settles O50: the condition of R206. -/
theorem bankInvalidExactlyWhen : Obligations.BankInvalidExactlyWhen := fun _ _ _ h => rsp_eq_error_iff h

/-- Settles O51: the condition of R207. -/
theorem rangeErrorExactlyWhen : Obligations.RangeErrorExactlyWhen := fun _ _ _ h => rsp_eq_error_iff h

/-- Settles O52: the condition of R208. -/
theorem hashStateErrorExactlyWhen : Obligations.HashStateErrorExactlyWhen := fun _ _ _ h => rsp_eq_error_iff h

/-! ### A step that answers an error -/

/-- Settles O10: with no response waiting a step answers only where a word was presented; a word that decodes is no illegal
word, and its command raises neither of the two errors that have no condition, while one that does not decode is refused. -/
theorem errorChangesNothing : Obligations.ErrorChangesNothing := by
  intro s t e d hr hs hrsp
  cases hc : s.cmds with
  | nil =>
    obtain rfl := Host.Outcome.next.inj ((step_of_idle hr hc).symm.trans hs)
    rw [hr] at hrsp
    cases hrsp
  | cons c rest =>
    refine ⟨c, rest, rfl, ?_⟩
    cases hd : decodeWord s.cfg.nbank c with
    | ok i =>
      rw [step_of_decodeWord hr hc hd] at hs
      obtain ⟨hcond, hraised⟩ := error_of_exec hs hrsp
      have hlegal : ¬ IllegalWord s.cfg.nbank c := exists_decodeWord_iff.1 ⟨i, hd⟩
      exact ⟨hraised, fun he => (he ▸ hcond : ErrorCondition i _ .emptyInputError),
        fun he => (he ▸ hcond : ErrorCondition i _ .illegalCommand).elim, fun hill => absurd hill hlegal⟩
    | error de =>
      rw [step_of_decodeWord_error hr hc hd] at hs
      obtain rfl := (raise_eq_next ..).1 hs
      cases hrsp
      have hill : IllegalWord s.cfg.nbank c := not_not.1 fun hlegal => by
        obtain ⟨i, hi⟩ := exists_decodeWord_iff.2 hlegal
        cases hd.symm.trans hi
      exact ⟨⟨State.sameCore_respond .., State.sameStreams_respond .., rfl⟩, nofun, iff_of_true rfl hill⟩

end Sys2Proof.Machine
end

section
/-! Reset and hazards (`70_reset_and_hazards.md`): a bank whose count is its length, on which inserts change nothing (R245),
and what each command answers in the state after reset (R242). -/

namespace Sys2Proof.Machine

/-! ### A full count (R245) -/

/-- The converse of `Bank.Saturated.scnt_eq`: a bank that counts as many cells as it has holds no cell that is 0. -/
theorem Bank.Ok.saturated_of_scnt_eq {M : Nat} {k : Bank} (hok : k.Ok M) (hcnt : k.scnt = k.blen) : k.Saturated := by
  have hcount : Memory.countBits k.bm k.bits = (List.range k.bits).length := by
    rw [← hok.count, hcnt, List.length_range, Bank.bits]
  exact fun i hi => List.countP_eq_length.1 hcount i (List.mem_range.2 hi)

/-- Settles O47: every cell of the bank is 1, so neither command finds a cell to set. -/
theorem saturatedBankStays : Obligations.SaturatedBankStays := by
  intro ba rs1 s hok hv hcnt
  have hsat : (s.bank ba).Saturated := hok.saturated_of_scnt_eq hcnt
  exact ⟨exists_of_complete (exec_bput_of_saturated hv hsat),
    fun hr => exists_of_complete (exec_bset_of_saturated hr hsat)⟩

/-! ### The state after reset (R242) -/

section
variable {i : Instr} {s : State} {e : LcbError} {p : Config.Params} {b : BankNo}

/-- A command whose condition for an error holds answers that error. -/
theorem ErrorCondition.exists_rsp (h : ErrorCondition i s e) :
    ∃ t, exec i s = .next t ∧ t.rsp = some ⟨.error e, 0⟩ := ⟨_, h.exec_eq_raise, rfl⟩

/-- After reset no bank holds a bitmap (R36), so every command with a field `ba` names an invalid one. -/
theorem namesInvalidBank_resetWith (hA : i.bankA = some b) : NamesInvalidBank i (State.resetWith p) :=
  ⟨b, .inl hA, by rw [State.resetWith_bank, Bank.invalid]⟩

/-- After reset the hash unit is idle (R36). -/
@[simp] theorem State.resetWith_hst (p : Config.Params) : (State.resetWith p).hash.hst = .idle := rfl

end

/-- Settles O59: the registers are 0, the banks invalid and the hash unit idle, so each command either completes or meets
the condition of its error. -/
theorem resetStateAnswers : Obligations.ResetStateAnswers := by
  intro p i
  cases i with
  | ldi | fmix32 | fmix64 | hinit => exact ⟨_, rfl, rfl⟩
  | rdr rs1 => exact ⟨_, rfl, by rw [State.respond_rsp, State.resetWith_reg]⟩
  | bcreate ba rs1 =>
    have hzero : ((State.resetWith p).reg rs1).toNat = 0 := by rw [State.resetWith_reg]; rfl
    exact ErrorCondition.exists_rsp (e := .sizeError) ⟨ba, rs1, rfl, .inl hzero⟩
  | bget | bset | bpop | bor | borw | brdw | bput | bcnt | bsize =>
    exact ErrorCondition.exists_rsp (e := .bankInvalid) ⟨nofun, namesInvalidBank_resetWith rfl⟩
  | hput rs1 k => exact ErrorCondition.exists_rsp (e := .hashStateError) (.inl ⟨.inl ⟨rs1, k, rfl⟩, by simp⟩)
  | hfin => exact ErrorCondition.exists_rsp (e := .hashStateError) (.inl ⟨.inr rfl, by simp⟩)
  | hdig rd sel => exact ErrorCondition.exists_rsp (e := .hashStateError) (.inr ⟨⟨rd, sel, rfl⟩, by simp⟩)

end Sys2Proof.Machine
end
